-- ==== Sys2Proof/Word.lean ====
section
/-! DEFINITION. The word types of CORE: `u32`, `u8`, `u64` of spec/00_scope.md R8, the 41-bit HA word of
spec/30_encoding.md R63, and the 16-word arrays of spec/00_scope.md R6. Their arithmetic is BitVec's: `+` is modulo
2^32 (2^64), `^^^` is exclusive or, `<<<` and `>>>` are logical shifts (R9). -/

namespace Sys2Proof

/-- `u32` (R8): a register, a state word, a bus word. -/
abbrev Word := BitVec 32

/-- `u8` (R8). -/
abbrev Byte := BitVec 8

/-- `u64` (R8): the block counter. -/
abbrev Counter := BitVec 64

/-- One host access to CORE's window, described in 41 bits (R63). -/
abbrev HaWord := BitVec 41

/-- Sixteen 32-bit words: a CipherState or a lane's working words (R6 `STATE_WORDS`). -/
abbrev Words := Vector Word 16

/-- The 64 bytes of one block (R6 `BLOCK_BYTES`). -/
abbrev Block := Vector Byte 64

end Sys2Proof
end

