-- ==== Sys2Proof/Syntax.lean ====
section
/-! DEFINITION. The instructions of CORE: one constructor per row of spec/opcode_table.json, in the table's order. An
instruction is one host access to the register window (spec/30_encoding.md preamble and R64). -/

namespace Sys2Proof

/-- The 24 rows of the opcode table. -/
inductive Instr where
  /-- RD.CTRL -/
  | rdCtrl
  /-- RD.CMD -/
  | rdCmd
  /-- RD.STATUS -/
  | rdStatus
  /-- RD.BLKDONE -/
  | rdBlkdone
  /-- RD.NBLK -/
  | rdNblk
  /-- RD.STATE_ADDR -/
  | rdStateAddr
  /-- RD.SRC_ADDR -/
  | rdSrcAddr
  /-- RD.DST_ADDR -/
  | rdDstAddr
  /-- RD.SRC_LEN -/
  | rdSrcLen
  /-- RD.DST_LEN -/
  | rdDstLen
  /-- WR.CTRL, with the DATA written -/
  | wrCtrl (v : Word)
  /-- WR.CMD.NOP: the DATA is 0x00000000 -/
  | wrCmdNop
  /-- WR.CMD.START: the DATA is 0x00000001 -/
  | wrCmdStart
  /-- WR.CMD.ILLEGAL: any other DATA -/
  | wrCmdIllegal (v : Word)
  /-- WR.STATUS -/
  | wrStatus (v : Word)
  /-- WR.BLKDONE -/
  | wrBlkdone (v : Word)
  /-- WR.NBLK -/
  | wrNblk (v : Word)
  /-- WR.STATE_ADDR -/
  | wrStateAddr (v : Word)
  /-- WR.SRC_ADDR -/
  | wrSrcAddr (v : Word)
  /-- WR.DST_ADDR -/
  | wrDstAddr (v : Word)
  /-- WR.SRC_LEN -/
  | wrSrcLen (v : Word)
  /-- WR.DST_LEN -/
  | wrDstLen (v : Word)
  /-- RSVD.28_2C: offset 0x28 + 4 * slot, read or write -/
  | rsvd28To2C (write : Bool) (slot : BitVec 1) (v : Word)
  /-- RSVD.30_3C: offset 0x30 + 4 * slot, read or write -/
  | rsvd30To3C (write : Bool) (slot : BitVec 2) (v : Word)
  deriving DecidableEq, Repr

end Sys2Proof
end

