-- ==== Sys2Proof/WellFormed.lean ====
section
/-! DEFINITION. Which terms of Instr stand for a host access: the side conditions the opcode table puts on operands. -/

namespace Sys2Proof

/-- A WR.CMD.ILLEGAL carries a DATA that neither WR.CMD.NOP nor WR.CMD.START matches (spec/30_encoding.md R67); the word of
a read has DATA 0 (R63). Every other term is well formed whatever its operands. -/
def Instr.wellFormed : Instr → Bool
  | .rdCtrl | .rdCmd | .rdStatus | .rdBlkdone | .rdNblk => true
  | .rdStateAddr | .rdSrcAddr | .rdDstAddr | .rdSrcLen | .rdDstLen => true
  | .wrCtrl _ | .wrCmdNop | .wrCmdStart => true
  | .wrCmdIllegal v => v != 0 && v != 1
  | .wrStatus _ | .wrBlkdone _ | .wrNblk _ | .wrStateAddr _ => true
  | .wrSrcAddr _ | .wrDstAddr _ | .wrSrcLen _ | .wrDstLen _ => true
  | .rsvd28To2C write _ v => write || v == 0
  | .rsvd30To3C write _ v => write || v == 0

end Sys2Proof
end

