-- ==== Sys2Proof/Decode.lean ====
section
/-! DEFINITION. Decoding an HA word to an instruction (spec/30_encoding.md R63 to R67) and encoding one. An HA word is a
description of a bus transaction and not bytes on a wire (R63), and CORE fetches nothing (spec/20_memory.md R62), so the
decoder reads the 41-bit word itself. -/

namespace Sys2Proof

/-- Why an HA word is no access to a register of CORE. -/
inductive DecodeError where
  /-- OFF[1:0] is not 00: the open case HOST_NONWORD (R63, spec/10_state.md R15). -/
  | offsetNotAligned
  /-- OFF is 0x40 to 0xFF: the access addresses no part of CORE (R63). -/
  | offsetOutsideWindow
  deriving DecidableEq, Repr

/-- Field W, bit 40: true for a write (R63). -/
def haWrite (w : HaWord) : Bool := w.getLsbD 40

/-- Field OFF, bits 39:32 (R63). -/
def haOffset (w : HaWord) : BitVec 8 := w.extractLsb' 32 8

/-- Field DATA, bits 31:0 (R63). -/
def haData (w : HaWord) : Word := w.extractLsb' 0 32

/-- The HA word with the given fields (R63). -/
def haWord (write : Bool) (off : BitVec 8) (data : Word) : HaWord :=
  BitVec.ofBool write ++ off ++ data

/-- The CMD word (R65 to R67): the whole DATA is matched. -/
def decodeCommand (v : Word) : Instr :=
  if v = 0 then .wrCmdNop else if v = 1 then .wrCmdStart else .wrCmdIllegal v

/-- A read at an aligned offset inside the window (R64). The DATA of a read is no operand (assumption log, entry 10). -/
def decodeRead (off : BitVec 8) : Instr :=
  if off = 0x00 then .rdCtrl
  else if off = 0x04 then .rdCmd
  else if off = 0x08 then .rdStatus
  else if off = 0x0C then .rdBlkdone
  else if off = 0x10 then .rdNblk
  else if off = 0x14 then .rdStateAddr
  else if off = 0x18 then .rdSrcAddr
  else if off = 0x1C then .rdDstAddr
  else if off = 0x20 then .rdSrcLen
  else if off = 0x24 then .rdDstLen
  else if off < 0x30 then .rsvd28To2C false (off.extractLsb' 2 1) 0
  else .rsvd30To3C false (off.extractLsb' 2 2) 0

/-- A write of `v` at an aligned offset inside the window (R64). -/
def decodeWrite (off : BitVec 8) (v : Word) : Instr :=
  if off = 0x00 then .wrCtrl v
  else if off = 0x04 then decodeCommand v
  else if off = 0x08 then .wrStatus v
  else if off = 0x0C then .wrBlkdone v
  else if off = 0x10 then .wrNblk v
  else if off = 0x14 then .wrStateAddr v
  else if off = 0x18 then .wrSrcAddr v
  else if off = 0x1C then .wrDstAddr v
  else if off = 0x20 then .wrSrcLen v
  else if off = 0x24 then .wrDstLen v
  else if off < 0x30 then .rsvd28To2C true (off.extractLsb' 2 1) v
  else .rsvd30To3C true (off.extractLsb' 2 2) v

/-- Decoding by OFF and W, and by DATA for a CMD write (R64). Total; rejects by name. -/
def decode (w : HaWord) : Except DecodeError Instr :=
  if (haOffset w).extractLsb' 0 2 ≠ 0 then .error .offsetNotAligned
  else if 0x40 ≤ haOffset w then .error .offsetOutsideWindow
  else if haWrite w then .ok (decodeWrite (haOffset w) (haData w))
  else .ok (decodeRead (haOffset w))

/-- W of an instruction's word (R64, R72). -/
def Instr.isWrite : Instr → Bool
  | .rdCtrl | .rdCmd | .rdStatus | .rdBlkdone | .rdNblk => false
  | .rdStateAddr | .rdSrcAddr | .rdDstAddr | .rdSrcLen | .rdDstLen => false
  | .wrCtrl _ | .wrCmdNop | .wrCmdStart | .wrCmdIllegal _ | .wrStatus _ | .wrBlkdone _ => true
  | .wrNblk _ | .wrStateAddr _ | .wrSrcAddr _ | .wrDstAddr _ | .wrSrcLen _ | .wrDstLen _ => true
  | .rsvd28To2C write _ _ => write
  | .rsvd30To3C write _ _ => write

/-- OFF of an instruction's word (spec/10_state.md R14). -/
def Instr.offset : Instr → BitVec 8
  | .rdCtrl | .wrCtrl _ => 0x00
  | .rdCmd | .wrCmdNop | .wrCmdStart | .wrCmdIllegal _ => 0x04
  | .rdStatus | .wrStatus _ => 0x08
  | .rdBlkdone | .wrBlkdone _ => 0x0C
  | .rdNblk | .wrNblk _ => 0x10
  | .rdStateAddr | .wrStateAddr _ => 0x14
  | .rdSrcAddr | .wrSrcAddr _ => 0x18
  | .rdDstAddr | .wrDstAddr _ => 0x1C
  | .rdSrcLen | .wrSrcLen _ => 0x20
  | .rdDstLen | .wrDstLen _ => 0x24
  | .rsvd28To2C _ slot _ => 0b00101#5 ++ slot ++ 0b00#2
  | .rsvd30To3C _ slot _ => 0b0011#4 ++ slot ++ 0b00#2

/-- DATA of an instruction's word: the value written, and 0 for a read (R63). -/
def Instr.data : Instr → Word
  | .rdCtrl | .rdCmd | .rdStatus | .rdBlkdone | .rdNblk => 0
  | .rdStateAddr | .rdSrcAddr | .rdDstAddr | .rdSrcLen | .rdDstLen => 0
  | .wrCmdNop => 0
  | .wrCmdStart => 1
  | .wrCtrl v | .wrCmdIllegal v | .wrStatus v | .wrBlkdone v => v
  | .wrNblk v | .wrStateAddr v | .wrSrcAddr v | .wrDstAddr v | .wrSrcLen v | .wrDstLen v => v
  | .rsvd28To2C _ _ v => v
  | .rsvd30To3C _ _ v => v

/-- The HA word of an instruction (R63, R72). -/
def encode (i : Instr) : HaWord := haWord i.isWrite i.offset i.data

/-- The instruction the decoder reads from a word numbered as spec/opcode_table.json numbers it. A number with a bit set
above bit 40 is no HA word. -/
def decodeTableWord (nbits w : Nat) : Option Instr :=
  if w % 2 ^ nbits < 2 ^ 41 then (decode (BitVec.ofNat 41 (w % 2 ^ nbits))).toOption else none

end Sys2Proof
end

