-- ==== Sys2Proof/Config.lean ====
section
/-! DEFINITION. What is fixed for the machine: the constants of spec/00_scope.md R6 and R7, and the one free value.
The parameters the spec leaves OPEN and that a claim must be able to quantify over (CORE_BASE, BUS_FAULT, the device map,
MEM0) are data of State (assumption log, entries 5 to 8). -/

namespace Sys2Proof.Config

/-- Bytes of the address space, `2^ADDR_BITS` (R7, spec/20_memory.md R45). -/
abbrev addressSpace : Nat := 4294967296

/-- Bytes of CORE's register window (spec/10_state.md R14). -/
abbrev windowBytes : Nat := 64

/-- `STATE_BYTES` (R6). -/
abbrev stateBytes : Nat := 64

/-- `BLOCK_BYTES` (R6). -/
abbrev blockBytes : Nat := 64

/-- `DOUBLE_ROUNDS` (R6): "fixed, never configurable". -/
abbrev doubleRounds : Nat := 10

/-- What an address that memory does not list reads as. DESIGN CHOICE, unsafe where a claim starts from State.reset
(assumption log, entry 7): MEM0 is the host's (spec/10_state.md R37), and a state's own memory says it. -/
abbrev unlistedByte : Byte := 0

/-- The byte a read of a device address draws, the n-th draw of a run. FREE: the spec says only that any value may result
(spec/93_implementation_defined.md I5, spec/20_memory.md R56; assumption log, entry 8). -/
opaque deviceByte : Nat → Byte

end Sys2Proof.Config
end

