-- ==== Sys2Proof/Machine/State.lean ====
section
/-! DEFINITION. The state of the machine: every register and internal element spec/10_state.md gives CORE (R14 to R38),
the memory it masters (spec/20_memory.md), the platform's open parameters, and the turns of the agents still to come
(R58). Names in capitals are the spec's own. -/

namespace Sys2Proof.Machine

/-! ### Reasons to stop -/

/-- What stops the machine without an effect the spec gives. No run CORE makes on its own reaches either (Safety.lean). -/
inductive Fault where
  /-- Raised by a memory access of `n` bytes at `a` with `a + n` above 2^32: the addresses do not exist (R45). Safe. CORE
  never makes one after a passed CHECK (R51). -/
  | outsideAddressSpace
  /-- Raised by a LOAD step with IDX above 15, to which R113 gives no meaning. Safe. -/
  | loadIndexOutOfRange
  deriving DecidableEq, Repr

/-- What the model gives no meaning to. -/
inductive Refusal where
  /-- An instruction without a meaning in exec. No arm uses it. Safe. -/
  | notModelled (mnemonic : String)
  /-- Raised by a host access that touches CORE's window and is not an aligned 32-bit access: the open parameter
  HOST_NONWORD, which a model refuses (R15, spec/92_eei_decisions.md D3). Safe. -/
  | hostNonWord
  /-- Raised by an HA word with OFF 0x40 to 0xFF, which addresses no part of CORE (R63). Safe. -/
  | offsetOutsideWindow
  /-- Raised by a write, of either agent, to an address that is no ordinary memory: its effect is not defined (R56,
  spec/93_implementation_defined.md I5). Safe. -/
  | deviceWrite
  deriving DecidableEq, Repr

/-! ### Host-visible registers -/

/-- The error codes of STATUS.ERRCODE that CORE ever holds (R129). -/
inductive ErrCode where
  | none
  | illegalCmd
  | len
  | stateAlign
  | range
  | aliasing
  | bus
  deriving DecidableEq, Repr

/-- CTRL (R16): its one writable bit. -/
structure Ctrl where
  IE : Bool
  deriving DecidableEq, Repr

/-- STATUS (R18): its five fields. -/
structure Status where
  BUSY : Bool
  DONE : Bool
  ERR : Bool
  IGN : Bool
  ERRCODE : ErrCode
  deriving DecidableEq, Repr

/-- The register window (R14). CMD holds no state (R17). -/
structure Regs where
  CTRL : Ctrl
  STATUS : Status
  BLKDONE : Word
  NBLK : Word
  STATE_ADDR : Word
  SRC_ADDR : Word
  DST_ADDR : Word
  SRC_LEN : Word
  DST_LEN : Word
  deriving DecidableEq, Repr

/-! ### Internal state -/

/-- The sequencer's position (R29, R30). -/
inductive Phase where
  | idle
  | load
  | gen
  | rd
  | wr
  | wb
  | fin
  deriving DecidableEq, Repr

/-- N, the lane count of the current batch; zero outside a batch (R29). -/
inductive LaneCount where
  | zero
  | one
  | two
  | four
  deriving DecidableEq, Repr

/-- CORE's internal state (R29): PHASE, S, CTR, REM, CUR, N, LI, IDX, IN, KS and X. -/
structure Sequencer where
  PHASE : Phase
  S : Words
  CTR : Counter
  REM : Word
  CUR : Word
  N : LaneCount
  LI : Fin 4
  IDX : Fin 64
  IN : Block
  KS : Vector Block 4
  X : Vector Words 4
  deriving DecidableEq, Repr

/-! ### The bus, its platform and its memory -/

/-- The two kinds of a bus access (R55). -/
inductive AccessKind where
  | read
  | write
  deriving DecidableEq, Repr

/-- The widths of a bus access. CORE makes byte and word accesses (R53); a host may also make 2-byte ones. -/
inductive Width where
  | byte
  | half
  | word
  deriving DecidableEq, Repr

/-- One bus access, as `BUS_FAULT(addr, width, kind)` sees it (R55). -/
structure BusAccess where
  addr : Nat
  width : Width
  kind : AccessKind
  deriving DecidableEq, Repr

/-- The addresses `first` to `last`, both included. -/
structure Region where
  first : Nat
  last : Nat
  deriving DecidableEq, Repr

/-- Accesses of one width and kind that start in `region` fault. -/
structure FaultRegion where
  region : Region
  width : Width
  kind : AccessKind
  deriving DecidableEq, Repr

/-- The parameters the spec leaves OPEN (R7): CORE_BASE, BUS_FAULT as a list of regions (every predicate on the finitely
many accesses is such a list), and the addresses that hold devices and not memory (R46, R56). No step changes them. -/
structure Platform where
  coreBase : BitVec 32
  faults : List FaultRegion
  devices : List Region
  deriving DecidableEq, Repr

/-- The bytes of memory (R45, R58): addresses strictly rising, no entry equal to `Config.unlistedByte`. -/
abbrev Memory := List Host.Cell

/-! ### Turns -/

/-- A bus access of the host. `data` is what a write stores. -/
structure BusMove where
  kind : AccessKind
  addr : BitVec 32
  width : Width
  data : Word
  deriving DecidableEq, Repr

/-- Who takes the next step (R13, R58, R144). -/
inductive Turn where
  /-- CORE takes its next step, if it has one. -/
  | core
  /-- HOST makes the register access the HA word describes; it has reached CORE (assumption log, entry 23). -/
  | access (ha : HaWord)
  /-- HOST makes a bus access at an address. -/
  | bus (m : BusMove)
  /-- The platform asserts `rst`. -/
  | reset
  deriving DecidableEq, Repr

/-- The machine. `turns`, `rdata` and `draws` are the model's own fields (INVENTORY.md). -/
structure State where
  /-- The register window. -/
  regs : Regs
  /-- CORE's internal state. -/
  seq : Sequencer
  /-- The bytes of the address space. -/
  mem : Memory
  /-- The open parameters. -/
  platform : Platform
  /-- The turns of the total order of R58 still to come; when none is listed, CORE moves (R159). -/
  turns : List Turn
  /-- The value the host's last read returned; none before any read, or when that read faulted (R15, R55). -/
  rdata : Option Word
  /-- How many free device bytes have been drawn. -/
  draws : Nat
  deriving DecidableEq, Repr

/-! ### Reset -/

/-- R36. -/
def Regs.reset : Regs where
  CTRL := ⟨false⟩
  STATUS := ⟨false, false, false, false, .none⟩
  BLKDONE := 0
  NBLK := 0
  STATE_ADDR := 0
  SRC_ADDR := 0
  DST_ADDR := 0
  SRC_LEN := 0
  DST_LEN := 0

/-- R38. -/
def Sequencer.reset : Sequencer where
  PHASE := .idle
  S := Vector.replicate 16 0
  CTR := 0
  REM := 0
  CUR := 0
  N := .zero
  LI := 0
  IDX := 0
  IN := Vector.replicate 64 0
  KS := Vector.replicate 4 (Vector.replicate 64 0)
  X := Vector.replicate 4 (Vector.replicate 16 0)

/-- The platform of State.reset: DESIGN CHOICE, unsafe (assumption log, entries 5, 6, 8). -/
def Platform.reset : Platform := ⟨0, [], []⟩

/-- The machine after reset (R36 to R38, R144). The fields that are not CORE's take the values of the assumption log,
entries 1, 4 to 8. -/
def State.reset : State where
  regs := Regs.reset
  seq := Sequencer.reset
  mem := []
  platform := Platform.reset
  turns := []
  rdata := none
  draws := 0

end Sys2Proof.Machine
end

