-- ==== Sys2Proof/Machine/Flags.lean ====
section
/-! DEFINITION. The words of CTRL and STATUS and what writes do to their fields (spec/10_state.md R16 to R19, R28,
spec/60_exceptions.md R129). -/

namespace Sys2Proof.Machine

/-- The 4-bit code of an error (R129). -/
def ErrCode.code : ErrCode → BitVec 4
  | .none => 0x0
  | .illegalCmd => 0x1
  | .len => 0x2
  | .stateAlign => 0x3
  | .range => 0x4
  | .aliasing => 0x5
  | .bus => 0x6

/-- CTRL as a read returns it (R16): IE in bit 0, the rest reads as zero. -/
def Ctrl.toWord (c : Ctrl) : Word := 0#31 ++ BitVec.ofBool c.IE

/-- CTRL after a write of `v` (R16): reserved bits are ignored. -/
def Ctrl.ofWord (v : Word) : Ctrl := ⟨v.getLsbD 0⟩

/-- STATUS as a read returns it (R18): BUSY 0, DONE 1, ERR 2, IGN 3, ERRCODE 11:8, the rest reads as zero. -/
def Status.toWord (t : Status) : Word :=
  0#20 ++ t.ERRCODE.code ++ 0#4 ++ BitVec.ofBool t.IGN ++ BitVec.ofBool t.ERR ++ BitVec.ofBool t.DONE ++
    BitVec.ofBool t.BUSY

/-- STATUS after a write of `v` (R19): a 1 in bit 1 clears DONE, in bit 2 ERR with ERRCODE, in bit 3 IGN. -/
def Status.writeOneToClear (v : Word) (t : Status) : Status where
  BUSY := t.BUSY
  DONE := t.DONE && !v.getLsbD 1
  ERR := t.ERR && !v.getLsbD 2
  IGN := t.IGN && !v.getLsbD 3
  ERRCODE := if v.getLsbD 2 then .none else t.ERRCODE

/-- The output signal (R28, R137): a level. -/
def irq (s : State) : Bool := s.regs.CTRL.IE && s.regs.STATUS.DONE

end Sys2Proof.Machine
end

