-- ==== Sys2Proof/Machine/Operands.lean ====
section
/-! DEFINITION. The operands of START: the configuration registers, each an unsigned number (spec/30_encoding.md R68), the
three windows (spec/20_memory.md R50) and the precondition check (spec/44_dispatcher.md R112). All sums are of
unbounded naturals. -/

namespace Sys2Proof.Machine

/-- A window `W(A, L)` (R50). -/
structure Window where
  base : Nat
  length : Nat
  deriving DecidableEq, Repr

/-- The window crosses the top of the address space (R51). -/
def Window.crossesTop (w : Window) : Bool := Config.addressSpace < w.base + w.length

/-- Two windows overlap: both non-empty and each starts before the other's end (R50). -/
def Window.overlaps (v w : Window) : Bool :=
  v.length != 0 && w.length != 0 && v.base < w.base + w.length && w.base < v.base + v.length

/-- `M`, the block count of the command (R21, R68). -/
def blockCount (r : Regs) : Nat := r.NBLK.toNat

/-- `L = M * 64`, exact (R112). -/
def bufferLength (r : Regs) : Nat := blockCount r * Config.blockBytes

/-- WS, the 64 bytes of the CipherState (R50). -/
def stateWindow (r : Regs) : Window := ⟨r.STATE_ADDR.toNat, Config.stateBytes⟩

/-- WI, the input buffer (R50). -/
def inputWindow (r : Regs) : Window := ⟨r.SRC_ADDR.toNat, bufferLength r⟩

/-- WO, the output buffer (R50). -/
def outputWindow (r : Regs) : Window := ⟨r.DST_ADDR.toNat, bufferLength r⟩

/-- CHECK (R112): the first failing test decides the code. -/
def check (r : Regs) : ErrCode :=
  if r.SRC_LEN.toNat ≠ bufferLength r ∨ r.DST_LEN.toNat ≠ bufferLength r then .len
  else if r.STATE_ADDR.extractLsb' 0 2 ≠ 0 then .stateAlign
  else if (stateWindow r).crossesTop || (inputWindow r).crossesTop || (outputWindow r).crossesTop then .range
  else if (stateWindow r).overlaps (inputWindow r) || (stateWindow r).overlaps (outputWindow r) then .aliasing
  else .none

end Sys2Proof.Machine
end

