-- ==== Sys2Proof/Machine/Ops.lean ====
section
/-! DEFINITION. The shared operations: memory by bytes, the bus accesses `MemRead` and `MemWrite` (spec/00_scope.md R11,
spec/20_memory.md), the reply to a host read, writes of configuration registers, and the entry into and return from an
error (spec/60_exceptions.md R134, R136, spec/44_dispatcher.md R127). -/

namespace Sys2Proof.Machine

/-! ### Memory -/

/-- The form of a memory: addresses strictly rising, no entry equal to what an unlisted address reads as. -/
def Memory.wf : Memory → Bool
  | [] => true
  | [c] => c.2 != Config.unlistedByte
  | c :: d :: rest => c.2 != Config.unlistedByte && c.1 < d.1 && Memory.wf (d :: rest)

/-- The byte at an address (R58). -/
def Memory.read (m : Memory) (a : Nat) : Byte :=
  match m with
  | [] => Config.unlistedByte
  | c :: rest => if c.1 = a then c.2 else Memory.read rest a

/-- Memory without an entry for `a`. -/
def Memory.erase (m : Memory) (a : Nat) : Memory := m.filter fun c => c.1 != a

/-- Memory with the entry `(a, v)` in its place. -/
def Memory.insert (m : Memory) (a : Nat) (v : Byte) : Memory :=
  match m with
  | [] => [(a, v)]
  | c :: rest =>
    if c.1 < a then c :: Memory.insert rest a v
    else if c.1 = a then (a, v) :: rest
    else (a, v) :: c :: rest

/-- Memory after the byte `v` is written at `a`. -/
def Memory.write (m : Memory) (a : Nat) (v : Byte) : Memory :=
  if v = Config.unlistedByte then m.erase a else m.insert a v

/-- Memory after the bytes are written at `a`, `a + 1`, and so on. -/
def Memory.writeBytes (m : Memory) (a : Nat) (bs : List Byte) : Memory :=
  match bs with
  | [] => m
  | b :: rest => Memory.writeBytes (m.write a b) (a + 1) rest

/-! ### Byte order (R10, R49) -/

/-- The little-endian value of bytes, lowest address first; `le32` on four bytes. -/
def leValue : List Byte → Word
  | [] => 0
  | b :: rest => b.setWidth 32 ||| leValue rest <<< 8

/-- The `n` low bytes of a word, lowest address first; `bytes_le32` for `n = 4`. -/
def leBytes : Nat → Word → List Byte
  | 0, _ => []
  | n + 1, v => v.setWidth 8 :: leBytes n (v >>> 8)

/-! ### The platform -/

/-- How many bytes an access moves. -/
def Width.bytes : Width → Nat
  | .byte => 1
  | .half => 2
  | .word => 4

/-- The address lies in the region. -/
def Region.contains (r : Region) (a : Nat) : Bool := r.first ≤ a && a ≤ r.last

/-- `BUS_FAULT(addr, width, kind)` (R55). -/
def Platform.busFault (p : Platform) (b : BusAccess) : Bool :=
  p.faults.any fun f => f.region.contains b.addr && f.width == b.width && f.kind == b.kind

/-- CORE's register window, `[CORE_BASE, CORE_BASE + 64)` (R45). -/
def Platform.inWindow (p : Platform) (a : Nat) : Bool :=
  p.coreBase.toNat ≤ a && a < p.coreBase.toNat + Config.windowBytes

/-- The address is no ordinary memory (R56): CORE's own window, or another device. -/
def Platform.isDevice (p : Platform) (a : Nat) : Bool :=
  p.inWindow a || p.devices.any fun r => r.contains a

/-! ### Bus accesses -/

/-- How a bus access ends: done, a bus fault (R55), or a stop of the model. -/
inductive BusReply (α : Type) where
  | done (v : α)
  | busFault
  | fault (f : Fault)
  | refused (r : Refusal)
  deriving Repr

/-- Continue after a bus access: `onFault` is the state a bus fault leaves. -/
def BusReply.resume {α : Type} (r : BusReply α) (onFault : State) (k : α → State) :
    Host.Outcome State Fault Refusal :=
  match r with
  | .done v => .next (k v)
  | .busFault => .next onFault
  | .fault f => .fault f
  | .refused e => .refused e

/-- The bytes at `a`, `a + 1`, ... and the draws made: memory gives its byte (R58), a device any byte (R56, I5). -/
def readBytes (s : State) : Nat → Nat → Nat → List Byte × Nat
  | 0, _, draws => ([], draws)
  | n + 1, a, draws =>
    if s.platform.isDevice a then
      let r := readBytes s n (a + 1) (draws + 1)
      (Config.deviceByte draws :: r.1, r.2)
    else
      let r := readBytes s n (a + 1) draws
      (s.mem.read a :: r.1, r.2)

/-- Some of the `n` bytes at `a` are no ordinary memory. -/
def touchesDevice (p : Platform) : Nat → Nat → Bool
  | 0, _ => false
  | n + 1, a => p.isDevice a || touchesDevice p n (a + 1)

/-- `MemRead(addr, n)` (R11): the value and the state with the free bytes drawn. -/
def memRead (a : Nat) (w : Width) (s : State) : BusReply (Word × State) :=
  if Config.addressSpace < a + w.bytes then .fault .outsideAddressSpace
  else if s.platform.busFault ⟨a, w, .read⟩ then .busFault
  else
    let r := readBytes s w.bytes a s.draws
    .done (leValue r.1, { s with draws := r.2 })

/-- `MemWrite(addr, n, v)` (R11): the state with the low bytes of `v` stored. -/
def memWrite (a : Nat) (w : Width) (v : Word) (s : State) : BusReply State :=
  if Config.addressSpace < a + w.bytes then .fault .outsideAddressSpace
  else if s.platform.busFault ⟨a, w, .write⟩ then .busFault
  else if touchesDevice s.platform w.bytes a then .refused .deviceWrite
  else .done { s with mem := s.mem.writeBytes a (leBytes w.bytes v) }

/-! ### Registers -/

/-- A host read returns `v` (R15). -/
def replyRead (v : Word) (s : State) : State := { s with rdata := some v }

/-- A host write to a configuration register: lost while BUSY (R26). -/
def writeConfig (update : Regs → Regs) (s : State) : State :=
  if s.regs.STATUS.BUSY then s else { s with regs := update s.regs }

/-- The state with STATUS changed. -/
def mapStatus (f : Status → Status) (s : State) : State :=
  { s with regs := { s.regs with STATUS := f s.regs.STATUS } }

/-! ### Errors and completion -/

/-- ERRCODE <- code, ERR <- 1: what every error records (R129). -/
def recordError (e : ErrCode) (s : State) : State := mapStatus (fun t => { t with ERR := true, ERRCODE := e }) s

/-- DONE <- 1: the end of a command (R160). -/
def signalDone (s : State) : State := mapStatus (fun t => { t with DONE := true }) s

/-- BLKDONE <- 0. -/
def clearBlkdone (s : State) : State := { s with regs := { s.regs with BLKDONE := 0 } }

/-- Entry of a precondition error or an illegal command (R134): the command ends in this step, nothing else happens. -/
def failCommand (e : ErrCode) (s : State) : State := signalDone (recordError e (clearBlkdone s))

/-- BUSFAULT (R127): the step's other effects do not happen, FIN comes next. -/
def takeBusFault (s : State) : State :=
  let t := recordError .bus s
  { t with seq := { t.seq with IDX := 0, PHASE := .fin } }

/-- Error return (R136): the host's write of ones to STATUS (R19). -/
def acknowledge (v : Word) (s : State) : State := mapStatus (Status.writeOneToClear v) s

/-- The effect of `rst` (R144 to R146): registers and internal state take their reset values; memory, the platform and the
host's own fields stand (assumption log, entry 19). Every access already done stands, both counter words too when the reset
falls between the second WB step and FIN, where R146 is at odds with itself: DESIGN CHOICE (assumption log, entry 24). -/
def applyReset (s : State) : State := { s with regs := Regs.reset, seq := Sequencer.reset }

end Sys2Proof.Machine
end

