-- ==== Sys2Proof/Machine/Commands.lean ====
section
/-! DEFINITION. The CMD writes (spec/44_dispatcher.md R108 to R111). -/

namespace Sys2Proof.Machine

/-- BUSYCMD (R110): IGN <- 1, the value is discarded. -/
def busyCommand (s : State) : State := mapStatus (fun t => { t with IGN := true }) s

/-- The decode of a CMD write (R108): the BUSY test comes first. -/
def commandWrite (idle : State → State) (s : State) : State :=
  if s.regs.STATUS.BUSY then busyCommand s else idle s

/-- What START clears before CHECK (R111): DONE, ERR, ERRCODE, BLKDONE. IGN stays. -/
def startClear (s : State) : State :=
  mapStatus (fun t => { t with DONE := false, ERR := false, ERRCODE := .none }) (clearBlkdone s)

/-- START's launch of the sequencer (R111). -/
def launch (s : State) : State :=
  let t := mapStatus (fun t => { t with BUSY := true }) s
  { t with seq := { t.seq with
    REM := s.regs.NBLK, CUR := 0, IDX := 0, N := .zero, LI := 0, PHASE := .load } }

/-- START (R111). -/
def startCommand (s : State) : State :=
  let t := startClear s
  let e := check s.regs
  if e ≠ .none then failCommand e t
  else if blockCount s.regs = 0 then signalDone t
  else launch t

/-- WR.CMD.NOP (R108): no effect while idle. -/
def execWrCmdNop (s : State) : Host.Outcome State Fault Refusal := .next (commandWrite id s)

/-- WR.CMD.START (R108, R111). -/
def execWrCmdStart (s : State) : Host.Outcome State Fault Refusal := .next (commandWrite startCommand s)

/-- WR.CMD.ILLEGAL (R108, R109). -/
def execWrCmdIllegal (_v : Word) (s : State) : Host.Outcome State Fault Refusal :=
  .next (commandWrite (failCommand .illegalCmd) s)

end Sys2Proof.Machine
end

