-- ==== Sys2Proof/Machine/RegisterReads.lean ====
section
/-! DEFINITION. The reads of the register window (spec/10_state.md R15 to R25): the value is returned and nothing else
changes. -/

namespace Sys2Proof.Machine

/-- RD.CTRL (R16). -/
def execRdCtrl (s : State) : Host.Outcome State Fault Refusal := .next (replyRead s.regs.CTRL.toWord s)

/-- RD.CMD (R17): returns 0. -/
def execRdCmd (s : State) : Host.Outcome State Fault Refusal := .next (replyRead 0 s)

/-- RD.STATUS (R18). -/
def execRdStatus (s : State) : Host.Outcome State Fault Refusal := .next (replyRead s.regs.STATUS.toWord s)

/-- RD.BLKDONE (R20). -/
def execRdBlkdone (s : State) : Host.Outcome State Fault Refusal := .next (replyRead s.regs.BLKDONE s)

/-- RD.NBLK (R21, R26: also while BUSY). -/
def execRdNblk (s : State) : Host.Outcome State Fault Refusal := .next (replyRead s.regs.NBLK s)

/-- RD.STATE_ADDR (R22). -/
def execRdStateAddr (s : State) : Host.Outcome State Fault Refusal := .next (replyRead s.regs.STATE_ADDR s)

/-- RD.SRC_ADDR (R23). -/
def execRdSrcAddr (s : State) : Host.Outcome State Fault Refusal := .next (replyRead s.regs.SRC_ADDR s)

/-- RD.DST_ADDR (R24). -/
def execRdDstAddr (s : State) : Host.Outcome State Fault Refusal := .next (replyRead s.regs.DST_ADDR s)

/-- RD.SRC_LEN (R25). -/
def execRdSrcLen (s : State) : Host.Outcome State Fault Refusal := .next (replyRead s.regs.SRC_LEN s)

/-- RD.DST_LEN (R25). -/
def execRdDstLen (s : State) : Host.Outcome State Fault Refusal := .next (replyRead s.regs.DST_LEN s)

end Sys2Proof.Machine
end

