-- ==== Sys2Proof/Machine/RegisterWrites.lean ====
section
/-! DEFINITION. The writes of the register window other than CMD (spec/10_state.md R16, R19 to R26). -/

namespace Sys2Proof.Machine

/-- WR.CTRL (R16): at any time, also while BUSY. -/
def execWrCtrl (v : Word) (s : State) : Host.Outcome State Fault Refusal :=
  .next { s with regs := { s.regs with CTRL := Ctrl.ofWord v } }

/-- WR.STATUS (R19): at any time. -/
def execWrStatus (v : Word) (s : State) : Host.Outcome State Fault Refusal := .next (acknowledge v s)

/-- WR.BLKDONE (R20): ignored. -/
def execWrBlkdone (_v : Word) (s : State) : Host.Outcome State Fault Refusal := .next s

/-- WR.NBLK (R21, R26). -/
def execWrNblk (v : Word) (s : State) : Host.Outcome State Fault Refusal :=
  .next (writeConfig (fun r => { r with NBLK := v }) s)

/-- WR.STATE_ADDR (R22, R26): every value can be written. -/
def execWrStateAddr (v : Word) (s : State) : Host.Outcome State Fault Refusal :=
  .next (writeConfig (fun r => { r with STATE_ADDR := v }) s)

/-- WR.SRC_ADDR (R23, R26). -/
def execWrSrcAddr (v : Word) (s : State) : Host.Outcome State Fault Refusal :=
  .next (writeConfig (fun r => { r with SRC_ADDR := v }) s)

/-- WR.DST_ADDR (R24, R26). -/
def execWrDstAddr (v : Word) (s : State) : Host.Outcome State Fault Refusal :=
  .next (writeConfig (fun r => { r with DST_ADDR := v }) s)

/-- WR.SRC_LEN (R25, R26). -/
def execWrSrcLen (v : Word) (s : State) : Host.Outcome State Fault Refusal :=
  .next (writeConfig (fun r => { r with SRC_LEN := v }) s)

/-- WR.DST_LEN (R25, R26). -/
def execWrDstLen (v : Word) (s : State) : Host.Outcome State Fault Refusal :=
  .next (writeConfig (fun r => { r with DST_LEN := v }) s)

end Sys2Proof.Machine
end

