-- ==== Sys2Proof/Machine/Reserved.lean ====
section
/-! DEFINITION. The reserved offsets 0x28 to 0x3C (spec/10_state.md R14, R15): a read returns 0, a write is ignored. -/

namespace Sys2Proof.Machine

/-- RAZ/WI (R14). -/
def reservedAccess (write : Bool) (s : State) : State := if write then s else replyRead 0 s

/-- RSVD.28_2C (R15). -/
def execRsvd28To2C (write : Bool) (_slot : BitVec 1) (_v : Word) (s : State) : Host.Outcome State Fault Refusal :=
  .next (reservedAccess write s)

/-- RSVD.30_3C (R15). -/
def execRsvd30To3C (write : Bool) (_slot : BitVec 2) (_v : Word) (s : State) : Host.Outcome State Fault Refusal :=
  .next (reservedAccess write s)

end Sys2Proof.Machine
end

