-- ==== Sys2Proof/Machine/Dispatch.lean ====
section
/-! DEFINITION. From an instruction to its meaning: one arm per row of spec/opcode_table.json. -/

namespace Sys2Proof.Machine

def exec (i : Instr) (s : State) : Host.Outcome State Fault Refusal :=
  match i with
  | .rdCtrl => Sys2Proof.Machine.execRdCtrl s
  | .rdCmd => Sys2Proof.Machine.execRdCmd s
  | .rdStatus => Sys2Proof.Machine.execRdStatus s
  | .rdBlkdone => Sys2Proof.Machine.execRdBlkdone s
  | .rdNblk => Sys2Proof.Machine.execRdNblk s
  | .rdStateAddr => Sys2Proof.Machine.execRdStateAddr s
  | .rdSrcAddr => Sys2Proof.Machine.execRdSrcAddr s
  | .rdDstAddr => Sys2Proof.Machine.execRdDstAddr s
  | .rdSrcLen => Sys2Proof.Machine.execRdSrcLen s
  | .rdDstLen => Sys2Proof.Machine.execRdDstLen s
  | .wrCtrl v => Sys2Proof.Machine.execWrCtrl v s
  | .wrCmdNop => Sys2Proof.Machine.execWrCmdNop s
  | .wrCmdStart => Sys2Proof.Machine.execWrCmdStart s
  | .wrCmdIllegal v => Sys2Proof.Machine.execWrCmdIllegal v s
  | .wrStatus v => Sys2Proof.Machine.execWrStatus v s
  | .wrBlkdone v => Sys2Proof.Machine.execWrBlkdone v s
  | .wrNblk v => Sys2Proof.Machine.execWrNblk v s
  | .wrStateAddr v => Sys2Proof.Machine.execWrStateAddr v s
  | .wrSrcAddr v => Sys2Proof.Machine.execWrSrcAddr v s
  | .wrDstAddr v => Sys2Proof.Machine.execWrDstAddr v s
  | .wrSrcLen v => Sys2Proof.Machine.execWrSrcLen v s
  | .wrDstLen v => Sys2Proof.Machine.execWrDstLen v s
  | .rsvd28To2C write slot v => Sys2Proof.Machine.execRsvd28To2C write slot v s
  | .rsvd30To3C write slot v => Sys2Proof.Machine.execRsvd30To3C write slot v s

end Sys2Proof.Machine
end

