-- ==== Sys2Proof/Machine/CounterAdvance.lean ====
section
/-! DEFINITION. The 64-bit block counter (spec/42_counter_advance.md R93 to R95). -/

namespace Sys2Proof.Machine

/-- `ctr64(lo, hi)` (spec/00_scope.md R10). -/
def ctr64 (lo hi : Word) : Counter := hi ++ lo

/-- CTRREAD (R93): word 12 is the low half. -/
def counterOf (s : Words) : Counter := ctr64 s[12] s[13]

/-- The low half, word 12 (R10). -/
def counterLow (c : Counter) : Word := c.extractLsb' 0 32

/-- The high half, word 13 (R10). -/
def counterHigh (c : Counter) : Word := c.extractLsb' 32 32

/-- CTRADV (R94): the counter wraps silently (R96). -/
def counterAdvance (c : Counter) : Counter := c + 1

/-- The counter of lane `l` (R95). -/
def laneCounter (base : Counter) (l : Nat) : Counter := base + BitVec.ofNat 64 l

end Sys2Proof.Machine
end

