-- ==== Sys2Proof/Machine/RoundFunction.lean ====
section
/-! DEFINITION. The round function and the 20-round schedule (spec/40_round_function.md R73 to R81). -/

namespace Sys2Proof.Machine

/-- `rotl32(x, n)` for `0 < n < 32` (spec/00_scope.md R9). -/
def rotl32 (x : Word) (n : Nat) : Word := x <<< n ||| x >>> (32 - n)

/-- QR, the quarter-round (R73): four lines, in order. -/
def quarterRound (a b c d : Word) : Word × Word × Word × Word :=
  let a := a + b
  let d := rotl32 (d ^^^ a) 16
  let c := c + d
  let b := rotl32 (b ^^^ c) 12
  let a := a + b
  let d := rotl32 (d ^^^ a) 8
  let c := c + d
  let b := rotl32 (b ^^^ c) 7
  (a, b, c, d)

/-- QRs (R74): QR on four words of the array, written back to their places. -/
def quarterRoundAt (x : Words) (ia ib ic id : Fin 16) : Words :=
  match quarterRound x[ia] x[ib] x[ic] x[id] with
  | (a, b, c, d) => (((x.set ia a).set ib b).set ic c).set id d

/-- COLROUND (R75). -/
def columnRound (x : Words) : Words :=
  let x := quarterRoundAt x 0 4 8 12
  let x := quarterRoundAt x 1 5 9 13
  let x := quarterRoundAt x 2 6 10 14
  quarterRoundAt x 3 7 11 15

/-- DIAGROUND (R76), with the rows rotated toward lower columns (D7). -/
def diagonalRound (x : Words) : Words :=
  let x := quarterRoundAt x 0 5 10 15
  let x := quarterRoundAt x 1 6 11 12
  let x := quarterRoundAt x 2 7 8 13
  quarterRoundAt x 3 4 9 14

/-- DR (R77): one stage of the pipeline (R81). -/
def doubleRound (x : Words) : Words := diagonalRound (columnRound x)

/-- The output of `n` stages of the double-round pipeline (R81). -/
def pipeline : Nat → Words → Words
  | 0, x => x
  | n + 1, x => pipeline n (doubleRound x)

/-- ROUNDS (R78): exactly 10 double-rounds. -/
def rounds (x : Words) : Words := pipeline Config.doubleRounds x

end Sys2Proof.Machine
end

