-- ==== Sys2Proof/Machine/LaneBatch.lean ====
section
/-! DEFINITION. Lanes and the keystream block generator (spec/41_lane_batch.md R83 to R92). -/

namespace Sys2Proof.Machine

/-- LANEINIT (R83): the snapshot with the lane's own counter in words 12 and 13. -/
def laneInit (s : Words) (base : Counter) (l : Nat) : Words :=
  let c := laneCounter base l
  (s.set 12 (counterLow c)).set 13 (counterHigh c)

/-- FEEDFWD (R86): word-wise addition, no carry between words. -/
def feedForward (z y : Words) : Words := Vector.ofFn fun k : Fin 16 => z[k] + y[k]

/-- Byte `j` of a word, the least significant first. -/
def wordByte (w : Word) (j : Nat) : Byte := w.extractLsb' (8 * j) 8

/-- SERIALIZE (R87): byte `4k + j` is byte `j` of word `k`. -/
def serialize (o : Words) : Block :=
  Vector.ofFn fun i : Fin 64 => wordByte (o[i.val / 4]'(by omega)) (i.val % 4)

/-- BLOCK (R88). -/
def block (y : Words) : Block := serialize (feedForward (rounds y) y)

/-- The keystream block of lane `l` of a batch with base counter `base` (R85, R89). -/
def laneBlock (s : Words) (base : Counter) (l : Nat) : Block := block (laneInit s base l)

end Sys2Proof.Machine
end

