-- ==== Sys2Proof/Machine/XorEngine.lean ====
section
/-! DEFINITION. The XOR of input and keystream (spec/43_xor_engine.md R100). -/

namespace Sys2Proof.Machine

/-- One byte of XORBLK (R100), as a WR step computes it (spec/44_dispatcher.md R116). -/
def xorByte (input keystream : Byte) : Byte := input ^^^ keystream

/-- XORBLK (R100): the whole block, for statements about a command's output. -/
def xorBlock (input keystream : Block) : Block := Vector.ofFn fun i : Fin 64 => xorByte input[i] keystream[i]

end Sys2Proof.Machine
end

