-- ==== Sys2Proof/Machine/Sequencer.lean ====
section
/-! DEFINITION. CORE's own steps, one per PHASE (spec/44_dispatcher.md R113 to R119, spec/10_state.md R30). A step whose
bus access faults does BUSFAULT instead (R127). -/

namespace Sys2Proof.Machine

/-! ### The address each access uses (R53, R103): unbounded, as no sum passes 2^32 in a command (R51) -/

/-- LOAD: `STATE_ADDR + 4 * IDX`. -/
def loadAddr (s : State) : Nat := s.regs.STATE_ADDR.toNat + 4 * s.seq.IDX.val

/-- RD: `SRC_ADDR + CUR + IDX`. -/
def readAddr (s : State) : Nat := s.regs.SRC_ADDR.toNat + s.seq.CUR.toNat + s.seq.IDX.val

/-- WR: `DST_ADDR + CUR + IDX`. -/
def writeAddr (s : State) : Nat := s.regs.DST_ADDR.toNat + s.seq.CUR.toNat + s.seq.IDX.val

/-- WB: `STATE_ADDR + 48` for the first word, `STATE_ADDR + 52` for the second. -/
def writeBackAddr (s : State) : Nat := s.regs.STATE_ADDR.toNat + (if s.seq.IDX = 0 then 48 else 52)

/-- The bus access CORE's next step makes, if it makes one (R53). -/
def nextAccess (s : State) : Option BusAccess :=
  match s.seq.PHASE with
  | .load => some ⟨loadAddr s, .word, .read⟩
  | .rd => some ⟨readAddr s, .byte, .read⟩
  | .wr => some ⟨writeAddr s, .byte, .write⟩
  | .wb => some ⟨writeBackAddr s, .word, .write⟩
  | .idle | .gen | .fin => none

/-! ### LOAD (R113) -/

/-- The sequencer after word IDX was read. -/
def loaded (v : Word) (q : Sequencer) : Sequencer :=
  let words := q.S.setIfInBounds q.IDX.val v
  if q.IDX = 15 then { q with S := words, CTR := counterOf words, IDX := 0, PHASE := .gen }
  else { q with S := words, IDX := q.IDX + 1 }

/-- LOAD step (R113). IDX above 15 is outside the rule (assumption log, entry 16). -/
def loadStep (s : State) : Host.Outcome State Fault Refusal :=
  if 16 ≤ s.seq.IDX.val then .fault .loadIndexOutOfRange
  else (memRead (loadAddr s) .word s).resume (takeBusFault s) fun (v, t) => { t with seq := loaded v t.seq }

/-! ### GEN (R114) -/

/-- The number of lanes. -/
def LaneCount.lanes : LaneCount → Nat
  | .zero => 0
  | .one => 1
  | .two => 2
  | .four => 4

/-- Tier selection, 4 then 2 then 1 (R114). -/
def chooseTier (rem : Word) : LaneCount :=
  if 4 ≤ rem.toNat then .four else if 2 ≤ rem.toNat then .two else .one

/-- KS with the keystream blocks of the active lanes; the others keep what they hold (R92). -/
def generate (q : Sequencer) (n : LaneCount) : Vector Block 4 :=
  Vector.ofFn fun l : Fin 4 => if l.val < n.lanes then laneBlock q.S q.CTR l.val else q.KS[l]

/-- X with every word 0: what the pipeline leaves (R31, R114). -/
def clearedLanes : Vector Words 4 := Vector.replicate 4 (Vector.replicate 16 0)

/-- The sequencer after GEN. -/
def generated (q : Sequencer) : Sequencer :=
  let n := chooseTier q.REM
  { q with N := n, KS := generate q n, X := clearedLanes, LI := 0, IDX := 0, PHASE := .rd }

/-- GEN step (R114): no bus access. -/
def genStep (s : State) : Host.Outcome State Fault Refusal := .next { s with seq := generated s.seq }

/-! ### RD (R115) -/

/-- The sequencer after input byte IDX was read. -/
def inputRead (b : Byte) (q : Sequencer) : Sequencer :=
  let bytes := q.IN.set q.IDX.val b
  if q.IDX = 63 then { q with IN := bytes, IDX := 0, PHASE := .wr }
  else { q with IN := bytes, IDX := q.IDX + 1 }

/-- RD step (R115). -/
def rdStep (s : State) : Host.Outcome State Fault Refusal :=
  (memRead (readAddr s) .byte s).resume (takeBusFault s) fun (v, t) =>
    { t with seq := inputRead (v.setWidth 8) t.seq }

/-! ### WR and BLOCKDONE (R116, R117) -/

/-- The sequencer's part of BLOCKDONE (R117). -/
def blockConsumed (q : Sequencer) : Sequencer :=
  let left := q.REM - 1
  let p := { q with
    CTR := counterAdvance q.CTR, CUR := q.CUR + 64, REM := left
    IN := Vector.replicate 64 0, KS := q.KS.set q.LI.val (Vector.replicate 64 0), IDX := 0 }
  if q.LI.val + 1 < q.N.lanes then { p with LI := q.LI + 1, PHASE := .rd }
  else if left ≠ 0 then { p with N := .zero, LI := 0, PHASE := .gen }
  else { p with N := .zero, LI := 0, PHASE := .wb }

/-- BLOCKDONE (R117). -/
def blockDone (s : State) : State :=
  { s with regs := { s.regs with BLKDONE := s.regs.BLKDONE + 1 }, seq := blockConsumed s.seq }

/-- The byte a WR step writes (R116). -/
def outputByte (q : Sequencer) : Byte := xorByte q.IN[q.IDX.val] (q.KS[q.LI.val])[q.IDX.val]

/-- The state after output byte IDX was written. -/
def outputWritten (s : State) : State :=
  if s.seq.IDX = 63 then blockDone s else { s with seq := { s.seq with IDX := s.seq.IDX + 1 } }

/-- WR step (R116). -/
def wrStep (s : State) : Host.Outcome State Fault Refusal :=
  (memWrite (writeAddr s) .byte ((outputByte s.seq).setWidth 32) s).resume (takeBusFault s) outputWritten

/-! ### WB (R118) -/

/-- The word a WB step writes. -/
def writeBackWord (q : Sequencer) : Word := if q.IDX = 0 then counterLow q.CTR else counterHigh q.CTR

/-- The state after one word of the counter was written. -/
def counterWritten (s : State) : State :=
  if s.seq.IDX = 0 then { s with seq := { s.seq with IDX := 1 } }
  else { s with seq := { s.seq with IDX := 0, PHASE := .fin } }

/-- WB step (R118). -/
def wbStep (s : State) : Host.Outcome State Fault Refusal :=
  (memWrite (writeBackAddr s) .word (writeBackWord s.seq) s).resume (takeBusFault s) counterWritten

/-! ### FIN (R119) -/

/-- FIN step (R119): every scratch element and every index 0, BUSY 0, DONE 1; ERR, ERRCODE and IGN as they are. -/
def finish (s : State) : State :=
  let t := mapStatus (fun t => { t with BUSY := false, DONE := true }) s
  { t with seq := Sequencer.reset }

def finStep (s : State) : Host.Outcome State Fault Refusal := .next (finish s)

/-! ### One step of CORE -/

/-- CORE's step for its PHASE (R30). In IDLE it takes none: the state stays (assumption log, entry 2). -/
def coreStep (s : State) : Host.Outcome State Fault Refusal :=
  match s.seq.PHASE with
  | .idle => .next s
  | .load => loadStep s
  | .gen => genStep s
  | .rd => rdStep s
  | .wr => wrStep s
  | .wb => wbStep s
  | .fin => finStep s

end Sys2Proof.Machine
end

