-- ==== Sys2Proof/Machine/Agents.lean ====
section
/-! DEFINITION. The turns of HOST, of the reset input and of CORE (spec/10_state.md R13, R15, spec/20_memory.md R45, R58,
spec/70_reset_and_hazards.md R144). -/

namespace Sys2Proof.Machine

/-- How the machine stops on an HA word that names no register access (R15, R63). -/
def decodeRefusal : DecodeError → Refusal
  | .offsetNotAligned => .hostNonWord
  | .offsetOutsideWindow => .offsetOutsideWindow

/-- One host access to the window given by its HA word (R15): the decoded instruction's effect. DESIGN CHOICE (assumption
log, entry 23): the word stands for an access that has reached CORE, so BUS_FAULT is not asked here; the spec does not say
whether it applies to such a description (R55, spec/30_encoding.md R63). An access that can fault on its way is the turn
`bus`. -/
def hostAccess (ha : HaWord) (s : State) : Host.Outcome State Fault Refusal :=
  match decode ha with
  | .ok i => exec i s
  | .error e => .refused (decodeRefusal e)

/-- Some of the `n` bytes at `a` lie in CORE's window. -/
def touchesWindow (p : Platform) (a n : Nat) : Bool :=
  a < p.coreBase.toNat + Config.windowBytes && p.coreBase.toNat < a + n

/-- What a faulting bus access of the host leaves: a read returns no value, a write changes nothing (R55; assumption log,
entry 15). -/
def hostBusFault (m : BusMove) (s : State) : State :=
  match m.kind with
  | .read => { s with rdata := none }
  | .write => s

/-- A bus access that touches CORE's window (R15, R45). HOST_NONWORD comes first: what is not a 32-bit access at an offset
that is a multiple of 4 is refused, whatever BUS_FAULT says of it (assumption log, entry 9). A register access that faults
does not reach CORE (R55; assumption log, entry 15). -/
def hostRegisterAccess (m : BusMove) (s : State) : Host.Outcome State Fault Refusal :=
  let offset := m.addr.toNat - s.platform.coreBase.toNat
  if m.width = .word ∧ s.platform.coreBase.toNat ≤ m.addr.toNat ∧ offset % 4 = 0 then
    if s.platform.busFault ⟨m.addr.toNat, m.width, m.kind⟩ then .next (hostBusFault m s)
    else
      match m.kind with
      | .read => hostAccess (haWord false (BitVec.ofNat 8 offset) 0) s
      | .write => hostAccess (haWord true (BitVec.ofNat 8 offset) m.data) s
  else .refused .hostNonWord

/-- A bus access of the host to memory (R13, R58; assumption log, entries 14 and 15). -/
def hostMemoryAccess (m : BusMove) (s : State) : Host.Outcome State Fault Refusal :=
  match m.kind with
  | .read => (memRead m.addr.toNat m.width s).resume (hostBusFault m s) fun (v, t) => replyRead v t
  | .write => (memWrite m.addr.toNat m.width m.data s).resume (hostBusFault m s) id

/-- A bus access of the host at an address. -/
def hostBus (m : BusMove) (s : State) : Host.Outcome State Fault Refusal :=
  if touchesWindow s.platform m.addr.toNat m.width.bytes then hostRegisterAccess m s else hostMemoryAccess m s

/-- One turn. BUS_FAULT is asked of a turn `bus` and of CORE's accesses, not of a turn `access`: the model's choice
(assumption log, entry 23). -/
def takeTurn (t : Turn) (s : State) : Host.Outcome State Fault Refusal :=
  match t with
  | .core => coreStep s
  | .access ha => hostAccess ha s
  | .bus m => hostBus m s
  | .reset => .next (applyReset s)

/-- The turn that is due, taken: the first listed one, or CORE's when none is listed (R58, R159). -/
def takeNextTurn (s : State) : Host.Outcome State Fault Refusal :=
  match s.turns with
  | [] => coreStep s
  | t :: rest => takeTurn t { s with turns := rest }

end Sys2Proof.Machine
end

