-- ==== Sys2Proof/Machine/Step.lean ====
section
/-! DEFINITION. One step of the machine, and where an instruction stands for it. -/

namespace Sys2Proof.Machine

/-- One event of the total order (spec/20_memory.md R58). -/
def step (s : State) : Host.Outcome State Fault Refusal := takeNextTurn s

/-- The state with the HA word `w` as the very next turn: CORE fetches nothing (R62), the host supplies its accesses
(assumption log, entry 3). -/
def State.withFetchWord (s : State) (nbits w : Nat) : State :=
  { s with turns := .access (BitVec.ofNat 41 (w % 2 ^ nbits)) :: s.turns }

end Sys2Proof.Machine
end

