-- ==== Sys2Proof/Safety.lean ====
section
/-! DEFINITION. The terms in which claims speak of a run: the invariant of the machine, the keystream and the result of a
command, its launch premises, and what two states share that differ only in secrets. -/

namespace Sys2Proof.Machine

/-! ### Memory as the spec reads it -/

/-- The 32-bit little-endian word at an address (spec/20_memory.md R47, R49). -/
def Memory.word (m : Memory) (a : Nat) : Word :=
  leValue [m.read a, m.read (a + 1), m.read (a + 2), m.read (a + 3)]

/-- The CipherState in memory (R47): what LOAD reads. -/
def snapshot (s : State) : Words :=
  Vector.ofFn fun k : Fin 16 => s.mem.word (s.regs.STATE_ADDR.toNat + 4 * k.val)

/-- The address lies in the window. -/
def Window.Contains (w : Window) (a : Nat) : Prop := w.base ≤ a ∧ a < w.base + w.length

/-- Bytes 48 to 55 of the CipherState: words 12 and 13 (R47). -/
def counterWindow (r : Regs) : Window := ⟨r.STATE_ADDR.toNat + 48, 8⟩

/-! ### The keystream of a command -/

/-- `KSB(j)` (spec/41_lane_batch.md R89) for the snapshot `S`. -/
def keystream (S : Words) (j : Nat) : Block := laneBlock S (counterOf S + BitVec.ofNat 64 j) 0

/-- The number `G` of batches of a command of `M` blocks (spec/44_dispatcher.md R123). -/
def batches (M : Nat) : Nat := M / 4 + (if 2 ≤ M % 4 then 1 else 0) + M % 2

/-- The number of CORE steps of a successful command of `M > 0` blocks (R123). -/
def commandSteps (M : Nat) : Nat := 16 + batches M + 128 * M + 3

/-! ### The invariant -/

/-- Memory is in its canonical form and lists no address outside the address space (R45). -/
structure MemoryInv (m : Memory) : Prop where
  canonical : Memory.wf m = true
  inSpace : ∀ c ∈ m, c.1 < Config.addressSpace

/-- What STATUS says in every state (spec/10_state.md R18, R30; R19 with R127, assumption log, entry 13). -/
structure StatusInv (s : State) : Prop where
  /-- R30. -/
  busy_iff : s.regs.STATUS.BUSY = true ↔ s.seq.PHASE ≠ .idle
  /-- R18: ERRCODE is 0x0 when ERR = 0, and a recorded error has a code. -/
  err_iff : s.regs.STATUS.ERR = true ↔ s.regs.STATUS.ERRCODE ≠ .none
  /-- R19: DONE is 0 while BUSY. -/
  not_done : s.regs.STATUS.BUSY = true → s.regs.STATUS.DONE = false
  /-- R19 with R127: ERR is 0 while BUSY, but for the step between a bus fault and FIN. -/
  no_error : s.regs.STATUS.BUSY = true → s.seq.PHASE ≠ .fin → s.regs.STATUS.ERR = false

/-- Every scratch element is 0 (R33). -/
def Sequencer.ScratchClear (q : Sequencer) : Prop :=
  q.S = Sequencer.reset.S ∧ q.CTR = 0 ∧ q.IN = Sequencer.reset.IN ∧ q.KS = Sequencer.reset.KS ∧
    q.X = Sequencer.reset.X

/-- The relations of a running command (R35) and the ranges of its indices (R113 to R118). -/
structure CommandInv (s : State) : Prop where
  /-- The command passed CHECK and its registers have not changed since (R112, R26). -/
  checked : check s.regs = .none
  /-- R35: REM + BLKDONE = M, without wrap. -/
  remaining : s.seq.REM.toNat + s.regs.BLKDONE.toNat = blockCount s.regs
  /-- R35: CUR = 64 * BLKDONE, without wrap. -/
  cursor : s.seq.CUR.toNat = 64 * s.regs.BLKDONE.toNat
  /-- R35: CTR = C0 + BLKDONE modulo 2^64, once LOAD has completed. -/
  counter : s.seq.PHASE = .gen ∨ s.seq.PHASE = .rd ∨ s.seq.PHASE = .wr ∨ s.seq.PHASE = .wb →
    s.seq.CTR = counterOf s.seq.S + BitVec.ofNat 64 s.regs.BLKDONE.toNat
  /-- R113: IDX is 0 to 15 in LOAD, no block has been processed, and there is one to process (R111). -/
  loading : s.seq.PHASE = .load → s.seq.IDX.val < 16 ∧ s.regs.BLKDONE = 0 ∧ s.seq.REM ≠ 0
  /-- R114: a batch starts with blocks remaining. -/
  batchStart : s.seq.PHASE = .gen → s.seq.REM ≠ 0 ∧ s.seq.IDX = 0
  /-- R29, R117: outside a batch N and LI are 0. -/
  outsideBatch : s.seq.PHASE = .load ∨ s.seq.PHASE = .gen ∨ s.seq.PHASE = .wb → s.seq.N = .zero ∧ s.seq.LI = 0
  /-- R35: LI < N and N ≤ REM + LI in RD and WR. -/
  lanes : s.seq.PHASE = .rd ∨ s.seq.PHASE = .wr →
    s.seq.LI.val < s.seq.N.lanes ∧ s.seq.N.lanes ≤ s.seq.REM.toNat + s.seq.LI.val
  /-- R118: IDX is 0 or 1 in WB, and no block remains. -/
  writingBack : s.seq.PHASE = .wb → s.seq.IDX.val < 2 ∧ s.seq.REM = 0

/-- The keystream held while a batch is consumed (R89, R91, R117): lanes not yet consumed hold the block of their counter,
every other lane is 0 (R92). -/
def KeystreamInv (s : State) : Prop :=
  s.seq.PHASE = .rd ∨ s.seq.PHASE = .wr →
    ∀ l : Fin 4, s.seq.KS[l] =
      if s.seq.LI ≤ l ∧ l.val < s.seq.N.lanes
      then keystream s.seq.S (s.regs.BLKDONE.toNat + (l.val - s.seq.LI.val))
      else Vector.replicate 64 0

/-- Where no block is in flight, the block buffers and the pipeline are 0 (R31, R33, R117); outside RD and WR so is KS. -/
structure HygieneInv (s : State) : Prop where
  idle : s.seq.PHASE = .idle → s.seq = Sequencer.reset
  pipeline : s.seq.X = clearedLanes
  buffers : s.seq.PHASE = .load ∨ s.seq.PHASE = .gen ∨ s.seq.PHASE = .wb →
    s.seq.IN = Sequencer.reset.IN ∧ s.seq.KS = Sequencer.reset.KS

/-- The invariant of the machine. -/
structure MachineInv (s : State) : Prop where
  memory : MemoryInv s.mem
  status : StatusInv s
  hygiene : HygieneInv s
  command : s.regs.STATUS.BUSY = true → CommandInv s
  keystream : KeystreamInv s

/-! ### Launch premises (spec/70_reset_and_hazards.md R162) -/

/-- No access of the command faults (R162 premise 3; the accesses of spec/20_memory.md R53). -/
structure FaultFree (s : State) : Prop where
  load : ∀ k < 16, s.platform.busFault ⟨s.regs.STATE_ADDR.toNat + 4 * k, .word, .read⟩ = false
  input : ∀ i < bufferLength s.regs, s.platform.busFault ⟨s.regs.SRC_ADDR.toNat + i, .byte, .read⟩ = false
  output : ∀ i < bufferLength s.regs, s.platform.busFault ⟨s.regs.DST_ADDR.toNat + i, .byte, .write⟩ = false
  counterLow : s.platform.busFault ⟨s.regs.STATE_ADDR.toNat + 48, .word, .write⟩ = false
  counterHigh : s.platform.busFault ⟨s.regs.STATE_ADDR.toNat + 52, .word, .write⟩ = false

/-- The address lies in WS, WI or WO. -/
abbrev InWindows (r : Regs) (a : Nat) : Prop :=
  (stateWindow r).Contains a ∨ (inputWindow r).Contains a ∨ (outputWindow r).Contains a

/-- Every byte of the three windows is ordinary memory (R56). -/
def Ordinary (s : State) : Prop := ∀ a, InWindows s.regs a → s.platform.isDevice a = false

/-- The turns taken while CORE takes `n` steps: those listed, up to and with CORE's `n`-th turn, then CORE's own (R58, R159;
assumption log, entry 1). The last of them is CORE's. -/
def commandTurns : List Turn → Nat → List Turn
  | _, 0 => []
  | [], n + 1 => List.replicate (n + 1) .core
  | .core :: rest, n + 1 => .core :: commandTurns rest n
  | .access ha :: rest, n + 1 => .access ha :: commandTurns rest (n + 1)
  | .bus m :: rest, n + 1 => .bus m :: commandTurns rest (n + 1)
  | .reset :: rest, n + 1 => .reset :: commandTurns rest (n + 1)

/-- The bus access is a 32-bit access to the window at an offset that is a multiple of 4 (spec/10_state.md R15). -/
def BusMove.isRegister (p : Platform) (m : BusMove) : Bool :=
  m.width == .word && p.inWindow m.addr.toNat && (m.addr.toNat - p.coreBase.toNat) % 4 == 0

/-- The HA word of such an access (spec/30_encoding.md R63). -/
def BusMove.word (p : Platform) (m : BusMove) : HaWord :=
  haWord (m.kind == .write) (BitVec.ofNat 8 (m.addr.toNat - p.coreBase.toNat)) (if m.kind = .write then m.data else 0)

/-- The instruction a turn of the host runs, if it is a register access that reaches CORE. -/
def Turn.instr (p : Platform) : Turn → Option Instr
  | .core | .reset => none
  | .access ha => (decode ha).toOption
  | .bus m =>
    if m.isRegister p && !p.busFault ⟨m.addr.toNat, m.width, m.kind⟩ then (decode (m.word p)).toOption else none

/-- The turn is no reset and has an effect in the model: not a refused or undefined move that R161 tells the host not to make
(a register access that is not a whole register, a write to a device), nor an access that leaves the address space. -/
def Turn.completes (p : Platform) : Turn → Bool
  | .core => true
  | .reset => false
  | .access ha => (decode ha).toOption.isSome
  | .bus m =>
    m.isRegister p ||
      !touchesWindow p m.addr.toNat m.width.bytes && decide (m.addr.toNat + m.width.bytes ≤ Config.addressSpace) &&
        (m.kind == .read || p.busFault ⟨m.addr.toNat, m.width, m.kind⟩ || !touchesDevice p m.width.bytes m.addr.toNat)

/-- The turn is a bus write of the host that stores a byte at `a`; one that faults stores nothing (R55). -/
def Turn.stores (p : Platform) (a : Nat) : Turn → Bool
  | .core | .reset | .access _ => false
  | .bus m =>
    m.kind == .write && decide (m.addr.toNat ≤ a) && decide (a < m.addr.toNat + m.width.bytes) &&
      !p.busFault ⟨m.addr.toNat, m.width, m.kind⟩

/-- The launch premises of R162 in the state before the START of a command of at least one block. `rest` lists the turns after
it. Premise 1 is `inv` with `idle`, premise 2 is `checked` with `blocks`, premise 3 is `faultFree`, premise 4 is `handsOff`:
until the command has ended (R160) the host may take any turn that stores no byte of WS, WI or WO (R150, R161). Premise 5 needs
no clause: memory is any. `ordinary` is R56's premise and `completes` R161's. -/
structure Launch (s : State) (rest : List Turn) : Prop where
  inv : MachineInv s
  idle : s.seq.PHASE = .idle
  start : s.turns = .access (encode .wrCmdStart) :: rest
  checked : check s.regs = .none
  blocks : blockCount s.regs ≠ 0
  faultFree : FaultFree s
  ordinary : Ordinary s
  completes : ∀ u ∈ commandTurns rest (commandSteps (blockCount s.regs)), u.completes s.platform = true
  handsOff : ∀ u ∈ commandTurns rest (commandSteps (blockCount s.regs)), ∀ a, InWindows s.regs a →
    u.stores s.platform a = false

/-- CTRL after a turn of the host while BUSY (spec/10_state.md R16). -/
def ctrlAfter (p : Platform) (c : Ctrl) (u : Turn) : Ctrl :=
  match u.instr p with
  | some (.wrCtrl v) => ⟨v.getLsbD 0⟩
  | _ => c

/-- IGN after a turn of the host while BUSY: a CMD write sets it, a STATUS write with bit 3 clears it (spec/10_state.md R19,
spec/44_dispatcher.md R110). -/
def ignAfter (p : Platform) (ign : Bool) (u : Turn) : Bool :=
  match u.instr p with
  | some .wrCmdNop | some .wrCmdStart | some (.wrCmdIllegal _) => true
  | some (.wrStatus v) => ign && !v.getLsbD 3
  | _ => ign

/-- The output window does not start inside the input window above its start: the cases of spec/43_xor_engine.md R104 that
give the separate-buffers result. -/
def NoForwardOverlap (r : Regs) : Prop :=
  r.DST_ADDR.toNat ≤ r.SRC_ADDR.toNat ∨ r.SRC_ADDR.toNat + bufferLength r ≤ r.DST_ADDR.toNat

/-! ### What may depend on secrets -/

/-- Two states that agree on all that the sequence of steps, of accesses and of STATUS may depend on (R124): everything but
S, CTR, IN, KS, X, the contents of memory and the last value read. -/
structure SameControl (s t : State) : Prop where
  regs : s.regs = t.regs
  platform : s.platform = t.platform
  turns : s.turns = t.turns
  draws : s.draws = t.draws
  phase : s.seq.PHASE = t.seq.PHASE
  rem : s.seq.REM = t.seq.REM
  cur : s.seq.CUR = t.seq.CUR
  lanes : s.seq.N = t.seq.N
  lane : s.seq.LI = t.seq.LI
  index : s.seq.IDX = t.seq.IDX

/-- Two outcomes that nobody can tell apart by control: both next with states that agree so, or the same stop. -/
def SameOutcome : Host.Outcome State Fault Refusal → Host.Outcome State Fault Refusal → Prop
  | .next s, .next t => SameControl s t
  | .fault f, .fault g => f = g
  | .refused r, .refused q => r = q
  | _, _ => False

end Sys2Proof.Machine
end

