-- ==== Sys2Proof/Certificates/Slice0/Obligations.lean ====
section
/-! DEFINITION. The statements for the provers. Rule numbers are those of spec/; "entry <n>" is a row of the assumption log.
Each statement about an instruction says its whole next state, so that what is not named is unchanged: the registers not
named, the internal state, every byte of memory. -/

open Sys2Proof Sys2Proof.Machine

/-! ### Decoding -/

/-- A turn that lists an HA word runs exactly the decoded instruction in the state that no longer lists it; a word that does
not decode is refused by name (R63, R64). That BUS_FAULT is not asked of an HA word is the model's choice, entry 23. -/
def Obligations.StepRunsDecodedInstruction : Prop :=
  ∀ (s : State) (ha : HaWord) (rest : List Turn), s.turns = .access ha :: rest →
    (∀ i, decode ha = .ok i → step s = exec i { s with turns := rest }) ∧
    (decode ha = .error .offsetNotAligned → step s = .refused .hostNonWord) ∧
    (decode ha = .error .offsetOutsideWindow → step s = .refused .offsetOutsideWindow)

/-- A listed turn of CORE is CORE's step in the state that no longer lists it, and CORE moves when no turn is listed (R13, R58,
R159). That the order of the agents stands as a list is the model's choice, entry 1. -/
def Obligations.StepTakesCoresTurn : Prop :=
  ∀ s : State,
    (∀ rest, s.turns = .core :: rest → step s = coreStep { s with turns := rest }) ∧
    (s.turns = [] → step s = coreStep s)

/-- Words written out from R63, R72 and spec/95_test_vectors.md section 2.6 decode to the instruction they stand for. -/
def Obligations.SpecWordsDecode : Prop :=
  decode 0x00800000000 = .ok .rdStatus ∧ decode 0x10400000000 = .ok .wrCmdNop ∧
    decode 0x10400000001 = .ok .wrCmdStart ∧ decode 0x10480000001 = .ok (.wrCmdIllegal 0x80000001) ∧
    decode 0x10C00001234 = .ok (.wrBlkdone 0x1234) ∧ decode 0x114FFFFFFC4 = .ok (.wrStateAddr 0xFFFFFFC4) ∧
    decode 0x12800000005 = .ok (.rsvd28To2C true 0 5) ∧ decode 0x03C00000000 = .ok (.rsvd30To3C false 3 0)

/-- Decode and encode agree: every well-formed instruction, with every operand, is read back from its word. -/
def Obligations.DecodeReadsEncodedInstruction : Prop :=
  ∀ i : Instr, i.wellFormed = true → decode (encode i) = .ok i

/-- The other direction: a decoded word is well formed and has the W and OFF of its instruction, and a write's whole word is
the instruction's (the DATA of a read is no operand, entry 10). -/
def Obligations.DecodedWordIsTheInstructions : Prop :=
  ∀ (w : HaWord) (i : Instr), decode w = .ok i →
    i.wellFormed = true ∧ haWrite w = i.isWrite ∧ haOffset w = i.offset ∧ (haWrite w = true → encode i = w)

/-- A CMD word is legal exactly when RSVD is 0 and OP is 0x0 or 0x1; every other one is an illegal command (R67). -/
def Obligations.CommandWordLegalExactly : Prop :=
  ∀ v : Word,
    (decode (haWord true 0x04 v) = .ok .wrCmdNop ↔ v.extractLsb' 4 28 = 0 ∧ v.extractLsb' 0 4 = 0x0) ∧
    (decode (haWord true 0x04 v) = .ok .wrCmdStart ↔ v.extractLsb' 4 28 = 0 ∧ v.extractLsb' 0 4 = 0x1) ∧
    (decode (haWord true 0x04 v) = .ok (.wrCmdIllegal v) ↔
      v.extractLsb' 4 28 ≠ 0 ∨ (v.extractLsb' 0 4 ≠ 0x0 ∧ v.extractLsb' 0 4 ≠ 0x1))

/-! ### Reads and plain writes of the window -/

/-- The reads of CMD, BLKDONE and the configuration registers return the register's value (CMD: 0) and change nothing but the
value the host has read, in every state, also while BUSY (R15, R17, R20 to R26). -/
def Obligations.RegisterReadsReturnTheValue : Prop :=
  ∀ s : State,
    exec .rdCmd s = .next { s with rdata := some 0 } ∧
    exec .rdBlkdone s = .next { s with rdata := some s.regs.BLKDONE } ∧
    exec .rdNblk s = .next { s with rdata := some s.regs.NBLK } ∧
    exec .rdStateAddr s = .next { s with rdata := some s.regs.STATE_ADDR } ∧
    exec .rdSrcAddr s = .next { s with rdata := some s.regs.SRC_ADDR } ∧
    exec .rdDstAddr s = .next { s with rdata := some s.regs.DST_ADDR } ∧
    exec .rdSrcLen s = .next { s with rdata := some s.regs.SRC_LEN } ∧
    exec .rdDstLen s = .next { s with rdata := some s.regs.DST_LEN }

/-- The words a read of CTRL and of STATUS returns, bit by bit (R16, R18), with the codes of R129. -/
def Obligations.ControlAndStatusWords : Prop :=
  ∀ s : State,
    (∃ v : Word, exec .rdCtrl s = .next { s with rdata := some v } ∧ v.getLsbD 0 = s.regs.CTRL.IE ∧
      ∀ i, 1 ≤ i → v.getLsbD i = false) ∧
    (∃ v : Word, exec .rdStatus s = .next { s with rdata := some v } ∧
      v.getLsbD 0 = s.regs.STATUS.BUSY ∧ v.getLsbD 1 = s.regs.STATUS.DONE ∧
      v.getLsbD 2 = s.regs.STATUS.ERR ∧ v.getLsbD 3 = s.regs.STATUS.IGN ∧
      (∀ i, 4 ≤ i ∧ i < 8 ∨ 12 ≤ i → v.getLsbD i = false) ∧
      (s.regs.STATUS.ERRCODE = .none → v.extractLsb' 8 4 = 0x0) ∧
      (s.regs.STATUS.ERRCODE = .illegalCmd → v.extractLsb' 8 4 = 0x1) ∧
      (s.regs.STATUS.ERRCODE = .len → v.extractLsb' 8 4 = 0x2) ∧
      (s.regs.STATUS.ERRCODE = .stateAlign → v.extractLsb' 8 4 = 0x3) ∧
      (s.regs.STATUS.ERRCODE = .range → v.extractLsb' 8 4 = 0x4) ∧
      (s.regs.STATUS.ERRCODE = .aliasing → v.extractLsb' 8 4 = 0x5) ∧
      (s.regs.STATUS.ERRCODE = .bus → v.extractLsb' 8 4 = 0x6))

/-- A write to CTRL sets IE to bit 0 of the value, at any time, and nothing else; CTRL then reads as that bit alone (R16). -/
def Obligations.ControlWriteSetsEnable : Prop :=
  ∀ (s : State) (v : Word),
    exec (.wrCtrl v) s = .next { s with regs := { s.regs with CTRL := ⟨v.getLsbD 0⟩ } } ∧
    Ctrl.toWord ⟨v.getLsbD 0⟩ = v &&& 1

/-- A write to STATUS, at any time, clears in the word STATUS reads as: bit 1 if bit 1 of the value is 1, bits 2 and 11:8 if
bit 2 is 1, bit 3 if bit 3 is 1; no other bit of STATUS and nothing else changes (the pseudocode of R19). -/
def Obligations.StatusWriteClearsOnes : Prop :=
  ∀ (s : State) (v : Word), ∃ u : Status,
    exec (.wrStatus v) s = .next { s with regs := { s.regs with STATUS := u } } ∧
    u.toWord = s.regs.STATUS.toWord &&&
      ~~~((if v.getLsbD 1 then 0x002 else 0) ||| (if v.getLsbD 2 then 0xF04 else 0) |||
        (if v.getLsbD 3 then 0x008 else 0))

/-- A write to BLKDONE or to a reserved offset changes nothing, a read of a reserved offset returns 0 (R15, R20). -/
def Obligations.IgnoredWritesAndReservedReads : Prop :=
  ∀ (s : State) (v : Word) (b : BitVec 1) (c : BitVec 2),
    exec (.wrBlkdone v) s = .next s ∧
    exec (.rsvd28To2C true b v) s = .next s ∧ exec (.rsvd30To3C true c v) s = .next s ∧
    exec (.rsvd28To2C false b v) s = .next { s with rdata := some 0 } ∧
    exec (.rsvd30To3C false c v) s = .next { s with rdata := some 0 }

/-- While BUSY = 0 a write to a configuration register stores the value there, any value, and changes nothing else (R21 to
R25). -/
def Obligations.ConfigurationWritesWhileIdle : Prop :=
  ∀ (s : State) (v : Word), s.regs.STATUS.BUSY = false →
    exec (.wrNblk v) s = .next { s with regs := { s.regs with NBLK := v } } ∧
    exec (.wrStateAddr v) s = .next { s with regs := { s.regs with STATE_ADDR := v } } ∧
    exec (.wrSrcAddr v) s = .next { s with regs := { s.regs with SRC_ADDR := v } } ∧
    exec (.wrDstAddr v) s = .next { s with regs := { s.regs with DST_ADDR := v } } ∧
    exec (.wrSrcLen v) s = .next { s with regs := { s.regs with SRC_LEN := v } } ∧
    exec (.wrDstLen v) s = .next { s with regs := { s.regs with DST_LEN := v } }

/-- While BUSY = 1 such a write changes nothing at all, and a read returns the current value (R26). -/
def Obligations.ConfigurationWritesWhileBusy : Prop :=
  ∀ (s : State) (v : Word), s.regs.STATUS.BUSY = true →
    exec (.wrNblk v) s = .next s ∧ exec (.wrStateAddr v) s = .next s ∧ exec (.wrSrcAddr v) s = .next s ∧
    exec (.wrDstAddr v) s = .next s ∧ exec (.wrSrcLen v) s = .next s ∧ exec (.wrDstLen v) s = .next s ∧
    exec .rdNblk s = .next { s with rdata := some s.regs.NBLK } ∧
    exec .rdStateAddr s = .next { s with rdata := some s.regs.STATE_ADDR } ∧
    exec .rdSrcAddr s = .next { s with rdata := some s.regs.SRC_ADDR } ∧
    exec .rdDstAddr s = .next { s with rdata := some s.regs.DST_ADDR } ∧
    exec .rdSrcLen s = .next { s with rdata := some s.regs.SRC_LEN } ∧
    exec .rdDstLen s = .next { s with rdata := some s.regs.DST_LEN }

/-- So no step but a reset changes a configuration register of a running command, whoever takes it (R26, R149). -/
def Obligations.ConfigurationStableWhileBusy : Prop :=
  ∀ s t : State, s.regs.STATUS.BUSY = true → s.turns.head? ≠ some .reset → step s = .next t →
    t.regs.NBLK = s.regs.NBLK ∧ t.regs.STATE_ADDR = s.regs.STATE_ADDR ∧ t.regs.SRC_ADDR = s.regs.SRC_ADDR ∧
    t.regs.DST_ADDR = s.regs.DST_ADDR ∧ t.regs.SRC_LEN = s.regs.SRC_LEN ∧ t.regs.DST_LEN = s.regs.DST_LEN

/-- The interrupt output is the conjunction of CTRL bit 0 and STATUS bit 1 as the host reads them (R28). -/
def Obligations.InterruptIsEnableAndDone : Prop :=
  ∀ s : State, irq s = (s.regs.CTRL.toWord.getLsbD 0 && s.regs.STATUS.toWord.getLsbD 1)

/-! ### Commands -/

/-- NOP while idle changes nothing (R108). -/
def Obligations.NopWhileIdle : Prop :=
  ∀ s : State, s.regs.STATUS.BUSY = false → exec .wrCmdNop s = .next s

/-- Every CMD write while BUSY, whatever its word, sets IGN and changes nothing else (R110). -/
def Obligations.CommandWhileBusyIsIgnored : Prop :=
  ∀ (s : State) (v : Word), s.regs.STATUS.BUSY = true →
    exec .wrCmdNop s = .next { s with regs := { s.regs with STATUS := { s.regs.STATUS with IGN := true } } } ∧
    exec .wrCmdStart s = .next { s with regs := { s.regs with STATUS := { s.regs.STATUS with IGN := true } } } ∧
    exec (.wrCmdIllegal v) s = .next { s with regs := { s.regs with STATUS := { s.regs.STATUS with IGN := true } } }

/-- An illegal command while idle (R109): BLKDONE 0, STATUS reads 0x106 with IGN as it was, irq follows IE, nothing else
changes. -/
def Obligations.IllegalCommandWhileIdle : Prop :=
  ∀ (s : State) (v : Word), s.regs.STATUS.BUSY = false → ∃ u : Status,
    exec (.wrCmdIllegal v) s = .next { s with regs := { s.regs with STATUS := u, BLKDONE := 0 } } ∧
    u.toWord = 0x106 ||| (if s.regs.STATUS.IGN then 0x8 else 0) ∧
    irq { s with regs := { s.regs with STATUS := u, BLKDONE := 0 } } = s.regs.CTRL.IE

/-- START while idle that fails CHECK (R111): DONE and ERR 1, ERRCODE what CHECK returns, BLKDONE 0, IGN as it was; no memory
access, nothing else changes. -/
def Obligations.StartFailsBeforeAnyAccess : Prop :=
  ∀ s : State, s.regs.STATUS.BUSY = false → check s.regs ≠ .none →
    exec .wrCmdStart s = .next { s with regs := { s.regs with
      STATUS := ⟨false, true, true, s.regs.STATUS.IGN, check s.regs⟩, BLKDONE := 0 } }

/-- START while idle of a command of no block that passes CHECK (R111): DONE 1 at once, ERR and ERRCODE 0, BLKDONE 0. -/
def Obligations.StartOfNoBlockSucceedsAtOnce : Prop :=
  ∀ s : State, s.regs.STATUS.BUSY = false → check s.regs = .none → s.regs.NBLK = 0 →
    exec .wrCmdStart s = .next { s with regs := { s.regs with
      STATUS := ⟨false, true, false, s.regs.STATUS.IGN, .none⟩, BLKDONE := 0 } }

/-- START while idle of a command that passes CHECK (R111): BUSY 1, the rest of STATUS 0 but IGN, BLKDONE 0, the sequencer at
the first LOAD with REM = M; memory, scratch and the other registers unchanged. -/
def Obligations.StartLaunchesTheSequencer : Prop :=
  ∀ s : State, s.regs.STATUS.BUSY = false → check s.regs = .none → s.regs.NBLK ≠ 0 →
    exec .wrCmdStart s = .next { s with
      regs := { s.regs with STATUS := ⟨true, false, false, s.regs.STATUS.IGN, .none⟩, BLKDONE := 0 }
      seq := { s.seq with PHASE := .load, REM := s.regs.NBLK, CUR := 0, IDX := 0, N := .zero, LI := 0 } }

/-- CHECK (R112): the first failing test, in the order LEN, STATE_ALIGN, RANGE, ALIAS, decides the code; windows overlap
exactly when they share a byte (R50); no other code results. -/
def Obligations.CheckReturnsTheFirstFailure : Prop :=
  ∀ r : Regs,
    let L := 64 * r.NBLK.toNat
    let lenFails := r.SRC_LEN.toNat ≠ L ∨ r.DST_LEN.toNat ≠ L
    let alignFails := r.STATE_ADDR.toNat % 4 ≠ 0
    let rangeFails := 2 ^ 32 < r.STATE_ADDR.toNat + 64 ∨ 2 ^ 32 < r.SRC_ADDR.toNat + L ∨ 2 ^ 32 < r.DST_ADDR.toNat + L
    let aliasFails := ∃ a, (stateWindow r).Contains a ∧ ((inputWindow r).Contains a ∨ (outputWindow r).Contains a)
    (check r = .len ↔ lenFails) ∧
    (check r = .stateAlign ↔ ¬ lenFails ∧ alignFails) ∧
    (check r = .range ↔ ¬ lenFails ∧ ¬ alignFails ∧ rangeFails) ∧
    (check r = .aliasing ↔ ¬ lenFails ∧ ¬ alignFails ∧ ¬ rangeFails ∧ aliasFails) ∧
    (check r = .none ↔ ¬ lenFails ∧ ¬ alignFails ∧ ¬ rangeFails ∧ ¬ aliasFails)

/-- The corner cases of R112: 2^26 blocks or more always fail LEN, a passed CHECK bounds the buffers, and empty buffers never
fail RANGE or ALIAS. -/
def Obligations.CheckCornerCases : Prop :=
  ∀ r : Regs,
    (2 ^ 26 ≤ r.NBLK.toNat → check r = .len) ∧
    (check r = .none → 64 * r.NBLK.toNat < 2 ^ 32) ∧
    (r.NBLK = 0 → r.SRC_LEN = 0 → r.DST_LEN = 0 → r.STATE_ADDR.toNat % 4 = 0 → r.STATE_ADDR.toNat + 64 ≤ 2 ^ 32 →
      check r = .none)

/-! ### Round function, lanes, counter, XOR -/

/-- QR (R73): its four lines in order, each on the values the previous ones left. -/
def Obligations.QuarterRoundLines : Prop :=
  (∀ a0 b0 c0 d0 : Word,
    let a1 := a0 + b0; let d1 := (d0 ^^^ a1).rotateLeft 16
    let c1 := c0 + d1; let b1 := (b0 ^^^ c1).rotateLeft 12
    let a2 := a1 + b1; let d2 := (d1 ^^^ a2).rotateLeft 8
    let c2 := c1 + d2; let b2 := (b1 ^^^ c2).rotateLeft 7
    quarterRound a0 b0 c0 d0 = (a2, b2, c2, d2)) ∧
  quarterRound 0 0 0 0 = (0, 0, 0, 0)

/-- The schedule: a double-round is a column round and then a diagonal round (R77), ROUNDS is ten of them, and zero is a
fixed point (R78). -/
def Obligations.RoundsAreTenDoubleRounds : Prop :=
  (∀ x : Words, rounds x = (fun y => diagonalRound (columnRound y))^[10] x) ∧
  rounds (Vector.replicate 16 0) = Vector.replicate 16 0

/-- Each round is its four quarter-rounds evaluated in parallel from the round's input, on the columns (R75) and on the
diagonals `(i, 4 + ((i+1) mod 4), 8 + ((i+2) mod 4), 12 + ((i+3) mod 4))` (R76). -/
def Obligations.RoundsAreParallelQuarterRounds : Prop :=
  ∀ (x : Words) (i : Fin 4),
    ((columnRound x)[i.val], (columnRound x)[4 + i.val], (columnRound x)[8 + i.val], (columnRound x)[12 + i.val]) =
      quarterRound x[i.val] x[4 + i.val] x[8 + i.val] x[12 + i.val] ∧
    ((diagonalRound x)[i.val], (diagonalRound x)[4 + (i.val + 1) % 4], (diagonalRound x)[8 + (i.val + 2) % 4],
        (diagonalRound x)[12 + (i.val + 3) % 4]) =
      quarterRound x[i.val] x[4 + (i.val + 1) % 4] x[8 + (i.val + 2) % 4] x[12 + (i.val + 3) % 4]

/-- The published vectors that spec/95_test_vectors.md sections 1.1 and 1.2 show to follow from the rules: the quarter-round
(R73) and the first four bytes of the first block of the zero key (R88). -/
def Obligations.KnownVectors : Prop :=
  quarterRound 0x11111111 0x01020304 0x9b8d6f43 0x01234567 = (0xea2a92f4, 0xcb1cf8ce, 0x4581472e, 0x5881c4bb) ∧
  (block #v[0x61707865, 0x3320646e, 0x79622d32, 0x6b206574, 0, 0, 0, 0, 0, 0, 0, 0, 0, 0, 0, 0]).toList.take 4 =
    [0x76, 0xb8, 0xe0, 0xad]

/-- Byte `4k + j` of a keystream block is byte `j`, least significant first, of the sum modulo 2^32 of word `k` after and
before the rounds (R86, R87, R88). -/
def Obligations.BlockBytesAreLittleEndianSums : Prop :=
  ∀ (y : Words) (k : Fin 16) (j : Fin 4),
    ((block y)[4 * k.val + j.val]'(by omega)).toNat =
      (((rounds y)[k].toNat + y[k].toNat) % 2 ^ 32) / 2 ^ (8 * j.val) % 2 ^ 8

/-- LANEINIT (R83): the lane's counter is base + l modulo 2^64, read from words 12 and 13, and every other word is the
snapshot's. -/
def Obligations.LaneInitSetsOnlyTheCounter : Prop :=
  ∀ (S : Words) (base : Counter) (l : Nat),
    (counterOf (laneInit S base l)).toNat = (base.toNat + l) % 2 ^ 64 ∧
    ∀ k : Fin 16, k ≠ 12 → k ≠ 13 → (laneInit S base l)[k] = S[k]

/-- Tier independence of the keystream (R89): a block depends on its counter and not on the lane that makes it. -/
def Obligations.KeystreamIndependentOfLane : Prop :=
  ∀ (S : Words) (base : Counter) (l : Nat), laneBlock S base l = laneBlock S (base + BitVec.ofNat 64 l) 0

/-- CTRREAD and CTRADV (R93, R94): word 12 is the low half; advancing adds 1 to the low word and carries into the high word
exactly when the low word becomes 0. -/
def Obligations.CounterAdvancesWordByWord : Prop :=
  ∀ S : Words,
    (counterOf S).toNat = S[12].toNat + S[13].toNat * 2 ^ 32 ∧
    counterLow (counterAdvance (counterOf S)) = S[12] + 1 ∧
    counterHigh (counterAdvance (counterOf S)) = if S[12] + 1 = 0 then S[13] + 1 else S[13]

/-- XORBLK (R100): byte by byte, and its own inverse. -/
def Obligations.XorBlockIsItsOwnInverse : Prop :=
  ∀ a k : Block, (∀ i : Fin 64, (xorBlock a k)[i] = a[i] ^^^ k[i]) ∧ xorBlock (xorBlock a k) k = a

/-! ### CORE's steps -/

/-- A LOAD step on ordinary memory (R113): word IDX of the snapshot is the little-endian word at STATE_ADDR + 4 * IDX; after
word 15 the counter is words 12 and 13 and GEN is next. Nothing else changes. -/
def Obligations.LoadStepReadsOneWord : Prop :=
  ∀ (s : State) (k : Nat) (hk : k < 16), s.seq.PHASE = .load → s.seq.IDX.val = k →
    s.regs.STATE_ADDR.toNat + 4 * k + 4 ≤ 2 ^ 32 →
    s.platform.busFault ⟨s.regs.STATE_ADDR.toNat + 4 * k, .word, .read⟩ = false →
    (∀ i < 4, s.platform.isDevice (s.regs.STATE_ADDR.toNat + 4 * k + i) = false) →
    let S' := s.seq.S.set k (s.mem.word (s.regs.STATE_ADDR.toNat + 4 * k))
    (k < 15 → coreStep s = .next { s with seq := { s.seq with S := S', IDX := ⟨k + 1, by omega⟩ } }) ∧
    (k = 15 → coreStep s = .next { s with seq := { s.seq with
      S := S', CTR := S'[13] ++ S'[12], IDX := 0, PHASE := .gen } })

/-- A GEN step (R114): the tier is 4, 2 or 1, never more than the blocks remaining; lane `l` of it holds the keystream block
of counter CTR + l and the other lanes what they held; X is 0; RD of lane 0 is next; memory, registers and the rest of the
sequencer are unchanged. -/
def Obligations.GenStepFillsTheLanes : Prop :=
  ∀ s : State, s.seq.PHASE = .gen → s.seq.REM ≠ 0 → ∃ (n : LaneCount) (ks : Vector Block 4),
    coreStep s = .next { s with seq := { s.seq with
      N := n, KS := ks, X := Vector.replicate 4 (Vector.replicate 16 0), LI := 0, IDX := 0, PHASE := .rd } } ∧
    n.lanes = (if 4 ≤ s.seq.REM.toNat then 4 else if 2 ≤ s.seq.REM.toNat then 2 else 1) ∧
    n.lanes ≤ s.seq.REM.toNat ∧
    ∀ l : Fin 4, ks[l] = if l.val < n.lanes then block (laneInit s.seq.S s.seq.CTR l.val) else s.seq.KS[l]

/-- An RD step on ordinary memory (R115): byte IDX of IN is the byte at SRC_ADDR + CUR + IDX; after byte 63 WR is next. -/
def Obligations.ReadStepReadsOneByte : Prop :=
  ∀ (s : State) (i : Nat) (hi : i < 64), s.seq.PHASE = .rd → s.seq.IDX.val = i →
    s.regs.SRC_ADDR.toNat + s.seq.CUR.toNat + i < 2 ^ 32 →
    s.platform.busFault ⟨s.regs.SRC_ADDR.toNat + s.seq.CUR.toNat + i, .byte, .read⟩ = false →
    s.platform.isDevice (s.regs.SRC_ADDR.toNat + s.seq.CUR.toNat + i) = false →
    let bytes := s.seq.IN.set i (s.mem.read (s.regs.SRC_ADDR.toNat + s.seq.CUR.toNat + i))
    (∀ h : i < 63, coreStep s = .next { s with seq := { s.seq with IN := bytes, IDX := ⟨i + 1, by omega⟩ } }) ∧
    (i = 63 → coreStep s = .next { s with seq := { s.seq with IN := bytes, IDX := 0, PHASE := .wr } })

/-- A WR step on ordinary memory before byte 63 (R116): exactly the byte at DST_ADDR + CUR + IDX becomes input XOR keystream,
and IDX advances. -/
def Obligations.WriteStepWritesOneByte : Prop :=
  ∀ (s : State) (i : Nat) (hi : i < 63), s.seq.PHASE = .wr → s.seq.IDX.val = i →
    s.regs.DST_ADDR.toNat + s.seq.CUR.toNat + i < 2 ^ 32 →
    s.platform.busFault ⟨s.regs.DST_ADDR.toNat + s.seq.CUR.toNat + i, .byte, .write⟩ = false →
    s.platform.isDevice (s.regs.DST_ADDR.toNat + s.seq.CUR.toNat + i) = false → ∃ m : Memory,
    coreStep s = .next { s with mem := m, seq := { s.seq with IDX := ⟨i + 1, by omega⟩ } } ∧
    ∀ a, m.read a = if a = s.regs.DST_ADDR.toNat + s.seq.CUR.toNat + i
      then s.seq.IN[i] ^^^ s.seq.KS[s.seq.LI][i] else s.mem.read a

/-- The WR step of byte 63 on ordinary memory (R116 with BLOCKDONE, R117): the byte is written, CTR, CUR, BLKDONE go up by 1,
64 and 1, REM goes down by 1, the block's IN and KS are cleared, and the next lane, the next batch or WB follows. -/
def Obligations.LastWriteStepCompletesTheBlock : Prop :=
  ∀ s : State, s.seq.PHASE = .wr → s.seq.IDX = 63 →
    s.regs.DST_ADDR.toNat + s.seq.CUR.toNat + 63 < 2 ^ 32 →
    s.platform.busFault ⟨s.regs.DST_ADDR.toNat + s.seq.CUR.toNat + 63, .byte, .write⟩ = false →
    s.platform.isDevice (s.regs.DST_ADDR.toNat + s.seq.CUR.toNat + 63) = false →
    ∃ (m : Memory) (n : LaneCount) (li : Fin 4) (p : Phase),
    coreStep s = .next { s with
      mem := m
      regs := { s.regs with BLKDONE := s.regs.BLKDONE + 1 }
      seq := { s.seq with
        CTR := s.seq.CTR + 1, CUR := s.seq.CUR + 64, REM := s.seq.REM - 1, IN := Vector.replicate 64 0
        KS := s.seq.KS.set s.seq.LI.val (Vector.replicate 64 0), IDX := 0, N := n, LI := li, PHASE := p } } ∧
    (∀ a, m.read a = if a = s.regs.DST_ADDR.toNat + s.seq.CUR.toNat + 63
      then s.seq.IN[63] ^^^ s.seq.KS[s.seq.LI][63] else s.mem.read a) ∧
    (s.seq.LI.val + 1 < s.seq.N.lanes → p = .rd ∧ n = s.seq.N ∧ li.val = s.seq.LI.val + 1) ∧
    (s.seq.N.lanes ≤ s.seq.LI.val + 1 → n = .zero ∧ li = 0 ∧ p = if s.seq.REM = 1 then .wb else .gen)

/-- The WB steps on ordinary memory (R118): the low half of CTR becomes word 12, then the high half word 13; no other byte
changes; FIN is next. -/
def Obligations.WriteBackStoresTheCounter : Prop :=
  ∀ (s : State) (d : Nat) (c : Word), s.seq.PHASE = .wb →
    (s.seq.IDX = 0 ∧ d = 48 ∧ c = s.seq.CTR.setWidth 32 ∨
      s.seq.IDX = 1 ∧ d = 52 ∧ c = (s.seq.CTR >>> 32).setWidth 32) →
    s.regs.STATE_ADDR.toNat + d + 4 ≤ 2 ^ 32 →
    s.platform.busFault ⟨s.regs.STATE_ADDR.toNat + d, .word, .write⟩ = false →
    (∀ i < 4, s.platform.isDevice (s.regs.STATE_ADDR.toNat + d + i) = false) → ∃ m : Memory,
    coreStep s = .next { s with mem := m, seq := { s.seq with
      IDX := if d = 48 then 1 else 0, PHASE := if d = 48 then .wb else .fin } } ∧
    m.word (s.regs.STATE_ADDR.toNat + d) = c ∧
    ∀ a, a < s.regs.STATE_ADDR.toNat + d ∨ s.regs.STATE_ADDR.toNat + d + 4 ≤ a → m.read a = s.mem.read a

/-- The FIN step (R119): every scratch element and every index becomes 0, PHASE IDLE, BUSY 0, DONE 1; ERR, ERRCODE and IGN
stay, and so does everything else. -/
def Obligations.FinClearsScratchAndSignals : Prop :=
  ∀ s : State, s.seq.PHASE = .fin →
    coreStep s = .next { s with
      regs := { s.regs with STATUS := { s.regs.STATUS with BUSY := false, DONE := true } }
      seq := {
        PHASE := .idle, S := Vector.replicate 16 0, CTR := 0, REM := 0, CUR := 0, N := .zero, LI := 0, IDX := 0
        IN := Vector.replicate 64 0, KS := Vector.replicate 4 (Vector.replicate 64 0)
        X := Vector.replicate 4 (Vector.replicate 16 0) } }

/-- An access that faults (R127): no byte changes, ERR and ERRCODE = BUS, IDX 0 and FIN next, nothing else; and with FIN
(R134) the command has ended with DONE, ERR, ERRCODE = 0x6, BUSY 0, BLKDONE as it was and all scratch 0. For every phase that
makes an access, in every state whose access lies in the address space and whose LOAD index the rule covers. -/
def Obligations.BusFaultEndsTheCommand : Prop :=
  ∀ (s : State) (a : BusAccess), nextAccess s = some a → a.addr + a.width.bytes ≤ 2 ^ 32 →
    (s.seq.PHASE = .load → s.seq.IDX.val < 16) → s.platform.busFault a = true → s.turns = [] →
    ∃ t, step s = .next t ∧
      t = { s with
        regs := { s.regs with STATUS := { s.regs.STATUS with ERR := true, ERRCODE := .bus } }
        seq := { s.seq with IDX := 0, PHASE := .fin } } ∧
      step t = .next { s with
        regs := { s.regs with STATUS := ⟨false, true, true, s.regs.STATUS.IGN, .bus⟩ }
        seq := Sequencer.reset }

/-! ### Reset -/

/-- `rst` (R144 to R146), at any time: every register reads 0, irq is 0, PHASE is IDLE, the other internal state is 0, and no
byte of memory changes. That none changes also between the second WB step and FIN, where R146 is at odds with itself, is the
model's choice, entry 24. -/
def Obligations.ResetClearsEverythingButMemory : Prop :=
  ∀ (s : State) (rest : List Turn), s.turns = .reset :: rest → ∃ t, step s = .next t ∧
    t.regs.CTRL.toWord = 0 ∧ t.regs.STATUS.toWord = 0 ∧ t.regs.BLKDONE = 0 ∧ t.regs.NBLK = 0 ∧
    t.regs.STATE_ADDR = 0 ∧ t.regs.SRC_ADDR = 0 ∧ t.regs.DST_ADDR = 0 ∧ t.regs.SRC_LEN = 0 ∧ t.regs.DST_LEN = 0 ∧
    irq t = false ∧ t.seq.PHASE = .idle ∧ t.seq.ScratchClear ∧
    t.seq.REM = 0 ∧ t.seq.CUR = 0 ∧ t.seq.N = .zero ∧ t.seq.LI = 0 ∧ t.seq.IDX = 0 ∧
    t.mem = s.mem ∧ t.turns = rest

/-- The state after reset meets the invariant. Its memory and platform are the model's choice (entries 5 to 8). -/
def Obligations.ResetStateMeetsInvariant : Prop := MachineInv State.reset

/-! ### Invariants and whole-machine rules -/

/-- Every step of either agent and of the reset input keeps the invariant, from every state that has it: the canonical form
of memory, what STATUS says (R18, R30), hygiene (R33), the relations of a running command (R35) and the keystream the lanes
hold (R89, R92). Two clauses are the model's choice and no rule's: the canonical form of memory (MemoryInv, entry 7), and
that ERR is 0 while BUSY but for the step between a bus fault and FIN (StatusInv.no_error, which departs from R19's remark,
entry 13). -/
def Obligations.EveryStepKeepsTheInvariant : Prop :=
  ∀ s t : State, MachineInv s → step s = .next t → MachineInv t

/-- BUSY = 1 if and only if PHASE is not IDLE (R30): true after reset, and kept by every step. -/
def Obligations.BusyExactlyWhenNotIdle : Prop :=
  (State.reset.regs.STATUS.BUSY = true ↔ State.reset.seq.PHASE ≠ .idle) ∧
  ∀ s t : State, (s.regs.STATUS.BUSY = true ↔ s.seq.PHASE ≠ .idle) → step s = .next t →
    (t.regs.STATUS.BUSY = true ↔ t.seq.PHASE ≠ .idle)

/-- Whenever PHASE = IDLE every scratch element is 0 (R33): true after reset, and kept by every step. -/
def Obligations.ScratchClearWheneverIdle : Prop :=
  (State.reset.seq.PHASE = .idle ∧ State.reset.seq.ScratchClear) ∧
  ∀ s t : State, (s.seq.PHASE = .idle → s.seq.ScratchClear) → step s = .next t →
    (t.seq.PHASE = .idle → t.seq.ScratchClear)

/-- CORE's accesses are exactly those of R53 and touch no byte outside its windows (R54, R103): aligned words of WS and bytes
of WI are read, bytes of WO and the aligned counter words of WS are written, all of them inside the address space (R51). -/
def Obligations.AccessesStayInTheWindows : Prop :=
  ∀ (s : State) (a : BusAccess), MachineInv s → nextAccess s = some a →
    a.addr + a.width.bytes ≤ 2 ^ 32 ∧
    (a.kind = .read → (a.width = .word ∧ a.addr % 4 = 0 ∧ ∀ i < 4, (stateWindow s.regs).Contains (a.addr + i)) ∨
      (a.width = .byte ∧ (inputWindow s.regs).Contains a.addr)) ∧
    (a.kind = .write → (a.width = .byte ∧ (outputWindow s.regs).Contains a.addr) ∨
      (a.width = .word ∧ (a.addr = s.regs.STATE_ADDR.toNat + 48 ∨ a.addr = s.regs.STATE_ADDR.toNat + 52) ∧
        a.addr % 4 = 0))

/-- A step of CORE changes no byte outside WO and bytes 48 to 55 of WS (R54), and so never a state word other than 12 and 13
(R99: words 0 to 11, 14 and 15). -/
def Obligations.CoreWritesOnlyOutputAndCounter : Prop :=
  ∀ s t : State, MachineInv s → coreStep s = .next t →
    (∀ a, ¬ (outputWindow s.regs).Contains a → ¬ (counterWindow s.regs).Contains a → t.mem.read a = s.mem.read a) ∧
    (s.regs.STATUS.BUSY = true → ∀ k : Fin 16, k ≠ 12 → k ≠ 13 →
      t.mem.word (s.regs.STATE_ADDR.toNat + 4 * k.val) = s.mem.word (s.regs.STATE_ADDR.toNat + 4 * k.val))

/-- CORE never stops: from every state with the invariant whose windows are ordinary memory, its step answers a next state,
whatever accesses fault. While BUSY this is R159's progress; in IDLE, where R30 gives CORE no step, the step answered is the
model's own waiting step, entry 2, and with it the invariant's clauses of entries 7 and 13 are the model's. -/
def Obligations.CoreAlwaysHasItsStep : Prop :=
  ∀ s : State, MachineInv s → (s.regs.STATUS.BUSY = true → Ordinary s) → ∃ t, coreStep s = .next t

/-- DONE rises only in a step that ends a command (R60, R160): the machine is IDLE with its scratch 0 and makes no access,
memory was not touched in that step, and irq is IE from then on. -/
def Obligations.DoneRisesAfterEveryAccess : Prop :=
  ∀ s t : State, MachineInv s → step s = .next t → s.regs.STATUS.DONE = false → t.regs.STATUS.DONE = true →
    t.seq = Sequencer.reset ∧ t.regs.STATUS.BUSY = false ∧ nextAccess t = none ∧ t.mem = s.mem ∧
    irq t = t.regs.CTRL.IE

/-- Data independence (R124): two states that differ only in S, CTR, IN, KS, X, the contents of memory and the last value
read make the same access next, and their steps end alike, in states that again differ only there. So the sequence of steps,
of accesses and of STATUS values never depends on the key, nonce, counter, constants, input or keystream. -/
def Obligations.SecretsDoNotSteer : Prop :=
  ∀ s t : State, SameControl s t → nextAccess s = nextAccess t ∧ SameOutcome (step s) (step t)

/-- No register access reveals internal state or memory (R27, R141): two states with equal registers and equal last value
read, however different their scratch and memory, answer every instruction with equal registers and equal value read. -/
def Obligations.RegistersRevealNoScratch : Prop :=
  ∀ (i : Instr) (s t : State), s.regs = t.regs → s.rdata = t.rdata →
    ∃ s' t', exec i s = .next s' ∧ exec i t = .next t' ∧ s'.regs = t'.regs ∧ s'.rdata = t'.rdata ∧
      s'.mem = s.mem ∧ t'.mem = t.mem

/-! ### Memory and the host's accesses -/

/-- Memories in the canonical form that read alike are equal. -/
def Obligations.CanonicalMemoryIsUnique : Prop :=
  ∀ m m' : Memory, m.wf = true → m'.wf = true → (∀ a, m.read a = m'.read a) → m = m'

/-- A host read returns the last value written (R58), and the write changes no other byte, at each width: two bus accesses of
the host to ordinary memory outside CORE's window. The write stores the low bytes of its value, least significant first (R49),
and the read returns them with zeros above. The widths and addresses a host may use, and the form of what a narrower read
returns, are the model's choice (entry 14). -/
def Obligations.HostReadsTheLastWrite : Prop :=
  ∀ (s : State) (addr : BitVec 32) (w : Width) (v : Word) (rest : List Turn),
    s.turns = .bus ⟨.write, addr, w, v⟩ :: .bus ⟨.read, addr, w, 0⟩ :: rest →
    addr.toNat + w.bytes ≤ 2 ^ 32 → (∀ i < w.bytes, s.platform.isDevice (addr.toNat + i) = false) →
    s.platform.busFault ⟨addr.toNat, w, .write⟩ = false → s.platform.busFault ⟨addr.toNat, w, .read⟩ = false →
    ∃ m : Memory,
      step s = .next { s with mem := m, turns := .bus ⟨.read, addr, w, 0⟩ :: rest } ∧
      (∀ i < w.bytes, (m.read (addr.toNat + i)).toNat = v.toNat / 2 ^ (8 * i) % 2 ^ 8) ∧
      (∀ a, a < addr.toNat ∨ addr.toNat + w.bytes ≤ a → m.read a = s.mem.read a) ∧
      step { s with mem := m, turns := .bus ⟨.read, addr, w, 0⟩ :: rest } =
        .next { s with mem := m, turns := rest, rdata := some (BitVec.ofNat 32 (v.toNat % 2 ^ (8 * w.bytes))) }

/-- A host bus access that faults: a read returns no value and a write changes no byte (R55), and nothing else changes; so it
is of an access to memory, device or not, and of an aligned word access to CORE's window, which then does not reach CORE. That
R55 holds of the host's accesses too is the model's choice, entry 15. -/
def Obligations.FaultingHostAccessHasNoEffect : Prop :=
  ∀ (s : State) (m : BusMove) (rest : List Turn), s.turns = .bus m :: rest →
    s.platform.busFault ⟨m.addr.toNat, m.width, m.kind⟩ = true →
    (m.addr.toNat + m.width.bytes ≤ 2 ^ 32 ∧ (∀ i < m.width.bytes, s.platform.inWindow (m.addr.toNat + i) = false)) ∨
      (m.width = .word ∧ ∃ off : Fin 16, m.addr.toNat = s.platform.coreBase.toNat + 4 * off.val) →
    (m.kind = .read → step s = .next { s with turns := rest, rdata := none }) ∧
    (m.kind = .write → step s = .next { s with turns := rest })

/-- A host bus access outside CORE's window that meets no ordinary memory. Beyond the 2^32 bytes of R45 it stops by name (entry
14). Inside them and not faulting: a write that reaches a device byte is refused by name, a byte read of a device is answered
with a free byte, whatever it is, and draws it (R56, I5, entry 8). -/
def Obligations.HostAccessBeyondOrdinaryMemory : Prop :=
  ∀ (s : State) (m : BusMove) (rest : List Turn), s.turns = .bus m :: rest →
    (∀ i < m.width.bytes, s.platform.inWindow (m.addr.toNat + i) = false) →
    (2 ^ 32 < m.addr.toNat + m.width.bytes → step s = .fault .outsideAddressSpace) ∧
    (m.addr.toNat + m.width.bytes ≤ 2 ^ 32 → s.platform.busFault ⟨m.addr.toNat, m.width, m.kind⟩ = false →
      (m.kind = .write → (∃ i < m.width.bytes, s.platform.isDevice (m.addr.toNat + i) = true) →
        step s = .refused .deviceWrite) ∧
      (m.kind = .read → m.width = .byte → s.platform.isDevice m.addr.toNat = true →
        step s = .next { s with
          turns := rest, draws := s.draws + 1, rdata := some ((Config.deviceByte s.draws).setWidth 32) }))

/-- A host bus access that reaches CORE's window. A 32-bit access at an offset that is a multiple of 4, and that does not fault,
is the register access at its offset (R14, R15; entry 15). Every other access that touches the window is refused by name,
whatever BUS_FAULT says of it (R15, HOST_NONWORD; entry 9). -/
def Obligations.WindowAccessesAreWholeRegisters : Prop :=
  ∀ (s : State) (m : BusMove) (rest : List Turn), s.turns = .bus m :: rest →
    (∀ off : Fin 16, m.width = .word → m.addr.toNat = s.platform.coreBase.toNat + 4 * off.val →
      s.platform.busFault ⟨m.addr.toNat, m.width, m.kind⟩ = false →
      ∃ i, decode (haWord (m.kind == .write) (BitVec.ofNat 8 (4 * off.val)) (if m.kind = .write then m.data else 0))
          = .ok i ∧ step s = exec i { s with turns := rest }) ∧
    ((∃ a, m.addr.toNat ≤ a ∧ a < m.addr.toNat + m.width.bytes ∧ s.platform.inWindow a = true) →
      (m.width ≠ .word ∨ ∀ off : Fin 16, m.addr.toNat ≠ s.platform.coreBase.toNat + 4 * off.val) →
      step s = .refused .hostNonWord)

/-! ### Whole commands -/

/-- Step count (R123): a command launched under the premises of R162 that meets no fault has ended when CORE has taken exactly
`16 + G + 128 * M + 3` steps after its START, whatever turns of the host fall between them (R161): BUSY and not DONE until then
(R125), and then IDLE with DONE. -/
def Obligations.CommandTakesExactlyItsSteps : Prop :=
  ∀ (s : State) (rest : List Turn), Launch s rest →
    let taken := commandTurns rest (commandSteps (blockCount s.regs))
    taken.count .core = commandSteps (blockCount s.regs) ∧
    (∀ n, 1 ≤ n → n ≤ taken.length → ∃ t, Host.Core.run Sys2Proof.core n s = .next t ∧
      t.regs.STATUS.BUSY = true ∧ t.regs.STATUS.DONE = false) ∧
    ∃ t, Host.Core.run Sys2Proof.core (1 + taken.length) s = .next t ∧
      t.seq.PHASE = .idle ∧ t.regs.STATUS.BUSY = false ∧ t.regs.STATUS.DONE = true

/-- Result of a successful command that runs alone, as the whole state (R122 with R89, R97, R104): with windows that do not overlap forward, every output byte is
the input byte at the launch XOR the keystream of its block, words 12 and 13 hold C0 + M modulo 2^64, no other byte has
changed, STATUS is DONE alone (IGN as it was), BLKDONE = M, all internal state is as after reset, and the other registers are
unchanged. -/
def Obligations.CommandEncryptsTheBuffer : Prop :=
  ∀ s : State, Launch s [] → NoForwardOverlap s.regs →
    ∃ m : Memory,
      Host.Core.run Sys2Proof.core (1 + commandSteps (blockCount s.regs)) s = .next { s with
        mem := m, turns := []
        regs := { s.regs with STATUS := ⟨false, true, false, s.regs.STATUS.IGN, .none⟩, BLKDONE := s.regs.NBLK } } ∧
      (∀ j < blockCount s.regs, ∀ i : Fin 64,
        m.read (s.regs.DST_ADDR.toNat + (64 * j + i.val)) =
          s.mem.read (s.regs.SRC_ADDR.toNat + (64 * j + i.val)) ^^^ (keystream (snapshot s) j)[i]) ∧
      m.word (s.regs.STATE_ADDR.toNat + 48) =
        counterLow (counterOf (snapshot s) + BitVec.ofNat 64 (blockCount s.regs)) ∧
      m.word (s.regs.STATE_ADDR.toNat + 52) =
        counterHigh (counterOf (snapshot s) + BitVec.ofNat 64 (blockCount s.regs)) ∧
      ∀ a, ¬ (outputWindow s.regs).Contains a → ¬ (counterWindow s.regs).Contains a → m.read a = s.mem.read a

/-- Result of a successful command beside an acting host (R122 under the premises of R162): whatever turns the host takes until
the command has ended, register accesses, CTRL and STATUS writes, CMD writes, reads and writes elsewhere, so long as none stores
a byte of WS, WI or WO. Every output byte is the input byte at the launch XOR the keystream of its block, words 12 and 13 hold
C0 + M modulo 2^64, a byte that is in neither and that the host stored nothing to is unchanged (so the other 14 state words and
the input are, R54), STATUS is DONE alone with IGN, BLKDONE = M, all internal state is as after reset, and the configuration
registers are unchanged. CTRL and IGN are what the host's turns make of them (R16, R19, R110). -/
def Obligations.CommandEncryptsBesideTheHost : Prop :=
  ∀ (s : State) (rest : List Turn), Launch s rest → NoForwardOverlap s.regs →
    let taken := commandTurns rest (commandSteps (blockCount s.regs))
    ∃ t, Host.Core.run Sys2Proof.core (1 + taken.length) s = .next t ∧
      t.regs = { s.regs with
        CTRL := taken.foldl (ctrlAfter s.platform) s.regs.CTRL
        STATUS := ⟨false, true, false, taken.foldl (ignAfter s.platform) s.regs.STATUS.IGN, .none⟩
        BLKDONE := s.regs.NBLK } ∧
      t.seq = Sequencer.reset ∧ t.platform = s.platform ∧ t.turns = rest.drop taken.length ∧
      (∀ j < blockCount s.regs, ∀ i : Fin 64,
        t.mem.read (s.regs.DST_ADDR.toNat + (64 * j + i.val)) =
          s.mem.read (s.regs.SRC_ADDR.toNat + (64 * j + i.val)) ^^^ (keystream (snapshot s) j)[i]) ∧
      t.mem.word (s.regs.STATE_ADDR.toNat + 48) =
        counterLow (counterOf (snapshot s) + BitVec.ofNat 64 (blockCount s.regs)) ∧
      t.mem.word (s.regs.STATE_ADDR.toNat + 52) =
        counterHigh (counterOf (snapshot s) + BitVec.ofNat 64 (blockCount s.regs)) ∧
      ∀ a, ¬ (outputWindow s.regs).Contains a → ¬ (counterWindow s.regs).Contains a →
        (∀ u ∈ taken, u.stores s.platform a = false) → t.mem.read a = s.mem.read a

/-- Every running command ends (R123, R159), whatever accesses fault and whatever turns the host takes, also writes to the
command's windows, so long as none is a reset or a move the model stops on: with its windows on ordinary memory it is IDLE with
DONE after CORE has taken at most as many steps as a whole command takes. -/
def Obligations.EveryCommandEnds : Prop :=
  ∀ s : State, MachineInv s → s.regs.STATUS.BUSY = true → Ordinary s →
    (∀ u ∈ commandTurns s.turns (commandSteps (blockCount s.regs)), u.completes s.platform = true) →
    ∃ n t, n ≤ (commandTurns s.turns (commandSteps (blockCount s.regs))).length ∧
      Host.Core.run Sys2Proof.core n s = .next t ∧ t.seq.PHASE = .idle ∧ t.regs.STATUS.DONE = true
end

