-- ==== Sys2Proof/Laws/Memory.lean ====
section
/-! SUPPORT. Memory by bytes: a read after a write, that every operation keeps the canonical form, and the bytes of a wide
write. -/

namespace Sys2Proof.Machine

/-! ### Reading -/

theorem Memory.read_nil (a : Nat) : Memory.read [] a = Config.unlistedByte := rfl

theorem Memory.read_cons (c : Host.Cell) (m : Memory) (a : Nat) :
    Memory.read (c :: m) a = if c.1 = a then c.2 else Memory.read m a := rfl

/-- An address no cell names reads as unlisted. -/
theorem Memory.read_unlisted {m : Memory} {a : Nat} (h : ∀ c ∈ m, c.1 ≠ a) : m.read a = Config.unlistedByte := by
  induction m with
  | nil => rfl
  | cons c rest ih =>
    rw [Memory.read_cons, if_neg (h c (by simp)), ih fun d hd => h d (by simp [hd])]

/-! ### Writing one byte -/

theorem Memory.read_erase (m : Memory) (a b : Nat) :
    (m.erase a).read b = if a = b then Config.unlistedByte else m.read b := by
  induction m with
  | nil => simp [Memory.erase, Memory.read_nil]
  | cons c rest ih =>
    simp only [Memory.erase] at ih ⊢
    by_cases hc : c.1 = a
    · by_cases hb : a = b <;> simp_all [Memory.read_cons]
    · by_cases hb : a = b
      · subst hb; simp_all [Memory.read_cons]
      · simp_all [Memory.read_cons]

theorem Memory.read_insert (m : Memory) (a b : Nat) (v : Byte) :
    (m.insert a v).read b = if a = b then v else m.read b := by
  induction m with
  | nil => simp [Memory.insert, Memory.read_cons, Memory.read_nil]
  | cons c rest ih =>
    simp only [Memory.insert]
    split
    · have : c.1 ≠ a := by omega
      rw [Memory.read_cons, ih, Memory.read_cons]
      split <;> split <;> simp_all
    · split
      · simp only [Memory.read_cons]; split <;> simp_all
      · simp only [Memory.read_cons]

/-- Reading after a write of one byte (spec/20_memory.md R58). -/
theorem Memory.read_write (m : Memory) (a b : Nat) (v : Byte) :
    (m.write a v).read b = if a = b then v else m.read b := by
  unfold Memory.write
  split
  · next h => rw [Memory.read_erase, h]
  · exact Memory.read_insert m a b v

@[simp] theorem Memory.read_write_same (m : Memory) (a : Nat) (v : Byte) : (m.write a v).read a = v := by
  simp [Memory.read_write]

theorem Memory.read_write_other (m : Memory) {a b : Nat} (v : Byte) (h : a ≠ b) : (m.write a v).read b = m.read b := by
  simp [Memory.read_write, h]

/-! ### Writing several bytes -/

@[simp] theorem Memory.writeBytes_nil (m : Memory) (a : Nat) : m.writeBytes a [] = m := rfl

@[simp] theorem Memory.writeBytes_cons (m : Memory) (a : Nat) (b : Byte) (bs : List Byte) :
    m.writeBytes a (b :: bs) = (m.write a b).writeBytes (a + 1) bs := rfl

/-- Outside the bytes written, every byte reads as before. -/
theorem Memory.read_writeBytes_outside (m : Memory) (a b : Nat) (bs : List Byte)
    (h : b < a ∨ a + bs.length ≤ b) : (m.writeBytes a bs).read b = m.read b := by
  induction bs generalizing m a with
  | nil => rfl
  | cons v rest ih =>
    simp only [List.length_cons] at h
    rw [Memory.writeBytes_cons, ih (m.write a v) (a + 1) (by omega), Memory.read_write_other m v (by omega)]

/-- Inside, byte `i` reads as the one written. -/
theorem Memory.read_writeBytes_inside (m : Memory) (a i : Nat) (bs : List Byte) (h : i < bs.length) :
    (m.writeBytes a bs).read (a + i) = bs[i] := by
  induction bs generalizing m a i with
  | nil => simp at h
  | cons v rest ih =>
    rw [Memory.writeBytes_cons]
    cases i with
    | zero =>
      rw [Memory.read_writeBytes_outside _ _ _ _ (by omega)]
      simp
    | succ i =>
      have := ih (m.write a v) (a + 1) i (by simpa using h)
      simpa [Nat.add_assoc, Nat.add_comm 1 i] using this

/-! ### The canonical form -/

/-- The form said for a head and a tail. -/
theorem Memory.wf_cons (c : Host.Cell) (m : Memory) :
    Memory.wf (c :: m) = true ↔ c.2 ≠ Config.unlistedByte ∧ (∀ d ∈ m, c.1 < d.1) ∧ Memory.wf m = true := by
  induction m generalizing c with
  | nil => simp [Memory.wf]
  | cons d rest ih =>
    simp only [Memory.wf, Bool.and_eq_true, bne_iff_ne, decide_eq_true_eq, List.mem_cons, forall_eq_or_imp]
    rw [ih d]
    constructor
    · rintro ⟨⟨h1, h2⟩, h3, h4, h5⟩
      exact ⟨h1, ⟨h2, fun e he => lt_trans h2 (h4 e he)⟩, h3, h4, h5⟩
    · rintro ⟨h1, ⟨h2, _⟩, h3, h4, h5⟩
      exact ⟨⟨h1, h2⟩, h3, h4, h5⟩

theorem Memory.mem_erase {m : Memory} {a : Nat} {c : Host.Cell} (h : c ∈ m.erase a) : c ∈ m :=
  (List.mem_filter.mp h).1

theorem Memory.mem_insert {m : Memory} {a : Nat} {v : Byte} {c : Host.Cell} (h : c ∈ m.insert a v) :
    c = (a, v) ∨ c ∈ m := by
  induction m with
  | nil => simpa [Memory.insert] using h
  | cons d rest ih =>
    simp only [Memory.insert] at h
    split at h
    · rcases List.mem_cons.mp h with h | h
      · simp [h]
      · rcases ih h with h | h <;> simp [h]
    · split at h
      · rcases List.mem_cons.mp h with h | h <;> simp [h]
      · rcases List.mem_cons.mp h with h | h
        · simp [h]
        · exact .inr h

theorem Memory.wf_erase {m : Memory} (a : Nat) (h : Memory.wf m = true) : Memory.wf (m.erase a) = true := by
  induction m with
  | nil => rfl
  | cons c rest ih =>
    obtain ⟨h1, h2, h3⟩ := (Memory.wf_cons c rest).mp h
    by_cases hc : c.1 = a
    · have : Memory.erase (c :: rest) a = Memory.erase rest a := by simp [Memory.erase, hc]
      rw [this]; exact ih h3
    · have : Memory.erase (c :: rest) a = c :: Memory.erase rest a := by simp [Memory.erase, hc]
      rw [this, Memory.wf_cons]
      exact ⟨h1, fun d hd => h2 d (Memory.mem_erase hd), ih h3⟩

theorem Memory.wf_insert {m : Memory} (a : Nat) {v : Byte} (hv : v ≠ Config.unlistedByte) (h : Memory.wf m = true) :
    Memory.wf (m.insert a v) = true := by
  induction m with
  | nil => simpa [Memory.insert, Memory.wf] using hv
  | cons c rest ih =>
    obtain ⟨h1, h2, h3⟩ := (Memory.wf_cons c rest).mp h
    simp only [Memory.insert]
    split
    · next hlt =>
      rw [Memory.wf_cons]
      refine ⟨h1, fun d hd => ?_, ih h3⟩
      rcases Memory.mem_insert hd with rfl | hd
      · exact hlt
      · exact h2 d hd
    · split
      · next heq =>
        rw [Memory.wf_cons]
        exact ⟨hv, fun d hd => heq ▸ h2 d hd, h3⟩
      · next hne =>
        rw [Memory.wf_cons]
        refine ⟨hv, fun d hd => ?_, h⟩
        rcases List.mem_cons.mp hd with rfl | hd
        · simp only; omega
        · have := h2 d hd
          simp only; omega

/-- A write keeps the canonical form. -/
theorem Memory.wf_write {m : Memory} (a : Nat) (v : Byte) (h : Memory.wf m = true) : Memory.wf (m.write a v) = true := by
  unfold Memory.write
  split
  · exact Memory.wf_erase a h
  · next hv => exact Memory.wf_insert a hv h

/-- A wide write keeps the canonical form. -/
theorem Memory.wf_writeBytes {m : Memory} (a : Nat) (bs : List Byte) (h : Memory.wf m = true) :
    Memory.wf (m.writeBytes a bs) = true := by
  induction bs generalizing m a with
  | nil => exact h
  | cons b rest ih => exact ih (a + 1) (Memory.wf_write a b h)

/-- A write lists no address but the one written and those listed before. -/
theorem Memory.mem_write {m : Memory} {a : Nat} {v : Byte} {c : Host.Cell} (h : c ∈ m.write a v) :
    c.1 = a ∨ c ∈ m := by
  unfold Memory.write at h
  split at h
  · exact .inr (Memory.mem_erase h)
  · rcases Memory.mem_insert h with rfl | h
    · exact .inl rfl
    · exact .inr h

theorem Memory.mem_writeBytes {m : Memory} {a : Nat} {bs : List Byte} {c : Host.Cell} (h : c ∈ m.writeBytes a bs) :
    (a ≤ c.1 ∧ c.1 < a + bs.length) ∨ c ∈ m := by
  induction bs generalizing m a with
  | nil => exact .inr h
  | cons b rest ih =>
    simp only [List.length_cons]
    rcases ih (m := m.write a b) (a := a + 1) h with h | h
    · omega
    · rcases Memory.mem_write h with h | h
      · omega
      · exact .inr h

/-! ### Byte order -/

@[simp] theorem length_leBytes (n : Nat) (v : Word) : (leBytes n v).length = n := by
  induction n generalizing v with
  | zero => rfl
  | succ n ih => simp [leBytes, ih]

/-- Byte `i` of a word, least significant first (spec/00_scope.md R10). -/
theorem getElem_leBytes {n : Nat} {v : Word} {i : Nat} (h : i < (leBytes n v).length) :
    (leBytes n v)[i] = v.extractLsb' (8 * i) 8 := by
  induction n generalizing v i with
  | zero => simp [leBytes] at h
  | succ n ih =>
    cases i with
    | zero => ext j hj; simp [leBytes]
    | succ i =>
      simp only [leBytes, List.getElem_cons_succ]
      rw [ih (by simpa [leBytes] using h)]
      ext j hj
      simp [show 8 + (8 * i + j) = 8 * (i + 1) + j by omega]

/-- The low bytes of a word, put together again, are its low bits. -/
theorem getLsbD_leValue_leBytes (n : Nat) (v : Word) (i : Nat) :
    (leValue (leBytes n v)).getLsbD i = (decide (i < 8 * n) && v.getLsbD i) := by
  induction n generalizing v i with
  | zero => simp [leBytes, leValue]
  | succ n ih =>
    simp only [leBytes, leValue, BitVec.getLsbD_or, BitVec.getLsbD_setWidth, BitVec.getLsbD_shiftLeft, ih,
      BitVec.getLsbD_ushiftRight]
    by_cases h32 : i < 32
    · by_cases h8 : i < 8
      · simp [h32, h8, show i < 8 * (n + 1) by omega]
      · simp [h32, h8, show 8 + (i - 8) = i by omega, show i - 8 < 8 * n ↔ i < 8 * (n + 1) by omega]
    · simp [h32, show ¬ i < 8 by omega, BitVec.getLsbD_of_ge v i (by omega)]

/-- As numbers: the little-endian value of the `n` low bytes of a word is the word modulo 2^(8n) (R10, R49). -/
theorem leValue_leBytes (n : Nat) (v : Word) : leValue (leBytes n v) = BitVec.ofNat 32 (v.toNat % 2 ^ (8 * n)) := by
  apply BitVec.eq_of_getLsbD_eq
  intro i hi
  rw [getLsbD_leValue_leBytes, BitVec.getLsbD_ofNat, Nat.testBit_mod_two_pow, BitVec.getLsbD]
  simp [hi]

/-- Little-endian bytes of a word give the word back (R10, R49). -/
theorem leValue_leBytes_four (v : Word) : leValue (leBytes 4 v) = v := by
  rw [leValue_leBytes, Nat.mod_eq_of_lt v.isLt, BitVec.ofNat_toNat, BitVec.setWidth_eq]

/-- The bytes written are the bytes read back there. -/
theorem Memory.readBack_writeBytes (m : Memory) (a : Nat) (bs : List Byte) :
    ((List.range bs.length).map fun i => (m.writeBytes a bs).read (a + i)) = bs := by
  apply List.ext_getElem (by simp)
  intro i _ h
  simp [Memory.read_writeBytes_inside m a i bs h]

end Sys2Proof.Machine
end

