-- ==== Sys2Proof/Laws/Bus.lean ====
section
/-! SUPPORT. What a bus access can do: one inversion lemma per access, and its value on ordinary memory. -/

namespace Sys2Proof.Machine

/-! ### Continuing after an access -/

@[simp] theorem resume_done {α : Type} (v : α) (f : State) (k : α → State) :
    (BusReply.done v).resume f k = .next (k v) := rfl

@[simp] theorem resume_busFault {α : Type} (f : State) (k : α → State) :
    (BusReply.busFault : BusReply α).resume f k = .next f := rfl

/-- A next state after an access is the continuation's or the one a bus fault leaves. -/
theorem resume_next {α : Type} {r : BusReply α} {f : State} {k : α → State} {t : State} (h : r.resume f k = .next t) :
    (∃ v, r = .done v ∧ t = k v) ∨ (r = .busFault ∧ t = f) := by
  cases r with
  | done v => exact .inl ⟨v, rfl, by simpa [BusReply.resume] using h.symm⟩
  | busFault => exact .inr ⟨rfl, by simpa [BusReply.resume] using h.symm⟩
  | fault e => simp [BusReply.resume] at h
  | refused e => simp [BusReply.resume] at h

/-! ### Reads -/

/-- A read that is done drew some bytes and changed nothing else. -/
theorem memRead_done {a : Nat} {w : Width} {s t : State} {v : Word} (h : memRead a w s = .done (v, t)) :
    a + w.bytes ≤ Config.addressSpace ∧ s.platform.busFault ⟨a, w, .read⟩ = false ∧
      v = leValue (readBytes s w.bytes a s.draws).1 ∧
      t = { s with draws := (readBytes s w.bytes a s.draws).2 } := by
  unfold memRead at h
  split at h
  · cases h
  · split at h
    · cases h
    · next h1 h2 => cases h; exact ⟨by omega, by simpa using h2, rfl, rfl⟩

/-- A read faults exactly where BUS_FAULT says so, inside the address space (R55). -/
theorem memRead_busFault {a : Nat} {w : Width} {s : State} :
    memRead a w s = .busFault ↔ a + w.bytes ≤ Config.addressSpace ∧ s.platform.busFault ⟨a, w, .read⟩ = true := by
  unfold memRead
  split
  · simp; omega
  · split
    · next h1 h2 => simp [h2]; omega
    · next h1 h2 => simp [h2]

/-- A read whose access does not fault is done. -/
theorem memRead_of_noFault {a : Nat} {w : Width} {s : State} (h1 : a + w.bytes ≤ Config.addressSpace)
    (h2 : s.platform.busFault ⟨a, w, .read⟩ = false) :
    memRead a w s = .done (leValue (readBytes s w.bytes a s.draws).1,
      { s with draws := (readBytes s w.bytes a s.draws).2 }) := by
  unfold memRead
  rw [if_neg (by omega), if_neg (by simp [h2])]

/-- Bytes of ordinary memory are memory's, and none is drawn. -/
theorem readBytes_ordinary (s : State) (n a draws : Nat)
    (h : ∀ i < n, s.platform.isDevice (a + i) = false) :
    readBytes s n a draws = ((List.range n).map fun i => s.mem.read (a + i), draws) := by
  induction n generalizing a with
  | zero => rfl
  | succ n ih =>
    have h0 : s.platform.isDevice a = false := by simpa using h 0 (by omega)
    have h1 := ih (a + 1) fun i hi => by simpa [Nat.add_assoc, Nat.add_comm 1 i] using h (i + 1) (by omega)
    simp only [readBytes, h0, h1, List.range_succ_eq_map, List.map_cons, List.map_map]
    simp [Function.comp_def, Nat.add_assoc, Nat.add_comm 1]

/-- A read of ordinary memory, at any width. -/
theorem memRead_ordinary {a : Nat} {w : Width} {s : State} (h1 : a + w.bytes ≤ Config.addressSpace)
    (h2 : s.platform.busFault ⟨a, w, .read⟩ = false) (h3 : ∀ i < w.bytes, s.platform.isDevice (a + i) = false) :
    memRead a w s = .done (leValue ((List.range w.bytes).map fun i => s.mem.read (a + i)), s) := by
  rw [memRead_of_noFault h1 h2, readBytes_ordinary s _ a _ h3]

/-- A byte read of ordinary memory. -/
theorem memRead_byte {a : Nat} {s : State} (h1 : a < Config.addressSpace)
    (h2 : s.platform.busFault ⟨a, .byte, .read⟩ = false) (h3 : s.platform.isDevice a = false) :
    memRead a .byte s = .done ((s.mem.read a).setWidth 32, s) := by
  rw [memRead_ordinary (w := .byte) (by simp only [Width.bytes]; omega) h2 fun i hi => by
    have : i = 0 := by simp only [Width.bytes] at hi; omega
    simpa [this] using h3]
  simp [Width.bytes, leValue, List.range_succ]

/-- A word read of ordinary memory. -/
theorem memRead_word {a : Nat} {s : State} (h1 : a + 4 ≤ Config.addressSpace)
    (h2 : s.platform.busFault ⟨a, .word, .read⟩ = false) (h3 : ∀ i < 4, s.platform.isDevice (a + i) = false) :
    memRead a .word s = .done (s.mem.word a, s) := by
  rw [memRead_ordinary (w := .word) h1 h2 h3]
  simp [Width.bytes, Memory.word, List.range_succ]

/-- A read beyond the address space faults (R45). -/
theorem memRead_outside {a : Nat} {w : Width} (s : State) (h : Config.addressSpace < a + w.bytes) :
    memRead a w s = .fault .outsideAddressSpace := if_pos h

/-! ### Writes -/

theorem touchesDevice_eq_false {p : Platform} {n a : Nat} :
    touchesDevice p n a = false ↔ ∀ i < n, p.isDevice (a + i) = false := by
  induction n generalizing a with
  | zero => simp [touchesDevice]
  | succ n ih =>
    simp only [touchesDevice, Bool.or_eq_false_iff, ih]
    constructor
    · rintro ⟨h0, h⟩ i hi
      cases i with
      | zero => simpa using h0
      | succ i => simpa [Nat.add_assoc, Nat.add_comm 1] using h i (by omega)
    · intro h
      exact ⟨by simpa using h 0 (by omega), fun i hi => by
        simpa [Nat.add_assoc, Nat.add_comm 1] using h (i + 1) (by omega)⟩

/-- A write that is done stored its bytes in ordinary memory and changed nothing else. -/
theorem memWrite_done {a : Nat} {w : Width} {v : Word} {s t : State} (h : memWrite a w v s = .done t) :
    a + w.bytes ≤ Config.addressSpace ∧ s.platform.busFault ⟨a, w, .write⟩ = false ∧
      (∀ i < w.bytes, s.platform.isDevice (a + i) = false) ∧
      t = { s with mem := s.mem.writeBytes a (leBytes w.bytes v) } := by
  unfold memWrite at h
  split at h
  · cases h
  · split at h
    · cases h
    · split at h
      · cases h
      · next h1 h2 h3 =>
        cases h
        exact ⟨by omega, by simpa using h2, touchesDevice_eq_false.mp (by simpa using h3), rfl⟩

/-- A write faults exactly where BUS_FAULT says so, inside the address space (R55). -/
theorem memWrite_busFault {a : Nat} {w : Width} {v : Word} {s : State} :
    memWrite a w v s = .busFault ↔ a + w.bytes ≤ Config.addressSpace ∧ s.platform.busFault ⟨a, w, .write⟩ = true := by
  unfold memWrite
  split
  · simp; omega
  · split
    · next h1 h2 => simp [h2]; omega
    · next h1 h2 => split <;> simp [h2]

/-- A write to ordinary memory whose access does not fault is done. -/
theorem memWrite_ordinary {a : Nat} {w : Width} {v : Word} {s : State} (h1 : a + w.bytes ≤ Config.addressSpace)
    (h2 : s.platform.busFault ⟨a, w, .write⟩ = false) (h3 : ∀ i < w.bytes, s.platform.isDevice (a + i) = false) :
    memWrite a w v s = .done { s with mem := s.mem.writeBytes a (leBytes w.bytes v) } := by
  unfold memWrite
  rw [if_neg (by omega), if_neg (by simp [h2]), if_neg (by simp [touchesDevice_eq_false.mpr h3])]

/-- The one byte of a byte write. -/
theorem leBytes_byte (b : Byte) : leBytes Width.byte.bytes (b.setWidth 32) = [b] := by
  simp only [Width.bytes, leBytes, List.cons.injEq, and_true]
  ext i hi
  simp

/-- A write beyond the address space faults (R45). -/
theorem memWrite_outside {a : Nat} {w : Width} (v : Word) (s : State) (h : Config.addressSpace < a + w.bytes) :
    memWrite a w v s = .fault .outsideAddressSpace := if_pos h

/-- A write that reaches a device is refused (R56). -/
theorem memWrite_device {a : Nat} {w : Width} (v : Word) {s : State} (h1 : a + w.bytes ≤ Config.addressSpace)
    (h2 : s.platform.busFault ⟨a, w, .write⟩ = false) (h3 : ∃ i < w.bytes, s.platform.isDevice (a + i) = true) :
    memWrite a w v s = .refused .deviceWrite := by
  have h : touchesDevice s.platform w.bytes a = true := by
    by_contra hc
    obtain ⟨i, hi, hd⟩ := h3
    simp [touchesDevice_eq_false.mp (by simpa using hc) i hi] at hd
  unfold memWrite
  rw [if_neg (by omega), if_neg (by simp [h2]), if_pos h]

/-- What a write stored is read back there, at any width (R49, R58). -/
theorem leValue_writeBytes (m : Memory) (a n : Nat) (v : Word) :
    leValue ((List.range n).map fun i => (m.writeBytes a (leBytes n v)).read (a + i)) =
      BitVec.ofNat 32 (v.toNat % 2 ^ (8 * n)) := by
  have := Memory.readBack_writeBytes m a (leBytes n v)
  rw [length_leBytes] at this
  rw [this, leValue_leBytes]

/-- A word write of ordinary memory reads back as the word (R49). -/
theorem word_writeBytes (m : Memory) (a : Nat) (v : Word) :
    Memory.word (m.writeBytes a (leBytes Width.word.bytes v)) a = v := by
  have h := congrArg leValue (Memory.readBack_writeBytes m a (leBytes 4 v))
  rw [leValue_leBytes_four] at h
  simpa [Width.bytes, Memory.word, List.range_succ] using h

/-- The word at an address depends only on its four bytes. -/
theorem word_congr {m m' : Memory} {a : Nat} (h : ∀ i < 4, m.read (a + i) = m'.read (a + i)) : m.word a = m'.word a := by
  have h0 := h 0 (by omega)
  simp only [Nat.add_zero] at h0
  simp only [Memory.word, h0, h 1 (by omega), h 2 (by omega), h 3 (by omega)]

end Sys2Proof.Machine
end

