-- ==== Sys2Proof/Laws/Operands.lean ====
section
/-! SUPPORT. The windows of a command and the tests of CHECK as statements about numbers (spec/20_memory.md R50, R51,
spec/44_dispatcher.md R112). -/

namespace Sys2Proof.Machine

theorem crossesTop_iff (w : Window) : w.crossesTop = true ↔ 2 ^ 32 < w.base + w.length := by
  simp [Window.crossesTop, Config.addressSpace]

/-- Two windows overlap exactly when they share a byte (R50). -/
theorem overlaps_iff (v w : Window) : v.overlaps w = true ↔ ∃ a, v.Contains a ∧ w.Contains a := by
  simp only [Window.overlaps, Window.Contains, Bool.and_eq_true, bne_iff_ne, decide_eq_true_eq]
  constructor
  · rintro ⟨⟨⟨h1, h2⟩, h3⟩, h4⟩
    exact ⟨max v.base w.base, by omega⟩
  · rintro ⟨a, h⟩; omega

/-- The two low bits of an address are 00 exactly when it is a multiple of 4. -/
theorem lowBits_eq_zero (v : Word) : v.extractLsb' 0 2 = 0 ↔ v.toNat % 4 = 0 := by
  rw [← BitVec.toNat_inj]; simp [BitVec.extractLsb'_toNat]

theorem bufferLength_eq (r : Regs) : bufferLength r = 64 * r.NBLK.toNat := by
  simp [bufferLength, blockCount, Config.blockBytes, Nat.mul_comm]

/-- What a passed CHECK says, one test at a time. -/
theorem check_passed {r : Regs} (h : check r = .none) :
    r.SRC_LEN.toNat = bufferLength r ∧ r.DST_LEN.toNat = bufferLength r ∧ r.STATE_ADDR.toNat % 4 = 0 ∧
      r.STATE_ADDR.toNat + 64 ≤ 2 ^ 32 ∧ r.SRC_ADDR.toNat + bufferLength r ≤ 2 ^ 32 ∧
      r.DST_ADDR.toNat + bufferLength r ≤ 2 ^ 32 ∧
      (stateWindow r).overlaps (inputWindow r) = false ∧ (stateWindow r).overlaps (outputWindow r) = false := by
  unfold check at h
  split at h
  · cases h
  · next h1 =>
    split at h
    · cases h
    · next h2 =>
      split at h
      · cases h
      · next h3 =>
        split at h
        · cases h
        · next h4 =>
          simp only [Bool.or_eq_true, crossesTop_iff, not_or, stateWindow, inputWindow, outputWindow, Config.stateBytes,
            not_lt] at h3
          simp only [Bool.or_eq_true, not_or, Bool.not_eq_true] at h4
          exact ⟨by omega, by omega, (lowBits_eq_zero _).mp (by simpa using h2), h3.1.1, h3.1.2, h3.2, h4.1, h4.2⟩

end Sys2Proof.Machine
end

