-- ==== Sys2Proof/Laws/State.lean ====
section
/-! SUPPORT. One lemma per field per update of the state, so that no later proof unfolds a record update. The lemma
`<update>_<field>` says what the update leaves in the field. -/

namespace Sys2Proof.Machine

/-! ### replyRead -/

@[simp] theorem replyRead_regs (v : Word) (s : State) : (replyRead v s).regs = s.regs := rfl
@[simp] theorem replyRead_seq (v : Word) (s : State) : (replyRead v s).seq = s.seq := rfl
@[simp] theorem replyRead_mem (v : Word) (s : State) : (replyRead v s).mem = s.mem := rfl
@[simp] theorem replyRead_platform (v : Word) (s : State) : (replyRead v s).platform = s.platform := rfl
@[simp] theorem replyRead_turns (v : Word) (s : State) : (replyRead v s).turns = s.turns := rfl
@[simp] theorem replyRead_draws (v : Word) (s : State) : (replyRead v s).draws = s.draws := rfl
@[simp] theorem replyRead_rdata (v : Word) (s : State) : (replyRead v s).rdata = some v := rfl

/-! ### writeConfig -/

@[simp] theorem writeConfig_seq (f : Regs → Regs) (s : State) :
    (writeConfig f s).seq = s.seq := by unfold writeConfig; split <;> rfl
@[simp] theorem writeConfig_mem (f : Regs → Regs) (s : State) :
    (writeConfig f s).mem = s.mem := by unfold writeConfig; split <;> rfl
@[simp] theorem writeConfig_platform (f : Regs → Regs) (s : State) :
    (writeConfig f s).platform = s.platform := by unfold writeConfig; split <;> rfl
@[simp] theorem writeConfig_turns (f : Regs → Regs) (s : State) :
    (writeConfig f s).turns = s.turns := by unfold writeConfig; split <;> rfl
@[simp] theorem writeConfig_rdata (f : Regs → Regs) (s : State) :
    (writeConfig f s).rdata = s.rdata := by unfold writeConfig; split <;> rfl
@[simp] theorem writeConfig_draws (f : Regs → Regs) (s : State) :
    (writeConfig f s).draws = s.draws := by unfold writeConfig; split <;> rfl
theorem writeConfig_busy (f : Regs → Regs) {s : State} (h : s.regs.STATUS.BUSY = true) : writeConfig f s = s := by
  simp [writeConfig, h]

theorem writeConfig_idle (f : Regs → Regs) {s : State} (h : s.regs.STATUS.BUSY = false) :
    writeConfig f s = { s with regs := f s.regs } := by
  simp [writeConfig, h]


/-! ### mapStatus -/

@[simp] theorem mapStatus_seq (f : Status → Status) (s : State) : (mapStatus f s).seq = s.seq := rfl
@[simp] theorem mapStatus_mem (f : Status → Status) (s : State) : (mapStatus f s).mem = s.mem := rfl
@[simp] theorem mapStatus_platform (f : Status → Status) (s : State) : (mapStatus f s).platform = s.platform := rfl
@[simp] theorem mapStatus_turns (f : Status → Status) (s : State) : (mapStatus f s).turns = s.turns := rfl
@[simp] theorem mapStatus_rdata (f : Status → Status) (s : State) : (mapStatus f s).rdata = s.rdata := rfl
@[simp] theorem mapStatus_draws (f : Status → Status) (s : State) : (mapStatus f s).draws = s.draws := rfl
@[simp] theorem mapStatus_CTRL (f : Status → Status) (s : State) : (mapStatus f s).regs.CTRL = s.regs.CTRL := rfl
@[simp] theorem mapStatus_BLKDONE (f : Status → Status) (s : State) :
    (mapStatus f s).regs.BLKDONE = s.regs.BLKDONE := rfl
@[simp] theorem mapStatus_NBLK (f : Status → Status) (s : State) : (mapStatus f s).regs.NBLK = s.regs.NBLK := rfl
@[simp] theorem mapStatus_STATE_ADDR (f : Status → Status) (s : State) :
    (mapStatus f s).regs.STATE_ADDR = s.regs.STATE_ADDR := rfl
@[simp] theorem mapStatus_SRC_ADDR (f : Status → Status) (s : State) :
    (mapStatus f s).regs.SRC_ADDR = s.regs.SRC_ADDR := rfl
@[simp] theorem mapStatus_DST_ADDR (f : Status → Status) (s : State) :
    (mapStatus f s).regs.DST_ADDR = s.regs.DST_ADDR := rfl
@[simp] theorem mapStatus_SRC_LEN (f : Status → Status) (s : State) :
    (mapStatus f s).regs.SRC_LEN = s.regs.SRC_LEN := rfl
@[simp] theorem mapStatus_DST_LEN (f : Status → Status) (s : State) :
    (mapStatus f s).regs.DST_LEN = s.regs.DST_LEN := rfl
@[simp] theorem mapStatus_STATUS (f : Status → Status) (s : State) :
    (mapStatus f s).regs.STATUS = f s.regs.STATUS := rfl

/-! ### recordError -/

@[simp] theorem recordError_seq (e : ErrCode) (s : State) : (recordError e s).seq = s.seq := rfl
@[simp] theorem recordError_mem (e : ErrCode) (s : State) : (recordError e s).mem = s.mem := rfl
@[simp] theorem recordError_platform (e : ErrCode) (s : State) : (recordError e s).platform = s.platform := rfl
@[simp] theorem recordError_turns (e : ErrCode) (s : State) : (recordError e s).turns = s.turns := rfl
@[simp] theorem recordError_rdata (e : ErrCode) (s : State) : (recordError e s).rdata = s.rdata := rfl
@[simp] theorem recordError_draws (e : ErrCode) (s : State) : (recordError e s).draws = s.draws := rfl
@[simp] theorem recordError_CTRL (e : ErrCode) (s : State) : (recordError e s).regs.CTRL = s.regs.CTRL := rfl
@[simp] theorem recordError_BLKDONE (e : ErrCode) (s : State) : (recordError e s).regs.BLKDONE = s.regs.BLKDONE := rfl
@[simp] theorem recordError_NBLK (e : ErrCode) (s : State) : (recordError e s).regs.NBLK = s.regs.NBLK := rfl
@[simp] theorem recordError_STATE_ADDR (e : ErrCode) (s : State) :
    (recordError e s).regs.STATE_ADDR = s.regs.STATE_ADDR := rfl
@[simp] theorem recordError_SRC_ADDR (e : ErrCode) (s : State) :
    (recordError e s).regs.SRC_ADDR = s.regs.SRC_ADDR := rfl
@[simp] theorem recordError_DST_ADDR (e : ErrCode) (s : State) :
    (recordError e s).regs.DST_ADDR = s.regs.DST_ADDR := rfl
@[simp] theorem recordError_SRC_LEN (e : ErrCode) (s : State) : (recordError e s).regs.SRC_LEN = s.regs.SRC_LEN := rfl
@[simp] theorem recordError_DST_LEN (e : ErrCode) (s : State) : (recordError e s).regs.DST_LEN = s.regs.DST_LEN := rfl
@[simp] theorem recordError_STATUS (e : ErrCode) (s : State) : (recordError e s).regs.STATUS =
    { s.regs.STATUS with ERR := true, ERRCODE := e } := rfl

/-! ### signalDone -/

@[simp] theorem signalDone_seq (s : State) : (signalDone s).seq = s.seq := rfl
@[simp] theorem signalDone_mem (s : State) : (signalDone s).mem = s.mem := rfl
@[simp] theorem signalDone_platform (s : State) : (signalDone s).platform = s.platform := rfl
@[simp] theorem signalDone_turns (s : State) : (signalDone s).turns = s.turns := rfl
@[simp] theorem signalDone_rdata (s : State) : (signalDone s).rdata = s.rdata := rfl
@[simp] theorem signalDone_draws (s : State) : (signalDone s).draws = s.draws := rfl
@[simp] theorem signalDone_CTRL (s : State) : (signalDone s).regs.CTRL = s.regs.CTRL := rfl
@[simp] theorem signalDone_BLKDONE (s : State) : (signalDone s).regs.BLKDONE = s.regs.BLKDONE := rfl
@[simp] theorem signalDone_NBLK (s : State) : (signalDone s).regs.NBLK = s.regs.NBLK := rfl
@[simp] theorem signalDone_STATE_ADDR (s : State) : (signalDone s).regs.STATE_ADDR = s.regs.STATE_ADDR := rfl
@[simp] theorem signalDone_SRC_ADDR (s : State) : (signalDone s).regs.SRC_ADDR = s.regs.SRC_ADDR := rfl
@[simp] theorem signalDone_DST_ADDR (s : State) : (signalDone s).regs.DST_ADDR = s.regs.DST_ADDR := rfl
@[simp] theorem signalDone_SRC_LEN (s : State) : (signalDone s).regs.SRC_LEN = s.regs.SRC_LEN := rfl
@[simp] theorem signalDone_DST_LEN (s : State) : (signalDone s).regs.DST_LEN = s.regs.DST_LEN := rfl
@[simp] theorem signalDone_STATUS (s : State) :
    (signalDone s).regs.STATUS = { s.regs.STATUS with DONE := true } := rfl

/-! ### clearBlkdone -/

@[simp] theorem clearBlkdone_seq (s : State) : (clearBlkdone s).seq = s.seq := rfl
@[simp] theorem clearBlkdone_mem (s : State) : (clearBlkdone s).mem = s.mem := rfl
@[simp] theorem clearBlkdone_platform (s : State) : (clearBlkdone s).platform = s.platform := rfl
@[simp] theorem clearBlkdone_turns (s : State) : (clearBlkdone s).turns = s.turns := rfl
@[simp] theorem clearBlkdone_rdata (s : State) : (clearBlkdone s).rdata = s.rdata := rfl
@[simp] theorem clearBlkdone_draws (s : State) : (clearBlkdone s).draws = s.draws := rfl
@[simp] theorem clearBlkdone_CTRL (s : State) : (clearBlkdone s).regs.CTRL = s.regs.CTRL := rfl
@[simp] theorem clearBlkdone_STATUS (s : State) : (clearBlkdone s).regs.STATUS = s.regs.STATUS := rfl
@[simp] theorem clearBlkdone_NBLK (s : State) : (clearBlkdone s).regs.NBLK = s.regs.NBLK := rfl
@[simp] theorem clearBlkdone_STATE_ADDR (s : State) : (clearBlkdone s).regs.STATE_ADDR = s.regs.STATE_ADDR := rfl
@[simp] theorem clearBlkdone_SRC_ADDR (s : State) : (clearBlkdone s).regs.SRC_ADDR = s.regs.SRC_ADDR := rfl
@[simp] theorem clearBlkdone_DST_ADDR (s : State) : (clearBlkdone s).regs.DST_ADDR = s.regs.DST_ADDR := rfl
@[simp] theorem clearBlkdone_SRC_LEN (s : State) : (clearBlkdone s).regs.SRC_LEN = s.regs.SRC_LEN := rfl
@[simp] theorem clearBlkdone_DST_LEN (s : State) : (clearBlkdone s).regs.DST_LEN = s.regs.DST_LEN := rfl
@[simp] theorem clearBlkdone_BLKDONE (s : State) : (clearBlkdone s).regs.BLKDONE = 0 := rfl

/-! ### failCommand (R134) -/

@[simp] theorem failCommand_seq (e : ErrCode) (s : State) : (failCommand e s).seq = s.seq := rfl
@[simp] theorem failCommand_mem (e : ErrCode) (s : State) : (failCommand e s).mem = s.mem := rfl
@[simp] theorem failCommand_platform (e : ErrCode) (s : State) : (failCommand e s).platform = s.platform := rfl
@[simp] theorem failCommand_turns (e : ErrCode) (s : State) : (failCommand e s).turns = s.turns := rfl
@[simp] theorem failCommand_rdata (e : ErrCode) (s : State) : (failCommand e s).rdata = s.rdata := rfl
@[simp] theorem failCommand_draws (e : ErrCode) (s : State) : (failCommand e s).draws = s.draws := rfl
@[simp] theorem failCommand_CTRL (e : ErrCode) (s : State) : (failCommand e s).regs.CTRL = s.regs.CTRL := rfl
@[simp] theorem failCommand_NBLK (e : ErrCode) (s : State) : (failCommand e s).regs.NBLK = s.regs.NBLK := rfl
@[simp] theorem failCommand_STATE_ADDR (e : ErrCode) (s : State) :
    (failCommand e s).regs.STATE_ADDR = s.regs.STATE_ADDR := rfl
@[simp] theorem failCommand_SRC_ADDR (e : ErrCode) (s : State) :
    (failCommand e s).regs.SRC_ADDR = s.regs.SRC_ADDR := rfl
@[simp] theorem failCommand_DST_ADDR (e : ErrCode) (s : State) :
    (failCommand e s).regs.DST_ADDR = s.regs.DST_ADDR := rfl
@[simp] theorem failCommand_SRC_LEN (e : ErrCode) (s : State) : (failCommand e s).regs.SRC_LEN = s.regs.SRC_LEN := rfl
@[simp] theorem failCommand_DST_LEN (e : ErrCode) (s : State) : (failCommand e s).regs.DST_LEN = s.regs.DST_LEN := rfl
@[simp] theorem failCommand_BLKDONE (e : ErrCode) (s : State) : (failCommand e s).regs.BLKDONE = 0 := rfl
@[simp] theorem failCommand_STATUS (e : ErrCode) (s : State) : (failCommand e s).regs.STATUS =
    { s.regs.STATUS with DONE := true, ERR := true, ERRCODE := e } := rfl

/-! ### takeBusFault (R127) -/

@[simp] theorem takeBusFault_mem (s : State) : (takeBusFault s).mem = s.mem := rfl
@[simp] theorem takeBusFault_platform (s : State) : (takeBusFault s).platform = s.platform := rfl
@[simp] theorem takeBusFault_turns (s : State) : (takeBusFault s).turns = s.turns := rfl
@[simp] theorem takeBusFault_rdata (s : State) : (takeBusFault s).rdata = s.rdata := rfl
@[simp] theorem takeBusFault_draws (s : State) : (takeBusFault s).draws = s.draws := rfl
@[simp] theorem takeBusFault_CTRL (s : State) : (takeBusFault s).regs.CTRL = s.regs.CTRL := rfl
@[simp] theorem takeBusFault_BLKDONE (s : State) : (takeBusFault s).regs.BLKDONE = s.regs.BLKDONE := rfl
@[simp] theorem takeBusFault_NBLK (s : State) : (takeBusFault s).regs.NBLK = s.regs.NBLK := rfl
@[simp] theorem takeBusFault_STATE_ADDR (s : State) : (takeBusFault s).regs.STATE_ADDR = s.regs.STATE_ADDR := rfl
@[simp] theorem takeBusFault_SRC_ADDR (s : State) : (takeBusFault s).regs.SRC_ADDR = s.regs.SRC_ADDR := rfl
@[simp] theorem takeBusFault_DST_ADDR (s : State) : (takeBusFault s).regs.DST_ADDR = s.regs.DST_ADDR := rfl
@[simp] theorem takeBusFault_SRC_LEN (s : State) : (takeBusFault s).regs.SRC_LEN = s.regs.SRC_LEN := rfl
@[simp] theorem takeBusFault_DST_LEN (s : State) : (takeBusFault s).regs.DST_LEN = s.regs.DST_LEN := rfl
@[simp] theorem takeBusFault_S (s : State) : (takeBusFault s).seq.S = s.seq.S := rfl
@[simp] theorem takeBusFault_CTR (s : State) : (takeBusFault s).seq.CTR = s.seq.CTR := rfl
@[simp] theorem takeBusFault_REM (s : State) : (takeBusFault s).seq.REM = s.seq.REM := rfl
@[simp] theorem takeBusFault_CUR (s : State) : (takeBusFault s).seq.CUR = s.seq.CUR := rfl
@[simp] theorem takeBusFault_N (s : State) : (takeBusFault s).seq.N = s.seq.N := rfl
@[simp] theorem takeBusFault_LI (s : State) : (takeBusFault s).seq.LI = s.seq.LI := rfl
@[simp] theorem takeBusFault_IN (s : State) : (takeBusFault s).seq.IN = s.seq.IN := rfl
@[simp] theorem takeBusFault_KS (s : State) : (takeBusFault s).seq.KS = s.seq.KS := rfl
@[simp] theorem takeBusFault_X (s : State) : (takeBusFault s).seq.X = s.seq.X := rfl
@[simp] theorem takeBusFault_STATUS (s : State) : (takeBusFault s).regs.STATUS =
    { s.regs.STATUS with ERR := true, ERRCODE := .bus } := rfl
@[simp] theorem takeBusFault_IDX (s : State) : (takeBusFault s).seq.IDX = 0 := rfl
@[simp] theorem takeBusFault_PHASE (s : State) : (takeBusFault s).seq.PHASE = .fin := rfl

/-! ### acknowledge (R136) -/

@[simp] theorem acknowledge_seq (v : Word) (s : State) : (acknowledge v s).seq = s.seq := rfl
@[simp] theorem acknowledge_mem (v : Word) (s : State) : (acknowledge v s).mem = s.mem := rfl
@[simp] theorem acknowledge_platform (v : Word) (s : State) : (acknowledge v s).platform = s.platform := rfl
@[simp] theorem acknowledge_turns (v : Word) (s : State) : (acknowledge v s).turns = s.turns := rfl
@[simp] theorem acknowledge_rdata (v : Word) (s : State) : (acknowledge v s).rdata = s.rdata := rfl
@[simp] theorem acknowledge_draws (v : Word) (s : State) : (acknowledge v s).draws = s.draws := rfl
@[simp] theorem acknowledge_CTRL (v : Word) (s : State) : (acknowledge v s).regs.CTRL = s.regs.CTRL := rfl
@[simp] theorem acknowledge_BLKDONE (v : Word) (s : State) : (acknowledge v s).regs.BLKDONE = s.regs.BLKDONE := rfl
@[simp] theorem acknowledge_NBLK (v : Word) (s : State) : (acknowledge v s).regs.NBLK = s.regs.NBLK := rfl
@[simp] theorem acknowledge_STATE_ADDR (v : Word) (s : State) :
    (acknowledge v s).regs.STATE_ADDR = s.regs.STATE_ADDR := rfl
@[simp] theorem acknowledge_SRC_ADDR (v : Word) (s : State) : (acknowledge v s).regs.SRC_ADDR = s.regs.SRC_ADDR := rfl
@[simp] theorem acknowledge_DST_ADDR (v : Word) (s : State) : (acknowledge v s).regs.DST_ADDR = s.regs.DST_ADDR := rfl
@[simp] theorem acknowledge_SRC_LEN (v : Word) (s : State) : (acknowledge v s).regs.SRC_LEN = s.regs.SRC_LEN := rfl
@[simp] theorem acknowledge_DST_LEN (v : Word) (s : State) : (acknowledge v s).regs.DST_LEN = s.regs.DST_LEN := rfl
@[simp] theorem acknowledge_STATUS (v : Word) (s : State) :
    (acknowledge v s).regs.STATUS = s.regs.STATUS.writeOneToClear v := rfl

/-! ### applyReset (R144) -/

@[simp] theorem applyReset_mem (s : State) : (applyReset s).mem = s.mem := rfl
@[simp] theorem applyReset_platform (s : State) : (applyReset s).platform = s.platform := rfl
@[simp] theorem applyReset_turns (s : State) : (applyReset s).turns = s.turns := rfl
@[simp] theorem applyReset_rdata (s : State) : (applyReset s).rdata = s.rdata := rfl
@[simp] theorem applyReset_draws (s : State) : (applyReset s).draws = s.draws := rfl
@[simp] theorem applyReset_regs (s : State) : (applyReset s).regs = Regs.reset := rfl
@[simp] theorem applyReset_seq (s : State) : (applyReset s).seq = Sequencer.reset := rfl

/-! ### busyCommand (R110) -/

@[simp] theorem busyCommand_seq (s : State) : (busyCommand s).seq = s.seq := rfl
@[simp] theorem busyCommand_mem (s : State) : (busyCommand s).mem = s.mem := rfl
@[simp] theorem busyCommand_platform (s : State) : (busyCommand s).platform = s.platform := rfl
@[simp] theorem busyCommand_turns (s : State) : (busyCommand s).turns = s.turns := rfl
@[simp] theorem busyCommand_rdata (s : State) : (busyCommand s).rdata = s.rdata := rfl
@[simp] theorem busyCommand_draws (s : State) : (busyCommand s).draws = s.draws := rfl
@[simp] theorem busyCommand_CTRL (s : State) : (busyCommand s).regs.CTRL = s.regs.CTRL := rfl
@[simp] theorem busyCommand_BLKDONE (s : State) : (busyCommand s).regs.BLKDONE = s.regs.BLKDONE := rfl
@[simp] theorem busyCommand_NBLK (s : State) : (busyCommand s).regs.NBLK = s.regs.NBLK := rfl
@[simp] theorem busyCommand_STATE_ADDR (s : State) : (busyCommand s).regs.STATE_ADDR = s.regs.STATE_ADDR := rfl
@[simp] theorem busyCommand_SRC_ADDR (s : State) : (busyCommand s).regs.SRC_ADDR = s.regs.SRC_ADDR := rfl
@[simp] theorem busyCommand_DST_ADDR (s : State) : (busyCommand s).regs.DST_ADDR = s.regs.DST_ADDR := rfl
@[simp] theorem busyCommand_SRC_LEN (s : State) : (busyCommand s).regs.SRC_LEN = s.regs.SRC_LEN := rfl
@[simp] theorem busyCommand_DST_LEN (s : State) : (busyCommand s).regs.DST_LEN = s.regs.DST_LEN := rfl
@[simp] theorem busyCommand_STATUS (s : State) :
    (busyCommand s).regs.STATUS = { s.regs.STATUS with IGN := true } := rfl

/-! ### startClear (R111) -/

@[simp] theorem startClear_seq (s : State) : (startClear s).seq = s.seq := rfl
@[simp] theorem startClear_mem (s : State) : (startClear s).mem = s.mem := rfl
@[simp] theorem startClear_platform (s : State) : (startClear s).platform = s.platform := rfl
@[simp] theorem startClear_turns (s : State) : (startClear s).turns = s.turns := rfl
@[simp] theorem startClear_rdata (s : State) : (startClear s).rdata = s.rdata := rfl
@[simp] theorem startClear_draws (s : State) : (startClear s).draws = s.draws := rfl
@[simp] theorem startClear_CTRL (s : State) : (startClear s).regs.CTRL = s.regs.CTRL := rfl
@[simp] theorem startClear_NBLK (s : State) : (startClear s).regs.NBLK = s.regs.NBLK := rfl
@[simp] theorem startClear_STATE_ADDR (s : State) : (startClear s).regs.STATE_ADDR = s.regs.STATE_ADDR := rfl
@[simp] theorem startClear_SRC_ADDR (s : State) : (startClear s).regs.SRC_ADDR = s.regs.SRC_ADDR := rfl
@[simp] theorem startClear_DST_ADDR (s : State) : (startClear s).regs.DST_ADDR = s.regs.DST_ADDR := rfl
@[simp] theorem startClear_SRC_LEN (s : State) : (startClear s).regs.SRC_LEN = s.regs.SRC_LEN := rfl
@[simp] theorem startClear_DST_LEN (s : State) : (startClear s).regs.DST_LEN = s.regs.DST_LEN := rfl
@[simp] theorem startClear_BLKDONE (s : State) : (startClear s).regs.BLKDONE = 0 := rfl
@[simp] theorem startClear_STATUS (s : State) : (startClear s).regs.STATUS =
    { s.regs.STATUS with DONE := false, ERR := false, ERRCODE := .none } := rfl

/-! ### launch (R111) -/

@[simp] theorem launch_mem (s : State) : (launch s).mem = s.mem := rfl
@[simp] theorem launch_platform (s : State) : (launch s).platform = s.platform := rfl
@[simp] theorem launch_turns (s : State) : (launch s).turns = s.turns := rfl
@[simp] theorem launch_rdata (s : State) : (launch s).rdata = s.rdata := rfl
@[simp] theorem launch_draws (s : State) : (launch s).draws = s.draws := rfl
@[simp] theorem launch_CTRL (s : State) : (launch s).regs.CTRL = s.regs.CTRL := rfl
@[simp] theorem launch_BLKDONE (s : State) : (launch s).regs.BLKDONE = s.regs.BLKDONE := rfl
@[simp] theorem launch_NBLK (s : State) : (launch s).regs.NBLK = s.regs.NBLK := rfl
@[simp] theorem launch_STATE_ADDR (s : State) : (launch s).regs.STATE_ADDR = s.regs.STATE_ADDR := rfl
@[simp] theorem launch_SRC_ADDR (s : State) : (launch s).regs.SRC_ADDR = s.regs.SRC_ADDR := rfl
@[simp] theorem launch_DST_ADDR (s : State) : (launch s).regs.DST_ADDR = s.regs.DST_ADDR := rfl
@[simp] theorem launch_SRC_LEN (s : State) : (launch s).regs.SRC_LEN = s.regs.SRC_LEN := rfl
@[simp] theorem launch_DST_LEN (s : State) : (launch s).regs.DST_LEN = s.regs.DST_LEN := rfl
@[simp] theorem launch_S (s : State) : (launch s).seq.S = s.seq.S := rfl
@[simp] theorem launch_CTR (s : State) : (launch s).seq.CTR = s.seq.CTR := rfl
@[simp] theorem launch_IN (s : State) : (launch s).seq.IN = s.seq.IN := rfl
@[simp] theorem launch_KS (s : State) : (launch s).seq.KS = s.seq.KS := rfl
@[simp] theorem launch_X (s : State) : (launch s).seq.X = s.seq.X := rfl
@[simp] theorem launch_STATUS (s : State) : (launch s).regs.STATUS = { s.regs.STATUS with BUSY := true } := rfl
@[simp] theorem launch_PHASE (s : State) : (launch s).seq.PHASE = .load := rfl
@[simp] theorem launch_REM (s : State) : (launch s).seq.REM = s.regs.NBLK := rfl
@[simp] theorem launch_CUR (s : State) : (launch s).seq.CUR = 0 := rfl
@[simp] theorem launch_IDX (s : State) : (launch s).seq.IDX = 0 := rfl
@[simp] theorem launch_N (s : State) : (launch s).seq.N = .zero := rfl
@[simp] theorem launch_LI (s : State) : (launch s).seq.LI = 0 := rfl

/-! ### startCommand (R111) -/

@[simp] theorem startCommand_mem (s : State) : (startCommand s).mem = s.mem := by
  unfold startCommand; dsimp only; split <;> [skip; split] <;> rfl
@[simp] theorem startCommand_platform (s : State) : (startCommand s).platform = s.platform := by
  unfold startCommand; dsimp only; split <;> [skip; split] <;> rfl
@[simp] theorem startCommand_turns (s : State) : (startCommand s).turns = s.turns := by
  unfold startCommand; dsimp only; split <;> [skip; split] <;> rfl
@[simp] theorem startCommand_rdata (s : State) : (startCommand s).rdata = s.rdata := by
  unfold startCommand; dsimp only; split <;> [skip; split] <;> rfl
@[simp] theorem startCommand_draws (s : State) : (startCommand s).draws = s.draws := by
  unfold startCommand; dsimp only; split <;> [skip; split] <;> rfl
@[simp] theorem startCommand_CTRL (s : State) : (startCommand s).regs.CTRL = s.regs.CTRL := by
  unfold startCommand; dsimp only; split <;> [skip; split] <;> rfl
@[simp] theorem startCommand_NBLK (s : State) : (startCommand s).regs.NBLK = s.regs.NBLK := by
  unfold startCommand; dsimp only; split <;> [skip; split] <;> rfl
@[simp] theorem startCommand_STATE_ADDR (s : State) : (startCommand s).regs.STATE_ADDR = s.regs.STATE_ADDR := by
  unfold startCommand; dsimp only; split <;> [skip; split] <;> rfl
@[simp] theorem startCommand_SRC_ADDR (s : State) : (startCommand s).regs.SRC_ADDR = s.regs.SRC_ADDR := by
  unfold startCommand; dsimp only; split <;> [skip; split] <;> rfl
@[simp] theorem startCommand_DST_ADDR (s : State) : (startCommand s).regs.DST_ADDR = s.regs.DST_ADDR := by
  unfold startCommand; dsimp only; split <;> [skip; split] <;> rfl
@[simp] theorem startCommand_SRC_LEN (s : State) : (startCommand s).regs.SRC_LEN = s.regs.SRC_LEN := by
  unfold startCommand; dsimp only; split <;> [skip; split] <;> rfl
@[simp] theorem startCommand_DST_LEN (s : State) : (startCommand s).regs.DST_LEN = s.regs.DST_LEN := by
  unfold startCommand; dsimp only; split <;> [skip; split] <;> rfl
@[simp] theorem startCommand_S (s : State) : (startCommand s).seq.S = s.seq.S := by
  unfold startCommand; dsimp only; split <;> [skip; split] <;> rfl
@[simp] theorem startCommand_CTR (s : State) : (startCommand s).seq.CTR = s.seq.CTR := by
  unfold startCommand; dsimp only; split <;> [skip; split] <;> rfl
@[simp] theorem startCommand_IN (s : State) : (startCommand s).seq.IN = s.seq.IN := by
  unfold startCommand; dsimp only; split <;> [skip; split] <;> rfl
@[simp] theorem startCommand_KS (s : State) : (startCommand s).seq.KS = s.seq.KS := by
  unfold startCommand; dsimp only; split <;> [skip; split] <;> rfl
@[simp] theorem startCommand_X (s : State) : (startCommand s).seq.X = s.seq.X := by
  unfold startCommand; dsimp only; split <;> [skip; split] <;> rfl

/-! ### finish (R119) -/

@[simp] theorem finish_mem (s : State) : (finish s).mem = s.mem := rfl
@[simp] theorem finish_platform (s : State) : (finish s).platform = s.platform := rfl
@[simp] theorem finish_turns (s : State) : (finish s).turns = s.turns := rfl
@[simp] theorem finish_rdata (s : State) : (finish s).rdata = s.rdata := rfl
@[simp] theorem finish_draws (s : State) : (finish s).draws = s.draws := rfl
@[simp] theorem finish_CTRL (s : State) : (finish s).regs.CTRL = s.regs.CTRL := rfl
@[simp] theorem finish_BLKDONE (s : State) : (finish s).regs.BLKDONE = s.regs.BLKDONE := rfl
@[simp] theorem finish_NBLK (s : State) : (finish s).regs.NBLK = s.regs.NBLK := rfl
@[simp] theorem finish_STATE_ADDR (s : State) : (finish s).regs.STATE_ADDR = s.regs.STATE_ADDR := rfl
@[simp] theorem finish_SRC_ADDR (s : State) : (finish s).regs.SRC_ADDR = s.regs.SRC_ADDR := rfl
@[simp] theorem finish_DST_ADDR (s : State) : (finish s).regs.DST_ADDR = s.regs.DST_ADDR := rfl
@[simp] theorem finish_SRC_LEN (s : State) : (finish s).regs.SRC_LEN = s.regs.SRC_LEN := rfl
@[simp] theorem finish_DST_LEN (s : State) : (finish s).regs.DST_LEN = s.regs.DST_LEN := rfl
@[simp] theorem finish_seq (s : State) : (finish s).seq = Sequencer.reset := rfl
@[simp] theorem finish_STATUS (s : State) :
    (finish s).regs.STATUS = { s.regs.STATUS with BUSY := false, DONE := true } := rfl

/-! ### blockDone (R117) -/

@[simp] theorem blockDone_mem (s : State) : (blockDone s).mem = s.mem := rfl
@[simp] theorem blockDone_platform (s : State) : (blockDone s).platform = s.platform := rfl
@[simp] theorem blockDone_turns (s : State) : (blockDone s).turns = s.turns := rfl
@[simp] theorem blockDone_rdata (s : State) : (blockDone s).rdata = s.rdata := rfl
@[simp] theorem blockDone_draws (s : State) : (blockDone s).draws = s.draws := rfl
@[simp] theorem blockDone_CTRL (s : State) : (blockDone s).regs.CTRL = s.regs.CTRL := rfl
@[simp] theorem blockDone_STATUS (s : State) : (blockDone s).regs.STATUS = s.regs.STATUS := rfl
@[simp] theorem blockDone_NBLK (s : State) : (blockDone s).regs.NBLK = s.regs.NBLK := rfl
@[simp] theorem blockDone_STATE_ADDR (s : State) : (blockDone s).regs.STATE_ADDR = s.regs.STATE_ADDR := rfl
@[simp] theorem blockDone_SRC_ADDR (s : State) : (blockDone s).regs.SRC_ADDR = s.regs.SRC_ADDR := rfl
@[simp] theorem blockDone_DST_ADDR (s : State) : (blockDone s).regs.DST_ADDR = s.regs.DST_ADDR := rfl
@[simp] theorem blockDone_SRC_LEN (s : State) : (blockDone s).regs.SRC_LEN = s.regs.SRC_LEN := rfl
@[simp] theorem blockDone_DST_LEN (s : State) : (blockDone s).regs.DST_LEN = s.regs.DST_LEN := rfl
@[simp] theorem blockDone_BLKDONE (s : State) : (blockDone s).regs.BLKDONE = s.regs.BLKDONE + 1 := rfl
@[simp] theorem blockDone_seq (s : State) : (blockDone s).seq = blockConsumed s.seq := rfl

/-! ### outputWritten (R116) -/

@[simp] theorem outputWritten_mem (s : State) : (outputWritten s).mem = s.mem := by
  unfold outputWritten; split <;> rfl
@[simp] theorem outputWritten_platform (s : State) : (outputWritten s).platform = s.platform := by
  unfold outputWritten; split <;> rfl
@[simp] theorem outputWritten_turns (s : State) : (outputWritten s).turns = s.turns := by
  unfold outputWritten; split <;> rfl
@[simp] theorem outputWritten_rdata (s : State) : (outputWritten s).rdata = s.rdata := by
  unfold outputWritten; split <;> rfl
@[simp] theorem outputWritten_draws (s : State) : (outputWritten s).draws = s.draws := by
  unfold outputWritten; split <;> rfl
@[simp] theorem outputWritten_CTRL (s : State) : (outputWritten s).regs.CTRL = s.regs.CTRL := by
  unfold outputWritten; split <;> rfl
@[simp] theorem outputWritten_STATUS (s : State) : (outputWritten s).regs.STATUS = s.regs.STATUS := by
  unfold outputWritten; split <;> rfl
@[simp] theorem outputWritten_NBLK (s : State) : (outputWritten s).regs.NBLK = s.regs.NBLK := by
  unfold outputWritten; split <;> rfl
@[simp] theorem outputWritten_STATE_ADDR (s : State) : (outputWritten s).regs.STATE_ADDR = s.regs.STATE_ADDR := by
  unfold outputWritten; split <;> rfl
@[simp] theorem outputWritten_SRC_ADDR (s : State) : (outputWritten s).regs.SRC_ADDR = s.regs.SRC_ADDR := by
  unfold outputWritten; split <;> rfl
@[simp] theorem outputWritten_DST_ADDR (s : State) : (outputWritten s).regs.DST_ADDR = s.regs.DST_ADDR := by
  unfold outputWritten; split <;> rfl
@[simp] theorem outputWritten_SRC_LEN (s : State) : (outputWritten s).regs.SRC_LEN = s.regs.SRC_LEN := by
  unfold outputWritten; split <;> rfl
@[simp] theorem outputWritten_DST_LEN (s : State) : (outputWritten s).regs.DST_LEN = s.regs.DST_LEN := by
  unfold outputWritten; split <;> rfl

/-! ### counterWritten (R118) -/

@[simp] theorem counterWritten_regs (s : State) : (counterWritten s).regs = s.regs := by
  unfold counterWritten; split <;> rfl
@[simp] theorem counterWritten_mem (s : State) : (counterWritten s).mem = s.mem := by
  unfold counterWritten; split <;> rfl
@[simp] theorem counterWritten_platform (s : State) : (counterWritten s).platform = s.platform := by
  unfold counterWritten; split <;> rfl
@[simp] theorem counterWritten_turns (s : State) : (counterWritten s).turns = s.turns := by
  unfold counterWritten; split <;> rfl
@[simp] theorem counterWritten_rdata (s : State) : (counterWritten s).rdata = s.rdata := by
  unfold counterWritten; split <;> rfl
@[simp] theorem counterWritten_draws (s : State) : (counterWritten s).draws = s.draws := by
  unfold counterWritten; split <;> rfl
@[simp] theorem counterWritten_S (s : State) : (counterWritten s).seq.S = s.seq.S := by
  unfold counterWritten; split <;> rfl
@[simp] theorem counterWritten_CTR (s : State) : (counterWritten s).seq.CTR = s.seq.CTR := by
  unfold counterWritten; split <;> rfl
@[simp] theorem counterWritten_REM (s : State) : (counterWritten s).seq.REM = s.seq.REM := by
  unfold counterWritten; split <;> rfl
@[simp] theorem counterWritten_CUR (s : State) : (counterWritten s).seq.CUR = s.seq.CUR := by
  unfold counterWritten; split <;> rfl
@[simp] theorem counterWritten_N (s : State) : (counterWritten s).seq.N = s.seq.N := by
  unfold counterWritten; split <;> rfl
@[simp] theorem counterWritten_LI (s : State) : (counterWritten s).seq.LI = s.seq.LI := by
  unfold counterWritten; split <;> rfl
@[simp] theorem counterWritten_IN (s : State) : (counterWritten s).seq.IN = s.seq.IN := by
  unfold counterWritten; split <;> rfl
@[simp] theorem counterWritten_KS (s : State) : (counterWritten s).seq.KS = s.seq.KS := by
  unfold counterWritten; split <;> rfl
@[simp] theorem counterWritten_X (s : State) : (counterWritten s).seq.X = s.seq.X := by
  unfold counterWritten; split <;> rfl

/-! ### reservedAccess (R15) -/

@[simp] theorem reservedAccess_regs (w : Bool) (s : State) : (reservedAccess w s).regs = s.regs := by cases w <;> rfl
@[simp] theorem reservedAccess_seq (w : Bool) (s : State) : (reservedAccess w s).seq = s.seq := by cases w <;> rfl
@[simp] theorem reservedAccess_mem (w : Bool) (s : State) : (reservedAccess w s).mem = s.mem := by cases w <;> rfl
@[simp] theorem reservedAccess_platform (w : Bool) (s : State) :
    (reservedAccess w s).platform = s.platform := by cases w <;> rfl
@[simp] theorem reservedAccess_turns (w : Bool) (s : State) :
    (reservedAccess w s).turns = s.turns := by cases w <;> rfl
@[simp] theorem reservedAccess_draws (w : Bool) (s : State) :
    (reservedAccess w s).draws = s.draws := by cases w <;> rfl

/-! ### State.withFetchWord -/

@[simp] theorem withFetchWord_regs (s : State) (nbits w : Nat) : (s.withFetchWord nbits w).regs = s.regs := rfl
@[simp] theorem withFetchWord_seq (s : State) (nbits w : Nat) : (s.withFetchWord nbits w).seq = s.seq := rfl
@[simp] theorem withFetchWord_mem (s : State) (nbits w : Nat) : (s.withFetchWord nbits w).mem = s.mem := rfl
@[simp] theorem withFetchWord_platform (s : State) (nbits w : Nat) :
    (s.withFetchWord nbits w).platform = s.platform := rfl
@[simp] theorem withFetchWord_rdata (s : State) (nbits w : Nat) : (s.withFetchWord nbits w).rdata = s.rdata := rfl
@[simp] theorem withFetchWord_draws (s : State) (nbits w : Nat) : (s.withFetchWord nbits w).draws = s.draws := rfl
@[simp] theorem withFetchWord_turns (s : State) (nbits w : Nat) : (s.withFetchWord nbits w).turns =
    .access (BitVec.ofNat 41 (w % 2 ^ nbits)) :: s.turns := rfl

/-! ### The write of ones to STATUS -/

@[simp] theorem writeOneToClear_BUSY (v : Word) (t : Status) : (t.writeOneToClear v).BUSY = t.BUSY := rfl
@[simp] theorem writeOneToClear_DONE (v : Word) (t : Status) :
    (t.writeOneToClear v).DONE = (t.DONE && !v.getLsbD 1) := rfl
@[simp] theorem writeOneToClear_ERR (v : Word) (t : Status) :
    (t.writeOneToClear v).ERR = (t.ERR && !v.getLsbD 2) := rfl
@[simp] theorem writeOneToClear_IGN (v : Word) (t : Status) :
    (t.writeOneToClear v).IGN = (t.IGN && !v.getLsbD 3) := rfl
@[simp] theorem writeOneToClear_ERRCODE (v : Word) (t : Status) :
    (t.writeOneToClear v).ERRCODE = if v.getLsbD 2 then .none else t.ERRCODE := rfl

end Sys2Proof.Machine
end

