-- ==== Sys2Proof/Laws/Sequencer.lean ====
section
/-! SUPPORT. What one step of CORE can do, said once; and the small lemmas of each step's effect on the sequencer. -/

namespace Sys2Proof.Machine

/-! ### nextAccess by phase -/

theorem nextAccess_load {s : State} (h : s.seq.PHASE = .load) : nextAccess s = some ⟨loadAddr s, .word, .read⟩ := by
  simp [nextAccess, h]

theorem nextAccess_rd {s : State} (h : s.seq.PHASE = .rd) : nextAccess s = some ⟨readAddr s, .byte, .read⟩ := by
  simp [nextAccess, h]

theorem nextAccess_wr {s : State} (h : s.seq.PHASE = .wr) : nextAccess s = some ⟨writeAddr s, .byte, .write⟩ := by
  simp [nextAccess, h]

theorem nextAccess_wb {s : State} (h : s.seq.PHASE = .wb) : nextAccess s = some ⟨writeBackAddr s, .word, .write⟩ := by
  simp [nextAccess, h]

/-! ### One step of CORE, inverted -/

/-- The cases of a step of CORE that answers a next state: none in IDLE, the effect of the phase's rule, or BUSFAULT. -/
inductive CoreCase (s : State) : State → Prop where
  | idle (h : s.seq.PHASE = .idle) : CoreCase s s
  | load (h : s.seq.PHASE = .load) (hi : s.seq.IDX.val < 16) (ha : loadAddr s + 4 ≤ Config.addressSpace)
      (hf : s.platform.busFault ⟨loadAddr s, .word, .read⟩ = false) :
      CoreCase s { s with
        draws := (readBytes s 4 (loadAddr s) s.draws).2
        seq := loaded (leValue (readBytes s 4 (loadAddr s) s.draws).1) s.seq }
  | gen (h : s.seq.PHASE = .gen) : CoreCase s { s with seq := generated s.seq }
  | rd (h : s.seq.PHASE = .rd) (ha : readAddr s < Config.addressSpace)
      (hf : s.platform.busFault ⟨readAddr s, .byte, .read⟩ = false) :
      CoreCase s { s with
        draws := (readBytes s 1 (readAddr s) s.draws).2
        seq := inputRead ((leValue (readBytes s 1 (readAddr s) s.draws).1).setWidth 8) s.seq }
  | wr (h : s.seq.PHASE = .wr) (ha : writeAddr s < Config.addressSpace)
      (hf : s.platform.busFault ⟨writeAddr s, .byte, .write⟩ = false)
      (hd : s.platform.isDevice (writeAddr s) = false) :
      CoreCase s (outputWritten { s with mem := s.mem.write (writeAddr s) (outputByte s.seq) })
  | wb (h : s.seq.PHASE = .wb) (ha : writeBackAddr s + 4 ≤ Config.addressSpace)
      (hf : s.platform.busFault ⟨writeBackAddr s, .word, .write⟩ = false)
      (hd : ∀ i < 4, s.platform.isDevice (writeBackAddr s + i) = false) :
      CoreCase s (counterWritten { s with mem := s.mem.writeBytes (writeBackAddr s) (leBytes 4 (writeBackWord s.seq)) })
  | fin (h : s.seq.PHASE = .fin) : CoreCase s (finish s)
  | busFault (a : BusAccess) (h : nextAccess s = some a) (hf : s.platform.busFault a = true) :
      CoreCase s (takeBusFault s)

/-- Everything a step of CORE can do when it answers a next state. -/
theorem coreStep_cases {s t : State} (h : coreStep s = .next t) : CoreCase s t := by
  unfold coreStep at h
  split at h
  · next hp => cases h; exact .idle hp
  · next hp =>
    unfold loadStep at h
    split at h
    · cases h
    · next hi =>
      rcases resume_next h with ⟨⟨v, u⟩, hr, rfl⟩ | ⟨hr, rfl⟩
      · obtain ⟨h1, h2, rfl, rfl⟩ := memRead_done hr
        exact .load hp (by omega) h1 h2
      · exact .busFault _ (nextAccess_load hp) (memRead_busFault.mp hr).2
  · next hp => cases h; exact .gen hp
  · next hp =>
    rcases resume_next h with ⟨⟨v, u⟩, hr, rfl⟩ | ⟨hr, rfl⟩
    · obtain ⟨h1, h2, rfl, rfl⟩ := memRead_done hr
      exact .rd hp (by simpa [Width.bytes] using h1) h2
    · exact .busFault _ (nextAccess_rd hp) (memRead_busFault.mp hr).2
  · next hp =>
    rcases resume_next h with ⟨u, hr, rfl⟩ | ⟨hr, rfl⟩
    · obtain ⟨h1, h2, h3, rfl⟩ := memWrite_done hr
      rw [leBytes_byte]
      exact .wr hp (by simpa [Width.bytes] using h1) h2 (by simpa using h3 0 (by simp [Width.bytes]))
    · exact .busFault _ (nextAccess_wr hp) (memWrite_busFault.mp hr).2
  · next hp =>
    rcases resume_next h with ⟨u, hr, rfl⟩ | ⟨hr, rfl⟩
    · obtain ⟨h1, h2, h3, rfl⟩ := memWrite_done hr
      exact .wb hp h1 h2 h3
    · exact .busFault _ (nextAccess_wb hp) (memWrite_busFault.mp hr).2
  · next hp => cases h; exact .fin hp

/-! ### The small lemmas of the sequencer's updates -/

theorem loaded_last {v : Word} {q : Sequencer} (h : q.IDX = 15) :
    loaded v q = { q with S := q.S.setIfInBounds 15 v, CTR := counterOf (q.S.setIfInBounds 15 v), IDX := 0, PHASE := .gen } := by
  simp [loaded, h]

theorem loaded_more {v : Word} {q : Sequencer} (h : q.IDX ≠ 15) :
    loaded v q = { q with S := q.S.setIfInBounds q.IDX.val v, IDX := q.IDX + 1 } := by
  simp [loaded, h]

theorem inputRead_last {b : Byte} {q : Sequencer} (h : q.IDX = 63) :
    inputRead b q = { q with IN := q.IN.set q.IDX.val b, IDX := 0, PHASE := .wr } := by
  simp [inputRead, h]

theorem inputRead_more {b : Byte} {q : Sequencer} (h : q.IDX ≠ 63) :
    inputRead b q = { q with IN := q.IN.set q.IDX.val b, IDX := q.IDX + 1 } := by
  simp [inputRead, h]

theorem outputWritten_last {s : State} (h : s.seq.IDX = 63) : outputWritten s = blockDone s := by
  simp [outputWritten, h]

theorem outputWritten_more {s : State} (h : s.seq.IDX ≠ 63) :
    outputWritten s = { s with seq := { s.seq with IDX := s.seq.IDX + 1 } } := by
  simp [outputWritten, h]

theorem counterWritten_low {s : State} (h : s.seq.IDX = 0) :
    counterWritten s = { s with seq := { s.seq with IDX := 1 } } := by
  simp [counterWritten, h]

theorem counterWritten_high {s : State} (h : s.seq.IDX ≠ 0) :
    counterWritten s = { s with seq := { s.seq with IDX := 0, PHASE := .fin } } := by
  simp [counterWritten, h]

theorem chooseTier_lanes (rem : Word) :
    (chooseTier rem).lanes = if 4 ≤ rem.toNat then 4 else if 2 ≤ rem.toNat then 2 else 1 := by
  unfold chooseTier
  split <;> [skip; split] <;> simp [LaneCount.lanes]

@[simp] theorem getElem_generate (q : Sequencer) (n : LaneCount) (l : Nat) (h : l < 4) :
    (generate q n)[l] = if l < n.lanes then laneBlock q.S q.CTR l else q.KS[l] := by
  simp [generate]

/-- CORE's steps leave the platform, the turns and the last value read alone. -/
theorem coreStep_frame {s t : State} (h : coreStep s = .next t) :
    t.platform = s.platform ∧ t.turns = s.turns ∧ t.rdata = s.rdata := by
  cases coreStep_cases h <;> simp

end Sys2Proof.Machine
end

