-- ==== Sys2Proof/Laws/Step.lean ====
section
/-! SUPPORT. What one turn can do, said once per kind of turn, and the frame of an instruction. -/

namespace Sys2Proof.Machine

/-! ### One step by its turn -/

theorem step_alone {s : State} (h : s.turns = []) : step s = coreStep s := by
  simp [step, takeNextTurn, h]

theorem step_turn {s : State} {t : Turn} {rest : List Turn} (h : s.turns = t :: rest) :
    step s = takeTurn t { s with turns := rest } := by
  simp [step, takeNextTurn, h]

/-- A step is one turn taken in the state that no longer lists it. -/
theorem step_cases (s : State) : ∃ t rest, step s = takeTurn t { s with turns := rest } := by
  cases h : s.turns with
  | nil => exact ⟨.core, [], by rw [step_alone h, ← h]; rfl⟩
  | cons t rest => exact ⟨t, rest, step_turn h⟩

theorem hostAccess_ok {ha : HaWord} {i : Instr} (s : State) (h : decode ha = .ok i) : hostAccess ha s = exec i s := by
  simp [hostAccess, h]

/-- A host access that answers a next state ran a decoded instruction. -/
theorem hostAccess_next {ha : HaWord} {s t : State} (h : hostAccess ha s = .next t) :
    ∃ i, decode ha = .ok i ∧ exec i s = .next t := by
  unfold hostAccess at h
  split at h
  · next i hi => exact ⟨i, hi, h⟩
  · cases h

/-! ### What an instruction can do -/

/-- Every instruction answers a next state, and leaves memory, the platform, the turns and the draws alone. -/
theorem exec_next (i : Instr) (s : State) : ∃ t, exec i s = .next t ∧
    t.mem = s.mem ∧ t.platform = s.platform ∧ t.turns = s.turns ∧ t.draws = s.draws := by
  cases i <;> refine ⟨_, rfl, ?_⟩ <;> simp [commandWrite] <;> (split <;> simp)

/-- An instruction leaves the internal state alone, but for a START that launches a command. -/
theorem exec_seq {i : Instr} {s t : State} (h : exec i s = .next t) :
    t.seq = s.seq ∨ (i = .wrCmdStart ∧ s.regs.STATUS.BUSY = false ∧ check s.regs = .none ∧
      blockCount s.regs ≠ 0 ∧ t = launch (startClear s)) := by
  cases i <;> (simp only [exec, execRdCtrl, execRdCmd, execRdStatus, execRdBlkdone, execRdNblk, execRdStateAddr,
    execRdSrcAddr, execRdDstAddr, execRdSrcLen, execRdDstLen, execWrCtrl, execWrCmdNop, execWrCmdStart, execWrCmdIllegal,
    execWrStatus, execWrBlkdone, execWrNblk, execWrStateAddr, execWrSrcAddr, execWrDstAddr, execWrSrcLen, execWrDstLen,
    execRsvd28To2C, execRsvd30To3C, commandWrite, Host.Outcome.next.injEq] at h; subst h)
  case wrCmdStart =>
    by_cases hb : s.regs.STATUS.BUSY = true
    · exact .inl (by rw [if_pos hb]; rfl)
    · rw [if_neg hb]
      unfold startCommand
      dsimp only
      split
      · exact .inl rfl
      · split
        · exact .inl rfl
        · next h1 h2 => exact .inr ⟨rfl, by simpa using hb, by simpa using h1, h2, rfl⟩
  all_goals first
    | exact .inl rfl
    | (left; split <;> rfl)
    | (left; simp)

/-- The cases of an instruction: everything it can do to the state. -/
inductive ExecCase (s : State) : State → Prop where
  | none : ExecCase s s
  | read (v : Word) : ExecCase s (replyRead v s)
  | control (v : Word) : ExecCase s { s with regs := { s.regs with CTRL := Ctrl.ofWord v } }
  | status (v : Word) : ExecCase s (acknowledge v s)
  | config (hb : s.regs.STATUS.BUSY = false) (nblk sta src dst srcl dstl : Word) : ExecCase s { s with regs := { s.regs with
      NBLK := nblk, STATE_ADDR := sta, SRC_ADDR := src, DST_ADDR := dst, SRC_LEN := srcl, DST_LEN := dstl } }
  | busy (hb : s.regs.STATUS.BUSY = true) : ExecCase s (busyCommand s)
  | fail (hb : s.regs.STATUS.BUSY = false) (e : ErrCode) (he : e ≠ .none) : ExecCase s (failCommand e s)
  | done (hb : s.regs.STATUS.BUSY = false) : ExecCase s (signalDone (startClear s))
  | launch (hb : s.regs.STATUS.BUSY = false) (hc : check s.regs = .none) (hm : blockCount s.regs ≠ 0) :
      ExecCase s (launch (startClear s))

theorem writeConfig_cases {s : State} {f : Regs → Regs}
    (h : s.regs.STATUS.BUSY = false → ExecCase s { s with regs := f s.regs }) : ExecCase s (writeConfig f s) := by
  unfold writeConfig
  split
  · exact .none
  · next hb => exact h (by simpa using hb)

theorem failCommand_startClear (e : ErrCode) (s : State) : failCommand e (startClear s) = failCommand e s := rfl

theorem commandWrite_cases {s : State} {f : State → State} (h : s.regs.STATUS.BUSY = false → ExecCase s (f s)) :
    ExecCase s (commandWrite f s) := by
  unfold commandWrite
  split
  · next hb => exact .busy hb
  · next hb => exact h (by simpa using hb)

/-- Everything an instruction can do. -/
theorem exec_cases {i : Instr} {s t : State} (h : exec i s = .next t) : ExecCase s t := by
  cases i <;> cases h
  case wrCtrl v => exact .control v
  case wrStatus v => exact .status v
  case wrBlkdone => exact .none
  case wrCmdNop => exact commandWrite_cases fun _ => .none
  case wrCmdIllegal => exact commandWrite_cases fun hb => .fail hb _ (by decide)
  case wrCmdStart =>
    refine commandWrite_cases fun hb => ?_
    unfold startCommand
    dsimp only
    split
    · next he => exact .fail hb _ he
    · next he =>
      split
      · exact .done hb
      · next hm => exact .launch hb (by simpa using he) hm
  case rsvd28To2C w _ _ => cases w <;> [exact .read 0; exact .none]
  case rsvd30To3C w _ _ => cases w <;> [exact .read 0; exact .none]
  all_goals first
    | exact .read _
    | exact writeConfig_cases fun hb => .config hb ..

/-! ### What a bus move of the host can do -/

/-- The cases of a bus move of the host that answers a next state. -/
inductive BusCase (m : BusMove) (s : State) : State → Prop where
  /-- A register access, or one that faulted before it reached CORE. -/
  | register (i : Instr) (t : State) (h : exec i s = .next t) : BusCase m s t
  /-- A read of memory, or a read that faulted: it changes the host's own value only. -/
  | read (v : Option Word) (d : Nat) (h : m.kind = .read) : BusCase m s { s with rdata := v, draws := d }
  /-- A write that faulted. -/
  | lost (h : m.kind = .write) (hf : s.platform.busFault ⟨m.addr.toNat, m.width, .write⟩ = true) : BusCase m s s
  /-- A write of memory. -/
  | write (h : m.kind = .write) (ha : m.addr.toNat + m.width.bytes ≤ Config.addressSpace)
      (hf : s.platform.busFault ⟨m.addr.toNat, m.width, .write⟩ = false)
      (hd : ∀ i < m.width.bytes, s.platform.isDevice (m.addr.toNat + i) = false) :
      BusCase m s { s with mem := s.mem.writeBytes m.addr.toNat (leBytes m.width.bytes m.data) }

/-- An access touches the window exactly when one of its bytes lies there. -/
theorem touchesWindow_iff {p : Platform} {a n : Nat} (hn : 0 < n) :
    touchesWindow p a n = true ↔ ∃ b, a ≤ b ∧ b < a + n ∧ p.inWindow b = true := by
  simp only [touchesWindow, Platform.inWindow, Bool.and_eq_true, decide_eq_true_eq]
  have hb : (0 : Nat) < Config.windowBytes := by decide
  constructor
  · rintro ⟨h1, h2⟩
    exact ⟨max a p.coreBase.toNat, by omega, by omega, by omega, by omega⟩
  · rintro ⟨b, h1, h2, h3, h4⟩
    omega

/-- A bus access whose bytes all lie outside the window is an access to memory. -/
theorem hostBus_outside {m : BusMove} {s : State}
    (h : ∀ i < m.width.bytes, s.platform.inWindow (m.addr.toNat + i) = false) : hostBus m s = hostMemoryAccess m s := by
  have hw : 0 < m.width.bytes := by cases m.width <;> decide
  have ht : touchesWindow s.platform m.addr.toNat m.width.bytes = false := by
    by_contra hc
    obtain ⟨b, h1, h2, h3⟩ := (touchesWindow_iff hw).mp (by simpa using hc)
    have := h (b - m.addr.toNat) (by omega)
    rw [Nat.add_sub_cancel' h1, h3] at this
    cases this
  unfold hostBus
  rw [if_neg (by simp [ht])]

/-- A bus access that touches the window is a register access, or is refused (R15). -/
theorem hostBus_inside {m : BusMove} {s : State} {a : Nat} (h1 : m.addr.toNat ≤ a) (h2 : a < m.addr.toNat + m.width.bytes)
    (h3 : s.platform.inWindow a = true) : hostBus m s = hostRegisterAccess m s := by
  unfold hostBus
  rw [if_pos ((touchesWindow_iff (by omega)).mpr ⟨a, h1, h2, h3⟩)]

/-- Ordinary memory lies outside the window. -/
theorem inWindow_of_ordinary {p : Platform} {a : Nat} (h : p.isDevice a = false) : p.inWindow a = false := by
  simp only [Platform.isDevice, Bool.or_eq_false_iff] at h
  exact h.1

theorem hostBusFault_read {m : BusMove} (h : m.kind = .read) (s : State) : hostBusFault m s = { s with rdata := none } := by
  simp [hostBusFault, h]

theorem hostBusFault_write {m : BusMove} (h : m.kind = .write) (s : State) : hostBusFault m s = s := by
  simp [hostBusFault, h]

/-- A bus move of the host that faulted. -/
theorem hostBusFault_cases {m : BusMove} {s : State} (hf : s.platform.busFault ⟨m.addr.toNat, m.width, m.kind⟩ = true) :
    BusCase m s (hostBusFault m s) := by
  cases hk : m.kind with
  | read => rw [hostBusFault_read hk]; exact .read none s.draws hk
  | write => rw [hostBusFault_write hk]; exact .lost hk (hk ▸ hf)

theorem hostBus_cases {m : BusMove} {s t : State} (h : hostBus m s = .next t) : BusCase m s t := by
  unfold hostBus at h
  split at h
  · unfold hostRegisterAccess at h
    dsimp only at h
    split at h
    · split at h
      · next hf =>
        cases h
        exact hostBusFault_cases hf
      · split at h <;>
        · obtain ⟨i, _, hi⟩ := hostAccess_next h
          exact .register i t hi
    · cases h
  · unfold hostMemoryAccess at h
    split at h
    · next hk =>
      rcases resume_next h with ⟨⟨v, u⟩, hr, rfl⟩ | ⟨hr, rfl⟩
      · obtain ⟨_, _, rfl, rfl⟩ := memRead_done hr
        exact .read _ _ hk
      · exact hostBusFault_cases (hk ▸ (memRead_busFault.mp hr).2)
    · next hk =>
      rcases resume_next h with ⟨u, hr, rfl⟩ | ⟨hr, rfl⟩
      · obtain ⟨h1, h2, h3, rfl⟩ := memWrite_done hr
        exact .write hk h1 h2 h3
      · exact hostBusFault_cases (hk ▸ (memWrite_busFault.mp hr).2)

/-! ### The induction of every invariant -/

/-- A property of states that no kind of effect breaks is kept by every step. -/
theorem step_keeps {P : State → Prop}
    (turn : ∀ s l, P s → P { s with turns := l })
    (core : ∀ s t, P s → CoreCase s t → P t)
    (host : ∀ s t, P s → ExecCase s t → P t)
    (read : ∀ s v d, P s → P { s with rdata := v, draws := d })
    (write : ∀ s a bs, P s → a + bs.length ≤ Config.addressSpace → P { s with mem := s.mem.writeBytes a bs })
    (reset : ∀ s, P s → P (applyReset s)) {s t : State} (hs : P s) (h : step s = .next t) : P t := by
  obtain ⟨u, rest, hu⟩ := step_cases s
  rw [hu] at h
  have hs' := turn s rest hs
  generalize { s with turns := rest } = s' at h hs'
  cases u with
  | core => exact core _ _ hs' (coreStep_cases h)
  | access ha =>
    obtain ⟨i, _, hi⟩ := hostAccess_next h
    exact host _ _ hs' (exec_cases hi)
  | bus m =>
    cases hostBus_cases h with
    | register i t hi => exact host _ _ hs' (exec_cases hi)
    | read v d => exact read _ _ _ hs'
    | lost => exact hs'
    | write _ ha => exact write _ _ _ hs' (by simpa using ha)
  | reset =>
    cases h
    exact reset _ hs'

end Sys2Proof.Machine
end

