-- ==== Sys2Proof/Laws/Command.lean ====
section
/-! SUPPORT. Small facts about a running command: its registers, its lanes and tiers, its memory, a run of steps. -/

namespace Sys2Proof.Machine

/-! ### Counting blocks -/

theorem toNat_sub_one {x : Word} (h : x ≠ 0) : (x - 1).toNat = x.toNat - 1 := by
  have h0 : x.toNat ≠ 0 := fun e => h (BitVec.eq_of_toNat_eq (by simpa using e))
  have := x.isLt
  rw [BitVec.toNat_sub]
  simp
  omega

/-- A tier takes at least one block and never more than remain (R114). -/
theorem chooseTier_le {rem : Word} (h : rem ≠ 0) : 1 ≤ (chooseTier rem).lanes ∧ (chooseTier rem).lanes ≤ rem.toNat := by
  have : rem.toNat ≠ 0 := fun e => h (BitVec.eq_of_toNat_eq (by simpa using e))
  rw [chooseTier_lanes]
  split <;> [skip; split] <;> omega

theorem lanes_le_four (n : LaneCount) : n.lanes ≤ 4 := by cases n <;> decide

/-- The first batch of `r` blocks, and the rest (R123). -/
theorem batches_succ {r : Nat} (h : r ≠ 0) :
    batches r = batches (r - (if 4 ≤ r then 4 else if 2 ≤ r then 2 else 1)) + 1 := by
  unfold batches
  by_cases h4 : 4 ≤ r
  · have : (r - 4) % 4 = r % 4 := by omega
    simp only [h4, if_true, this]
    split <;> omega
  · have : r = 1 ∨ r = 2 ∨ r = 3 := by omega
    rcases this with rfl | rfl | rfl <;> rfl

/-- Lane `l` of the batch that starts at block `b` makes the keystream of block `b + l` (R89). -/
theorem laneBlock_eq_keystream (S : Words) (b l : Nat) :
    laneBlock S (counterOf S + BitVec.ofNat 64 b) l = keystream S (b + l) := by
  simp [keystream, laneBlock, laneInit, laneCounter, BitVec.ofNat_add, BitVec.add_assoc]

/-! ### Frames -/

/-- CORE's steps leave the configuration registers, CTRL and what is not CORE's alone. -/
theorem coreCase_frame {s t : State} (h : CoreCase s t) :
    t.regs.CTRL = s.regs.CTRL ∧ t.regs.NBLK = s.regs.NBLK ∧ t.regs.STATE_ADDR = s.regs.STATE_ADDR ∧
      t.regs.SRC_ADDR = s.regs.SRC_ADDR ∧ t.regs.DST_ADDR = s.regs.DST_ADDR ∧ t.regs.SRC_LEN = s.regs.SRC_LEN ∧
      t.regs.DST_LEN = s.regs.DST_LEN ∧ t.platform = s.platform ∧ t.turns = s.turns ∧ t.rdata = s.rdata := by
  cases h <;> simp

/-- How many device bytes a read draws depends on the platform alone. -/
theorem readBytes_draws {s t : State} (h : s.platform = t.platform) (n a d : Nat) :
    (readBytes s n a d).2 = (readBytes t n a d).2 := by
  induction n generalizing a d with
  | zero => rfl
  | succ n ih =>
    simp only [readBytes, h]
    split <;> exact ih _ _

theorem MemoryInv.write {m : Memory} {a : Nat} {v : Byte} (h : MemoryInv m) (ha : a < Config.addressSpace) :
    MemoryInv (m.write a v) := by
  refine ⟨Memory.wf_write a v h.canonical, fun c hc => ?_⟩
  rcases Memory.mem_write hc with rfl | h'
  · exact ha
  · exact h.inSpace c h'

theorem MemoryInv.writeBytes {m : Memory} {a : Nat} {bs : List Byte} (h : MemoryInv m)
    (ha : a + bs.length ≤ Config.addressSpace) : MemoryInv (m.writeBytes a bs) := by
  induction bs generalizing m a with
  | nil => exact h
  | cons b bs ih =>
    simp only [List.length_cons] at ha
    exact ih (h.write (by omega)) (by omega)

/-- The invariant speaks of registers, internal state and memory alone. -/
theorem MachineInv.congr {s t : State} (h : MachineInv s) (hr : t.regs = s.regs) (hq : t.seq = s.seq) (hm : t.mem = s.mem) :
    MachineInv t := by
  obtain ⟨r, q, m, p, l, d, n⟩ := t
  simp only at hr hq hm
  subst hr hq hm
  obtain ⟨h1, h2, h3, h4, h5⟩ := h
  exact ⟨h1, ⟨h2.1, h2.2, h2.3, h2.4⟩, ⟨h3.1, h3.2, h3.3⟩, fun hb =>
    have c := h4 hb
    ⟨c.1, c.2, c.3, c.4, c.5, c.6, c.7, c.8, c.9⟩, h5⟩

/-- Ordinary memory lies outside CORE's window. -/
theorem touchesWindow_ordinary {p : Platform} {a n : Nat} (h : ∀ i < n, p.isDevice (a + i) = false) (hn : 0 < n) :
    touchesWindow p a n = false := by
  have hw : ∀ i < n, ¬ (p.coreBase.toNat ≤ a + i ∧ a + i < p.coreBase.toNat + 64) := by
    intro i hi
    have := h i hi
    simp only [Platform.isDevice, Bool.or_eq_false_iff] at this
    simpa [Platform.inWindow] using this.1
  by_contra hc
  simp only [touchesWindow, Bool.not_eq_false, Bool.and_eq_true, decide_eq_true_eq, Config.windowBytes] at hc
  by_cases hle : p.coreBase.toNat ≤ a
  · exact hw 0 hn ⟨by omega, by omega⟩
  · exact hw (p.coreBase.toNat - a) (by omega) ⟨by omega, by omega⟩

/-! ### Runs -/

theorem run_next {s t : State} (n : Nat) (h : step s = .next t) :
    Host.Core.run Sys2Proof.core (n + 1) s = Host.Core.run Sys2Proof.core n t := by
  have h' : Sys2Proof.core.step s = .next t := h
  simp only [Host.Core.run, h']

end Sys2Proof.Machine
end

