-- ==== Sys2Proof/Laws/Decode.lean ====
section
/-! SUPPORT. The fields of an HA word put together and taken apart. -/

namespace Sys2Proof

/-- The bits of an HA word by its fields (spec/30_encoding.md R63). -/
theorem getLsbD_haWord (write : Bool) (off : BitVec 8) (data : Word) (i : Nat) :
    (haWord write off data).getLsbD i =
      if i < 32 then data.getLsbD i else if i < 40 then off.getLsbD (i - 32) else decide (i = 40) && write := by
  have h1 := BitVec.getLsbD_append (x := BitVec.ofBool write ++ off) (y := data) (i := i)
  have h2 := BitVec.getLsbD_append (x := BitVec.ofBool write) (y := off) (i := i - 32)
  refine h1.trans ?_
  rw [h2]
  by_cases h : i < 32
  · simp [h]
  · by_cases h' : i < 40
    · simp [h, h', show i - 32 < 8 by omega]
    · by_cases h'' : i = 40
      · subst h''; cases write <;> simp
      · simp only [h, h', h'', show ¬ i - 32 < 8 by omega, if_false, decide_false, Bool.false_and]
        exact BitVec.getLsbD_of_ge _ _ (by omega)

@[simp] theorem haWrite_haWord (write : Bool) (off : BitVec 8) (data : Word) : haWrite (haWord write off data) = write := by
  rw [haWrite, getLsbD_haWord]; simp

@[simp] theorem haOffset_haWord (write : Bool) (off : BitVec 8) (data : Word) : haOffset (haWord write off data) = off := by
  apply BitVec.eq_of_getLsbD_eq
  intro i hi
  simp [haOffset, getLsbD_haWord, hi, show 32 + i < 40 by omega]

@[simp] theorem haData_haWord (write : Bool) (off : BitVec 8) (data : Word) : haData (haWord write off data) = data := by
  apply BitVec.eq_of_getLsbD_eq
  intro i hi
  simp [haData, getLsbD_haWord, hi]

/-- An HA word is its three fields (R63). -/
theorem haWord_fields (w : HaWord) : haWord (haWrite w) (haOffset w) (haData w) = w := by
  apply BitVec.eq_of_getLsbD_eq
  intro i hi
  rw [getLsbD_haWord]
  simp only [haWrite, haOffset, haData, BitVec.getLsbD_extractLsb']
  split
  · simp [*]
  · split
    · have h : 32 + (i - 32) = i := by omega
      simp [h]; omega
    · have h : i = 40 := by omega
      subst h; simp

/-- Decoding a word given by its fields (R64). -/
theorem decode_haWord (write : Bool) (off : BitVec 8) (data : Word) (h : off.extractLsb' 0 2 = 0) (h' : off < 0x40) :
    decode (haWord write off data) = .ok (if write then decodeWrite off data else decodeRead off) := by
  have h'' : ¬ (0x40 : BitVec 8) ≤ off := by
    rw [BitVec.le_def]; rw [BitVec.lt_def] at h'; omega
  cases write <;> simp only [decode, haOffset_haWord, haWrite_haWord, haData_haWord, h, h'', ne_eq, not_true_eq_false,
    if_false, if_true, Bool.false_eq_true]

end Sys2Proof
end

