-- ==== Sys2Proof/Laws/Host.lean ====
section
/-! SUPPORT. A host that acts while a command runs: which turns are taken, and all that one of them can do (spec/20_memory.md
R58, spec/70_reset_and_hazards.md R161). -/

namespace Sys2Proof.Machine

/-! ### The turns of a command -/

@[simp] theorem commandTurns_zero (l : List Turn) : commandTurns l 0 = [] := by cases l <;> rfl

/-- With no turn listed CORE moves. -/
theorem commandTurns_nil (n : Nat) : commandTurns [] n = List.replicate n .core := by cases n <;> rfl

@[simp] theorem commandTurns_core (l : List Turn) (n : Nat) :
    commandTurns (.core :: l) (n + 1) = .core :: commandTurns l n := rfl

/-- A turn of another agent takes none of CORE's steps. -/
theorem commandTurns_host {u : Turn} (h : u ≠ .core) (l : List Turn) (n : Nat) :
    commandTurns (u :: l) (n + 1) = u :: commandTurns l (n + 1) := by
  cases u <;> first | rfl | exact absurd rfl h

/-- CORE takes its `n` steps. -/
theorem count_commandTurns (l : List Turn) (n : Nat) : (commandTurns l n).count .core = n := by
  induction l generalizing n with
  | nil => simp [commandTurns_nil]
  | cons u l ih =>
    cases n with
    | zero => simp
    | succ n =>
      by_cases h : u = .core
      · subst h; simp [ih]
      · rw [commandTurns_host h, List.count_cons_of_ne h, ih]

/-- Every turn taken is CORE's or a listed one. -/
theorem mem_commandTurns {l : List Turn} {n : Nat} {u : Turn} (h : u ∈ commandTurns l n) : u = .core ∨ u ∈ l := by
  induction l generalizing n with
  | nil => rw [commandTurns_nil] at h; exact .inl (List.eq_of_mem_replicate h)
  | cons v l ih =>
    cases n with
    | zero => simp at h
    | succ n =>
      have hc : u = v ∨ ∃ k, u ∈ commandTurns l k := by
        by_cases hv : v = .core
        · subst hv
          rcases List.mem_cons.mp h with h | h <;> [exact .inl h; exact .inr ⟨_, h⟩]
        · rw [commandTurns_host hv] at h
          rcases List.mem_cons.mp h with h | h <;> [exact .inl h; exact .inr ⟨_, h⟩]
      rcases hc with rfl | ⟨k, hk⟩
      · simp
      · rcases ih hk with h | h <;> simp [h]

/-! ### Register accesses by address -/

/-- An aligned word access to the window is the access its HA word describes, unless it faults (R15, R55). -/
theorem hostBus_register {m : BusMove} {s : State} (h : m.isRegister s.platform = true) :
    hostBus m s = if s.platform.busFault ⟨m.addr.toNat, m.width, m.kind⟩ then .next (hostBusFault m s)
      else hostAccess (m.word s.platform) s := by
  simp only [BusMove.isRegister, Bool.and_eq_true, beq_iff_eq] at h
  obtain ⟨⟨hw, hin⟩, h4⟩ := h
  have hle : s.platform.coreBase.toNat ≤ m.addr.toNat := by
    simp only [Platform.inWindow, Bool.and_eq_true, decide_eq_true_eq] at hin
    exact hin.1
  rw [hostBus_inside (Nat.le_refl _) (by rw [hw]; exact Nat.lt_add_of_pos_right (by decide)) hin]
  unfold hostRegisterAccess
  dsimp only
  rw [if_pos ⟨hw, hle, h4⟩]
  split
  · rfl
  · unfold BusMove.word
    cases m.kind <;> rfl

/-- The HA word of a whole register decodes (R63, R64). -/
theorem decode_register {p : Platform} {m : BusMove} (h : m.isRegister p = true) :
    ∃ i, decode (m.word p) = .ok i := by
  simp only [BusMove.isRegister, Platform.inWindow, Bool.and_eq_true, beq_iff_eq, decide_eq_true_eq] at h
  obtain ⟨⟨_, h1, h2⟩, h4⟩ := h
  have fields : ∀ n : Fin 64, n.val % 4 = 0 →
      (BitVec.ofNat 8 n.val).extractLsb' 0 2 = 0 ∧ BitVec.ofNat 8 n.val < 0x40 := by decide
  have hlt : m.addr.toNat - p.coreBase.toNat < 64 := by
    have : Config.windowBytes = 64 := rfl
    omega
  obtain ⟨f1, f2⟩ := fields ⟨_, hlt⟩ h4
  exact ⟨_, decode_haWord _ _ _ f1 f2⟩

/-- A turn that runs an instruction is that instruction. -/
theorem takeTurn_instr {u : Turn} {i : Instr} {s : State} (h : u.instr s.platform = some i) : takeTurn u s = exec i s := by
  have ok : ∀ w : HaWord, (decode w).toOption = some i → hostAccess w s = exec i s := by
    intro w hw
    apply hostAccess_ok
    cases hd : decode w with
    | ok j => rw [hd] at hw; cases hw; rfl
    | error e => rw [hd] at hw; cases hw
  cases u with
  | core => cases h
  | reset => cases h
  | access ha => exact ok ha h
  | bus m =>
    simp only [Turn.instr] at h
    split at h
    · next hr =>
      simp only [Bool.and_eq_true, Bool.not_eq_true'] at hr
      rw [takeTurn, hostBus_register hr.1, if_neg (by simp [hr.2])]
      exact ok _ h
    · cases h

/-! ### All that a turn of the host can do while BUSY -/

/-- CTRL after an instruction. -/
theorem ctrlAfter_instr {p : Platform} {u : Turn} {i : Instr} (h : u.instr p = some i) (c : Ctrl) :
    ctrlAfter p c u = match i with
      | .wrCtrl v => ⟨v.getLsbD 0⟩
      | _ => c := by
  simp only [ctrlAfter, h]
  cases i <;> rfl

theorem ctrlAfter_none {p : Platform} {u : Turn} (h : u.instr p = none) (c : Ctrl) : ctrlAfter p c u = c := by
  simp [ctrlAfter, h]

theorem ignAfter_none {p : Platform} {u : Turn} (h : u.instr p = none) (g : Bool) : ignAfter p g u = g := by
  simp [ignAfter, h]

/-- What a turn `u` of the host leaves while BUSY. -/
structure HostFrame (u : Turn) (s t : State) : Prop where
  seq : t.seq = s.seq
  platform : t.platform = s.platform
  turns : t.turns = s.turns
  /-- The configuration registers and BLKDONE stand (R26). -/
  regs : t.regs = { s.regs with CTRL := ctrlAfter s.platform s.regs.CTRL u, STATUS := t.regs.STATUS }
  busy : t.regs.STATUS.BUSY = true
  /-- With DONE and ERR 0, of STATUS only IGN can change (R19, R110). -/
  status : s.regs.STATUS.DONE = false → s.regs.STATUS.ERR = false → s.regs.STATUS.ERRCODE = .none →
    t.regs.STATUS = { s.regs.STATUS with IGN := ignAfter s.platform s.regs.STATUS.IGN u }
  mem : ∀ a, u.stores s.platform a = false → t.mem.read a = s.mem.read a

/-- A turn that leaves CORE alone. -/
theorem HostFrame.of_regs {u : Turn} {s t : State} (hi : u.instr s.platform = none) (hb : s.regs.STATUS.BUSY = true)
    (hr : t.regs = s.regs) (hq : t.seq = s.seq) (hp : t.platform = s.platform) (ht : t.turns = s.turns)
    (hm : ∀ a, u.stores s.platform a = false → t.mem.read a = s.mem.read a) : HostFrame u s t where
  seq := hq
  platform := hp
  turns := ht
  regs := by rw [hr, ctrlAfter_none hi]
  busy := by rw [hr]; exact hb
  status := fun _ _ _ => by rw [hr, ignAfter_none hi]
  mem := hm

/-- A register access while BUSY. -/
theorem exec_while_busy {u : Turn} {i : Instr} {s t : State} (hu : u.instr s.platform = some i)
    (hb : s.regs.STATUS.BUSY = true) (h : exec i s = .next t) : HostFrame u s t := by
  have hc := ctrlAfter_instr hu s.regs.CTRL
  have hm : t.mem = s.mem := by
    obtain ⟨t', h', hm, _⟩ := exec_next i s
    rw [h] at h'; cases h'; exact hm
  have read : ∀ v, ctrlAfter s.platform s.regs.CTRL u = s.regs.CTRL →
      ignAfter s.platform s.regs.STATUS.IGN u = s.regs.STATUS.IGN → HostFrame u s { s with rdata := v } := by
    intro v h1 h2
    exact ⟨rfl, rfl, rfl, by rw [h1], hb, fun _ _ _ => by rw [h2], fun _ _ => rfl⟩
  have same : ctrlAfter s.platform s.regs.CTRL u = s.regs.CTRL →
      ignAfter s.platform s.regs.STATUS.IGN u = s.regs.STATUS.IGN → HostFrame u s s := read s.rdata
  have busy : ctrlAfter s.platform s.regs.CTRL u = s.regs.CTRL →
      ignAfter s.platform s.regs.STATUS.IGN u = true → HostFrame u s (busyCommand s) := by
    intro h1 h2
    exact ⟨rfl, rfl, rfl, by rw [h1]; rfl, hb, fun _ _ _ => by rw [h2]; rfl, fun _ _ => rfl⟩
  have hg : ∀ g, ignAfter s.platform g u = match i with
      | .wrCmdNop | .wrCmdStart | .wrCmdIllegal _ => true
      | .wrStatus v => g && !v.getLsbD 3
      | _ => g := by
    intro g
    simp only [ignAfter, hu]
    cases i <;> rfl
  cases i with
  | wrCtrl v =>
    cases h
    exact ⟨rfl, rfl, rfl, by rw [hc]; rfl, hb, fun _ _ _ => by rw [hg], fun _ _ => rfl⟩
  | wrStatus v =>
    cases h
    refine ⟨rfl, rfl, rfl, by rw [hc]; rfl, hb, fun hd he hx => ?_, fun _ _ => rfl⟩
    rw [hg]
    simp only [acknowledge, mapStatus, Status.writeOneToClear, hd, he, hx]
    cases v.getLsbD 2 <;> simp
  | wrCmdNop => simp only [exec, execWrCmdNop, commandWrite, hb] at h; cases h; exact busy hc (hg _)
  | wrCmdStart => simp only [exec, execWrCmdStart, commandWrite, hb] at h; cases h; exact busy hc (hg _)
  | wrCmdIllegal v => simp only [exec, execWrCmdIllegal, commandWrite, hb] at h; cases h; exact busy hc (hg _)
  | wrNblk | wrStateAddr | wrSrcAddr | wrDstAddr | wrSrcLen | wrDstLen =>
    simp only [exec, execWrNblk, execWrStateAddr, execWrSrcAddr, execWrDstAddr, execWrSrcLen, execWrDstLen, writeConfig, hb]
      at h
    cases h
    exact same hc (hg _)
  | wrBlkdone v => cases h; exact same hc (hg _)
  | rsvd28To2C w b v => cases w <;> cases h <;> [exact read _ hc (hg _); exact same hc (hg _)]
  | rsvd30To3C w b v => cases w <;> cases h <;> [exact read _ hc (hg _); exact same hc (hg _)]
  | _ => cases h; exact read _ hc (hg _)

/-- A bus access of the host to memory that completes. -/
theorem hostMemoryAccess_completes {m : BusMove} {s : State} (hi : (Turn.bus m).instr s.platform = none)
    (hb : s.regs.STATUS.BUSY = true) (ha : m.addr.toNat + m.width.bytes ≤ Config.addressSpace)
    (hd : m.kind = .read ∨ s.platform.busFault ⟨m.addr.toNat, m.width, m.kind⟩ = true ∨
      touchesDevice s.platform m.width.bytes m.addr.toNat = false) :
    ∃ t, hostMemoryAccess m s = .next t ∧ HostFrame (.bus m) s t := by
  cases hf : s.platform.busFault ⟨m.addr.toNat, m.width, m.kind⟩ with
  | true =>
    refine ⟨hostBusFault m s, ?_, ?_⟩
    · unfold hostMemoryAccess
      cases hk : m.kind <;> rw [hk] at hf <;> dsimp only
      · rw [memRead_busFault.mpr ⟨ha, hf⟩, resume_busFault]
      · rw [memWrite_busFault.mpr ⟨ha, hf⟩, resume_busFault]
    · unfold hostBusFault
      split <;> exact .of_regs hi hb rfl rfl rfl rfl fun _ _ => rfl
  | false =>
    unfold hostMemoryAccess
    cases hk : m.kind <;> rw [hk] at hf <;> dsimp only
    · rw [memRead_of_noFault ha hf, resume_done]
      exact ⟨_, rfl, .of_regs hi hb rfl rfl rfl rfl fun _ _ => rfl⟩
    · have hd' : touchesDevice s.platform m.width.bytes m.addr.toNat = false := by simpa [hk, hf] using hd
      rw [memWrite_ordinary ha hf (touchesDevice_eq_false.mp hd'), resume_done]
      refine ⟨_, rfl, .of_regs hi hb rfl rfl rfl rfl fun a hs => ?_⟩
      apply Memory.read_writeBytes_outside
      simp only [Turn.stores, hk, hf, beq_self_eq_true, Bool.true_and, Bool.not_false, Bool.and_true,
        Bool.and_eq_false_iff, decide_eq_false_iff_not] at hs
      rw [length_leBytes]
      omega

/-- A turn of the host that completes, taken while BUSY, answers a next state and can do this and no more. -/
theorem takeTurn_while_busy {u : Turn} {s : State} (hu : u ≠ .core) (hc : u.completes s.platform = true)
    (hb : s.regs.STATUS.BUSY = true) : ∃ t, takeTurn u s = .next t ∧ HostFrame u s t := by
  cases hi : u.instr s.platform with
  | some i =>
    obtain ⟨t, ht, _⟩ := exec_next i s
    exact ⟨t, by rw [takeTurn_instr hi, ht], exec_while_busy hi hb ht⟩
  | none =>
    cases u with
    | core => exact absurd rfl hu
    | reset => cases hc
    | access ha => simp only [Turn.completes, Turn.instr] at hc hi; simp [hi] at hc
    | bus m =>
      by_cases hr : m.isRegister s.platform = true
      · by_cases hf : s.platform.busFault ⟨m.addr.toNat, m.width, m.kind⟩ = true
        · refine ⟨_, by rw [takeTurn, hostBus_register hr, if_pos hf], ?_⟩
          unfold hostBusFault
          split <;> exact .of_regs hi hb rfl rfl rfl rfl fun _ _ => rfl
        · exfalso
          obtain ⟨i, hd⟩ := decode_register hr
          simp [Turn.instr, hr, hf, hd, Except.toOption] at hi
      · simp only [Turn.completes, hr, Bool.false_or, Bool.and_eq_true, Bool.not_eq_true', decide_eq_true_eq,
          Bool.or_eq_true, beq_iff_eq, or_assoc] at hc
        obtain ⟨⟨ht, ha⟩, hd⟩ := hc
        have he : takeTurn (.bus m) s = hostMemoryAccess m s := by
          rw [takeTurn, hostBus, if_neg (by simp [ht])]
        rw [he]
        exact hostMemoryAccess_completes hi hb ha hd

end Sys2Proof.Machine
end

