-- ==== Sys2Proof/Laws/PerInstr.lean ====
section
/-! SUPPORT. Facts about every instruction as syntax, one lemma per constructor. -/

namespace Sys2Proof.Laws.WordLayout

/-- The word of an instruction carries its W, OFF and DATA in bits 40, 39:32 and 31:0 (spec/30_encoding.md R63), and its
offset is a multiple of 4 inside the window (spec/10_state.md R14, R15). -/
def Statement (i : Instr) : Prop :=
  haWrite (encode i) = i.isWrite ∧ haOffset (encode i) = i.offset ∧ haData (encode i) = i.data ∧
    i.offset.extractLsb' 0 2 = 0 ∧ i.offset < 0x40

theorem layout (i : Instr) (h : i.offset.extractLsb' 0 2 = 0) (h' : i.offset < 0x40) : Statement i :=
  ⟨haWrite_haWord _ _ _, haOffset_haWord _ _ _, haData_haWord _ _ _, h, h'⟩

theorem rdCtrl : Statement .rdCtrl := layout .rdCtrl rfl (by decide)

theorem rdCmd : Statement .rdCmd := layout .rdCmd rfl (by decide)

theorem rdStatus : Statement .rdStatus := layout .rdStatus rfl (by decide)

theorem rdBlkdone : Statement .rdBlkdone := layout .rdBlkdone rfl (by decide)

theorem rdNblk : Statement .rdNblk := layout .rdNblk rfl (by decide)

theorem rdStateAddr : Statement .rdStateAddr := layout .rdStateAddr rfl (by decide)

theorem rdSrcAddr : Statement .rdSrcAddr := layout .rdSrcAddr rfl (by decide)

theorem rdDstAddr : Statement .rdDstAddr := layout .rdDstAddr rfl (by decide)

theorem rdSrcLen : Statement .rdSrcLen := layout .rdSrcLen rfl (by decide)

theorem rdDstLen : Statement .rdDstLen := layout .rdDstLen rfl (by decide)

theorem wrCtrl (v : Word) : Statement (.wrCtrl v) := layout (.wrCtrl v) (by simp [Instr.offset]) (by simp [Instr.offset])

theorem wrCmdNop : Statement .wrCmdNop := layout .wrCmdNop rfl (by decide)

theorem wrCmdStart : Statement .wrCmdStart := layout .wrCmdStart rfl (by decide)

theorem wrCmdIllegal (v : Word) : Statement (.wrCmdIllegal v) := layout (.wrCmdIllegal v) (by simp [Instr.offset]) (by simp [Instr.offset])

theorem wrStatus (v : Word) : Statement (.wrStatus v) := layout (.wrStatus v) (by simp [Instr.offset]) (by simp [Instr.offset])

theorem wrBlkdone (v : Word) : Statement (.wrBlkdone v) := layout (.wrBlkdone v) (by simp [Instr.offset]) (by simp [Instr.offset])

theorem wrNblk (v : Word) : Statement (.wrNblk v) := layout (.wrNblk v) (by simp [Instr.offset]) (by simp [Instr.offset])

theorem wrStateAddr (v : Word) : Statement (.wrStateAddr v) := layout (.wrStateAddr v) (by simp [Instr.offset]) (by simp [Instr.offset])

theorem wrSrcAddr (v : Word) : Statement (.wrSrcAddr v) := layout (.wrSrcAddr v) (by simp [Instr.offset]) (by simp [Instr.offset])

theorem wrDstAddr (v : Word) : Statement (.wrDstAddr v) := layout (.wrDstAddr v) (by simp [Instr.offset]) (by simp [Instr.offset])

theorem wrSrcLen (v : Word) : Statement (.wrSrcLen v) := layout (.wrSrcLen v) (by simp [Instr.offset]) (by simp [Instr.offset])

theorem wrDstLen (v : Word) : Statement (.wrDstLen v) := layout (.wrDstLen v) (by simp [Instr.offset]) (by simp [Instr.offset])

theorem rsvd28To2C (write : Bool) (slot : BitVec 1) (v : Word) : Statement (.rsvd28To2C write slot v) := by
  refine layout (.rsvd28To2C write slot v) ?_ ?_ <;> revert slot <;> simp only [Instr.offset] <;> decide

theorem rsvd30To3C (write : Bool) (slot : BitVec 2) (v : Word) : Statement (.rsvd30To3C write slot v) := by
  refine layout (.rsvd30To3C write slot v) ?_ ?_ <;> revert slot <;> simp only [Instr.offset] <;> decide

end Sys2Proof.Laws.WordLayout
end

