-- ==== Sys2Proof/Tests/Slice0.lean ====
section
/-! SUPPORT. Tests against the vectors of spec/95_test_vectors.md (their names stand in the comments), the smoke test of
well-formedness, and for every statement with hypotheses a concrete state that meets them (`witness_…`). -/

namespace Sys2Proof.Tests

open Sys2Proof.Machine

/-! ### Small states -/

/-- The state of a next outcome. -/
def next? : Host.Outcome State Fault Refusal → Option State
  | .next s => some s
  | .fault _ => none
  | .refused _ => none

/-- One host access by its HA word, in a state. -/
def host (w : HaWord) (s : State) : Option State := next? (step { s with turns := [.access w] })

/-- STATUS as read after one host access. -/
def statusAfter (w : HaWord) (s : State) : Option Word := (host w s).map fun t => t.regs.STATUS.toWord

/-- What a host read returns. -/
def readValue (w : HaWord) (s : State) : Option (Option Word) := (host w s).map fun t => t.rdata

/-- Reset with the configuration registers set. -/
def config (m st src dst sl dl : Word) : Regs :=
  { Regs.reset with NBLK := m, STATE_ADDR := st, SRC_ADDR := src, DST_ADDR := dst, SRC_LEN := sl, DST_LEN := dl }

/-- The registers of program P1. -/
def job : Regs := config 1 0x1000 0x2000 0x3000 64 64

/-- P1 before its START. -/
def ready : State := { State.reset with regs := job, turns := [.access 0x10400000001] }

/-- The registers of P1 while it runs. -/
def running (done : Word) : Regs := { job with STATUS := ⟨true, false, false, false, .none⟩, BLKDONE := done }

/-- A running command in LOAD. -/
def loading (k : Fin 64) : State :=
  { State.reset with regs := running 0, seq := { Sequencer.reset with PHASE := .load, REM := 1, IDX := k } }

/-- A running command in GEN, with REM blocks left. -/
def generating (left : Word) : State :=
  { State.reset with regs := running 0, seq := { Sequencer.reset with PHASE := .gen, REM := left } }

/-- A running command in RD or WR. -/
def consuming (p : Phase) (n : LaneCount) (left : Word) (i : Fin 64) : State :=
  { State.reset with regs := running 0, seq := { Sequencer.reset with
    PHASE := p, REM := left, N := n, IDX := i
    KS := Sequencer.reset.KS.set 0 (keystream Sequencer.reset.S 0) } }

/-- A running command in WB. -/
def writingBack (i : Fin 64) : State :=
  { State.reset with regs := running 1, seq := { Sequencer.reset with PHASE := .wb, IDX := i, CTR := 1, CUR := 64 } }

/-- A running command in FIN. -/
def finishing : State :=
  { State.reset with regs := running 1, seq := { Sequencer.reset with PHASE := .fin, CTR := 1, CUR := 64 } }

/-! ### Well-formedness: ill-formed terms are refused -/

theorem test_illegal_nop_refused : Instr.wellFormed (.wrCmdIllegal 0) = false := by decide
theorem test_illegal_start_refused : Instr.wellFormed (.wrCmdIllegal 1) = false := by decide
theorem test_reserved_read_data_refused : Instr.wellFormed (.rsvd28To2C false 1 5) = false ∧
    Instr.wellFormed (.rsvd30To3C false 3 5) = false := by decide

/-! ### Decoding: every constructor's word, written out from R63, R64 and R72 (W, OFF, DATA) -/

theorem test_decode_reads :
    decode 0x00000000000 = .ok .rdCtrl ∧ decode 0x00400000000 = .ok .rdCmd ∧ decode 0x00800000000 = .ok .rdStatus ∧
    decode 0x00C00000000 = .ok .rdBlkdone ∧ decode 0x01000000000 = .ok .rdNblk ∧
    decode 0x01400000000 = .ok .rdStateAddr ∧ decode 0x01800000000 = .ok .rdSrcAddr ∧
    decode 0x01C00000000 = .ok .rdDstAddr ∧ decode 0x02000000000 = .ok .rdSrcLen ∧
    decode 0x02400000000 = .ok .rdDstLen := by decide

/-- The words of P1, P2, P5 and of H5 to H10. -/
theorem test_decode_writes :
    decode 0x10000000003 = .ok (.wrCtrl 3) ∧ decode 0x10400000000 = .ok .wrCmdNop ∧
    decode 0x10400000001 = .ok .wrCmdStart ∧ decode 0x10400000002 = .ok (.wrCmdIllegal 2) ∧
    decode 0x10480000001 = .ok (.wrCmdIllegal 0x80000001) ∧ decode 0x10800000F01 = .ok (.wrStatus 0xF01) ∧
    decode 0x10C00001234 = .ok (.wrBlkdone 0x1234) ∧ decode 0x11000000005 = .ok (.wrNblk 5) ∧
    decode 0x114FFFFFFC4 = .ok (.wrStateAddr 0xFFFFFFC4) ∧ decode 0x11800002000 = .ok (.wrSrcAddr 0x2000) ∧
    decode 0x11C00003000 = .ok (.wrDstAddr 0x3000) ∧ decode 0x12000000140 = .ok (.wrSrcLen 0x140) ∧
    decode 0x12400000080 = .ok (.wrDstLen 0x80) := by decide

theorem test_decode_reserved :
    decode 0x12800000005 = .ok (.rsvd28To2C true 0 5) ∧ decode 0x02C00000000 = .ok (.rsvd28To2C false 1 0) ∧
    decode 0x03000000000 = .ok (.rsvd30To3C false 0 0) ∧ decode 0x13C00000007 = .ok (.rsvd30To3C true 3 7) := by decide

theorem test_decode_refuses :
    decode 0x00100000000 = .error .offsetNotAligned ∧ decode 0x10600000001 = .error .offsetNotAligned ∧
    decode 0x04000000000 = .error .offsetOutsideWindow ∧ decode 0x1FC00000000 = .error .offsetOutsideWindow := by decide

theorem test_table_word : decodeTableWord 48 0x10400000001 = some .wrCmdStart ∧
    next? (step (State.reset.withFetchWord 48 0x10400000001)) = host 0x10400000001 State.reset := by decide

/-! ### One host access: H1 to H10 from reset -/

theorem test_H1 : readValue 0x00800000000 State.reset = some (some 0) := by decide
theorem test_H2 : readValue 0x00400000000 State.reset = some (some 0) := by decide
theorem test_H3 : host 0x10400000000 State.reset = some State.reset := by decide
theorem test_H4 : statusAfter 0x10400000001 State.reset = some 0x00000002 := by decide
theorem test_H5 : statusAfter 0x10400000002 State.reset = some 0x00000106 := by decide
theorem test_H6 : statusAfter 0x10480000001 State.reset = some 0x00000106 := by decide
theorem test_H7 : host 0x12800000005 State.reset = some State.reset ∧
    readValue 0x02800000000 State.reset = some (some 0) := by decide
theorem test_H8 : (host 0x10000000003 State.reset).map (fun t => t.regs.CTRL.toWord) = some 1 := by decide
theorem test_H9 : host 0x10C00001234 State.reset = some State.reset := by decide
theorem test_H10 : host 0x10800000F01 State.reset = some State.reset := by decide

/-- The W1C sequence of section 2.6, its first and second line. -/
theorem test_status_ones_clear :
    (statusAfter 0x10800000002 { State.reset with regs := { job with STATUS := ⟨false, true, true, true, .len⟩ } } =
      some 0x20C) ∧
    (statusAfter 0x10800000004 { State.reset with regs := { job with STATUS := ⟨false, false, true, true, .len⟩ } } =
      some 0x008) := by decide

/-- P5: a START and a write of NBLK while busy. -/
theorem test_busy_writes : statusAfter 0x10400000001 (loading 0) = some 0x00000009 ∧
    (host 0x11000000009 (loading 0)).map (fun t => t.regs.NBLK) = some 1 ∧
    statusAfter 0x10400000011 (loading 0) = some 0x00000009 := by decide

/-- Each configuration register has its own place. -/
theorem test_configuration_places :
    (host 0x11000000005 State.reset).map (·.regs) = some (config 5 0 0 0 0 0) ∧
    (host 0x11400001000 State.reset).map (·.regs) = some (config 0 0x1000 0 0 0 0) ∧
    (host 0x11800002000 State.reset).map (·.regs) = some (config 0 0 0x2000 0 0 0) ∧
    (host 0x11C00003000 State.reset).map (·.regs) = some (config 0 0 0 0x3000 0 0) ∧
    (host 0x12000000140 State.reset).map (·.regs) = some (config 0 0 0 0 0x140 0) ∧
    (host 0x12400000080 State.reset).map (·.regs) = some (config 0 0 0 0 0 0x80) := by decide

theorem test_configuration_reads :
    let s : State := { State.reset with regs := { config 1 2 3 4 5 6 with BLKDONE := 7 } }
    readValue 0x01000000000 s = some (some 1) ∧ readValue 0x01400000000 s = some (some 2) ∧
    readValue 0x01800000000 s = some (some 3) ∧ readValue 0x01C00000000 s = some (some 4) ∧
    readValue 0x02000000000 s = some (some 5) ∧ readValue 0x02400000000 s = some (some 6) ∧
    readValue 0x00C00000000 s = some (some 7) := by decide

/-- Section 2.8: STATUS after a failed START (K2, K4, K6, K12) and after P1's START. -/
theorem test_start_status :
    (statusAfter 0x10400000001 { State.reset with regs := config 1 0x1000 0x2000 0x3000 64 128 } = some 0x206) ∧
    (statusAfter 0x10400000001 { State.reset with regs := config 1 0x1002 0x2000 0x3000 64 64 } = some 0x306) ∧
    (statusAfter 0x10400000001 { State.reset with regs := config 1 0xFFFFFFC4 0x2000 0x3000 64 64 } = some 0x406) ∧
    (statusAfter 0x10400000001 { State.reset with regs := config 1 0x1000 0x103F 0x3000 64 64 } = some 0x506) ∧
    statusAfter 0x10400000001 ready = some 0x001 := by decide

/-! ### CHECK: K1 to K22 -/

theorem test_check_K1_to_K8 :
    check (config 1 0x1000 0x2000 0x3000 64 64) = .none ∧ check (config 1 0x1000 0x2000 0x3000 64 128) = .len ∧
    check (config 1 0x1002 0x2000 0x3000 64 128) = .len ∧ check (config 1 0x1002 0x2000 0x3000 64 64) = .stateAlign ∧
    check (config 1 0xFFFFFFC0 0x2000 0x3000 64 64) = .none ∧ check (config 1 0xFFFFFFC4 0x2000 0x3000 64 64) = .range ∧
    check (config 1 0x1000 0xFFFFFFC0 0x3000 64 64) = .none ∧
    check (config 1 0x1000 0xFFFFFFC1 0x3000 64 64) = .range := by decide

theorem test_check_K9_to_K14 :
    check (config 1 0x1000 0x2000 0xFC0 64 64) = .none ∧ check (config 1 0x1000 0x2000 0xFC1 64 64) = .aliasing ∧
    check (config 1 0x1000 0x1040 0x3000 64 64) = .none ∧ check (config 1 0x1000 0x103F 0x3000 64 64) = .aliasing ∧
    check (config 1 0x1000 0x2000 0x2000 64 64) = .none ∧
    check (config 1 0x1000 0x2000 0x2001 64 64) = .none := by decide

theorem test_check_K15_to_K22 :
    check (config 0 0x1000 0x2000 0x3000 64 64) = .len ∧ check (config 0 0x1000 0xFFFFFFFF 0x1000 0 0) = .none ∧
    check (config 0 0x1002 0 0 0 0) = .stateAlign ∧ check (config 0 0xFFFFFFF0 0 0 0 0) = .range ∧
    check (config 0x04000000 0x1000 0x2000 0x3000 0 0) = .len ∧
    check (config 0x03FFFFFF 0x1000 0x2000 0x3000 0xFFFFFFC0 0xFFFFFFC0) = .range ∧
    check (config 2 0xFFFFFFC4 0xFFFFFFFF 0x1000 64 64) = .len ∧
    check (config 1 0x1003 0xFFFFFFF0 0x1000 64 64) = .stateAlign := by decide

/-! ### Round function, lanes, counter, XOR -/

/-- Section 2.1. -/
theorem test_rotl32 : rotl32 0x80000001 16 = 0x00018000 ∧ rotl32 0x80000000 7 = 0x00000040 ∧
    rotl32 0x12345678 8 = 0x34567812 ∧ rotl32 0x12345678 12 = 0x45678123 := by decide

/-- Q3 to Q7 and Q9. -/
theorem test_quarter_round :
    quarterRound 1 0 0 0 = (0x10000001, 0x80808808, 0x01010110, 0x01000110) ∧
    quarterRound 0 1 0 0 = (0x10001001, 0x88888808, 0x01110110, 0x01100110) ∧
    quarterRound 0 0 1 0 = (0x00001000, 0x08080080, 0x00100001, 0x00100000) ∧
    quarterRound 0 0 0 1 = (0x10000000, 0x80800808, 0x01010010, 0x01000010) ∧
    quarterRound 0xffffffff 0xffffffff 0xffffffff 0xffffffff = (0xf0000ffd, 0x88790878, 0x0110fdef, 0x010ffdf0) ∧
    quarterRound 0x80000000 0x80000000 0 0 = (0x00000800, 0x04040000, 0x00080000, 0x00080000) := by decide

/-- The array of section 2.2. -/
def counting : Words := #v[0, 1, 2, 3, 4, 5, 6, 7, 8, 9, 10, 11, 12, 13, 14, 15]

/-- R2v. -/
theorem test_column_round : columnRound counting =
    #v[0x8000c004, 0xb000c006, 0x6000c008, 0x5000c00a, 0x64624444, 0xe5e35cdd, 0x63643533, 0xe2e52daa,
      0x08c80488, 0x0bcb06b9, 0x06c6086a, 0x05c50a5b, 0x08c00480, 0x0bc006b0, 0x06c00860, 0x05c00a50] := by decide +kernel

/-- R3v. -/
theorem test_diagonal_round : diagonalRound counting =
    #v[0xa000f005, 0xb000d007, 0x4000f009, 0x9000d007, 0xecebcccc, 0x7d7ad555, 0xedebdddd, 0x7a7ca422,
      0x04f40948, 0x09d90799, 0x0afa05aa, 0x0bdb07bb, 0x0bd007b0, 0x04f00940, 0x09d00790, 0x0af005a0] := by decide +kernel

/-- R5v. -/
theorem test_rounds : rounds counting =
    #v[0x48e90081, 0xf390518c, 0x224b1422, 0x0e74bdb7, 0x888688d2, 0x108e96f4, 0x1de13d82, 0x71bc3e28,
      0x281ff786, 0x66900ebd, 0xd3bfbe82, 0x815f33ee, 0x665aaeb4, 0x7485a165, 0x61889ce7, 0x94255e20] := by decide +kernel

/-- Z0 of the section header. -/
def zeroKey : Words := #v[0x61707865, 0x3320646e, 0x79622d32, 0x6b206574, 0, 0, 0, 0, 0, 0, 0, 0, 0, 0, 0, 0]

/-- Section 1.3: the second block of the zero key, its first and last four bytes. -/
theorem test_second_block : (keystream zeroKey 1).toList.take 4 = [0x9f, 0x07, 0xe7, 0xbe] ∧
    (keystream zeroKey 1).toList.drop 60 = [0x4b, 0x79, 0x4d, 0x6f] := by decide +kernel

/-- L3, L4, L6. -/
theorem test_lane_counters :
    ((laneInit counting 0x00000000FFFFFFFF 1)[12], (laneInit counting 0x00000000FFFFFFFF 1)[13]) = (0, 1) ∧
    ((laneInit counting 0x00000000FFFFFFFE 3)[12], (laneInit counting 0x00000000FFFFFFFE 3)[13]) = (1, 1) ∧
    ((laneInit counting 0xFFFFFFFFFFFFFFFE 3)[12], (laneInit counting 0xFFFFFFFFFFFFFFFE 3)[13]) = (1, 0) := by decide

/-- C2, C3. -/
theorem test_counter_advance : counterAdvance (ctr64 0xffffffff 0) = 0x0000000100000000 ∧
    counterAdvance (ctr64 0xffffffff 0xffffffff) = 0 := by decide

/-- X1. -/
theorem test_xor_byte : xorByte 0x41 0x76 = 0x37 := by decide

/-- Section 2.7: the step counts of 1, 3, 5 and 9 blocks. -/
theorem test_step_counts : commandSteps 1 = 148 ∧ commandSteps 3 = 405 ∧ commandSteps 5 = 661 ∧ commandSteps 9 = 1174 := by
  decide

/-! ### One step of CORE -/

/-- Section 1.2: the word of bytes 76 b8 e0 ad is 0xade0b876, loaded as word 12. -/
theorem test_load_little_endian :
    ((next? (step { loading 12 with mem := [(0x1030, 0x76), (0x1031, 0xb8), (0x1032, 0xe0), (0x1033, 0xad)] })).map
      fun t => t.seq.S[12]) = some 0xade0b876 := by decide

/-- Section 2.7, BF1: the first RD step faults, STATUS is 0x606 after FIN. -/
theorem test_bus_fault_status :
    let s := { consuming .rd .one 1 0 with platform := ⟨0, [⟨⟨0x2000, 0x2000⟩, .byte, .read⟩], []⟩ }
    ((next? (step s)).bind fun t => (next? (step t)).map fun u => (u.regs.STATUS.toWord, u.regs.BLKDONE, u.mem)) =
      some (0x606, 0, []) := by decide

/-- Section 2.6: irq and its two ways down. -/
theorem test_irq :
    let s : State := { State.reset with regs := { job with CTRL := ⟨true⟩, STATUS := ⟨false, true, false, false, .none⟩ } }
    irq s = true ∧ (host 0x10800000002 s).map irq = some false ∧ (host 0x10000000000 s).map irq = some false := by decide

/-! ### Witnesses: states that meet the hypotheses of the statements -/

theorem inv_ready : MachineInv ready :=
  ⟨⟨rfl, by simp [ready, State.reset]⟩, ⟨by decide, by decide, by decide, by decide⟩,
    ⟨fun _ => rfl, rfl, fun _ => ⟨rfl, rfl⟩⟩,
    fun h => by simp [ready, job, config, Regs.reset] at h, fun h => by simp [ready, State.reset, Sequencer.reset] at h⟩

theorem inv_loading : MachineInv (loading 0) :=
  ⟨⟨rfl, by simp [loading, State.reset]⟩, ⟨by decide, by decide, by decide, by decide⟩,
    ⟨fun h => by simp [loading] at h, rfl, fun _ => ⟨rfl, rfl⟩⟩,
    fun _ => ⟨by decide, by decide, by decide, by decide, by decide, by decide, by decide, by decide, by decide⟩,
    fun h => by simp [loading] at h⟩

theorem inv_generating : MachineInv (generating 1) :=
  ⟨⟨rfl, by simp [generating, State.reset]⟩, ⟨by decide, by decide, by decide, by decide⟩,
    ⟨fun h => by simp [generating] at h, rfl, fun _ => ⟨rfl, rfl⟩⟩,
    fun _ => ⟨by decide, by decide, by decide, by decide, by decide, by decide, by decide, by decide, by decide⟩,
    fun h => by simp [generating] at h⟩

theorem inv_consuming (p : Phase) (i : Fin 64) (hp : p = .rd ∨ p = .wr) : MachineInv (consuming p .one 1 i) := by
  refine ⟨⟨rfl, by simp [consuming, State.reset]⟩, ⟨?_, ?_, fun _ => rfl, fun _ _ => rfl⟩, ⟨?_, rfl, ?_⟩, fun _ => ?_, ?_⟩
  · rcases hp with rfl | rfl <;> simp [consuming, running]
  · simp [consuming, running]
  · rcases hp with rfl | rfl <;> simp [consuming]
  · rcases hp with rfl | rfl <;> simp [consuming]
  · refine ⟨?_, rfl, rfl, fun _ => ?_, ?_, ?_, ?_, fun _ => ⟨?_, ?_⟩, ?_⟩
    · show check (running 0) = .none
      decide
    · show (0 : Counter) = counterOf Sequencer.reset.S + BitVec.ofNat 64 0
      decide
    · rcases hp with rfl | rfl <;> simp [consuming]
    · rcases hp with rfl | rfl <;> simp [consuming]
    · rcases hp with rfl | rfl <;> simp [consuming]
    · show 0 < 1
      decide
    · show 1 ≤ 1
      decide
    · rcases hp with rfl | rfl <;> simp [consuming]
  · intro _ l
    fin_cases l <;> rfl

theorem inv_writingBack : MachineInv (writingBack 0) ∧ MachineInv (writingBack 1) := by
  constructor <;> exact
    ⟨⟨rfl, by simp [writingBack, State.reset]⟩, ⟨by decide, by decide, by decide, by decide⟩,
      ⟨fun h => by simp [writingBack] at h, rfl, fun _ => ⟨rfl, rfl⟩⟩,
      fun _ => ⟨by decide, by decide, by decide, by decide, by decide, by decide, by decide, by decide, by decide⟩,
      fun h => by simp [writingBack] at h⟩

theorem inv_finishing : MachineInv finishing :=
  ⟨⟨rfl, by simp [finishing, State.reset]⟩, ⟨by decide, by decide, by decide, by decide⟩,
    ⟨fun h => by simp [finishing] at h, rfl, fun h => by simp [finishing] at h⟩,
    fun _ => ⟨by decide, by decide, by decide, by decide, by decide, by decide, by decide, by decide, by decide⟩,
    fun h => by simp [finishing] at h⟩

/-- P1's windows are ordinary memory on a platform with no other device. -/
theorem ordinary_job (s : State) (hr : s.regs.STATE_ADDR = 0x1000 ∧ s.regs.SRC_ADDR = 0x2000 ∧ s.regs.DST_ADDR = 0x3000)
    (hp : s.platform = Platform.reset) : Ordinary s := by
  intro a h
  simp only [InWindows, stateWindow, inputWindow, outputWindow, Window.Contains, hr.1, hr.2.1, hr.2.2] at h
  have ha : 0x1000 ≤ a := by
    rcases h with h | h | h
    · exact h.1
    · exact le_trans (by decide) h.1
    · exact le_trans (by decide) h.1
  have hb : ¬ a < 64 := by omega
  simp [Platform.isDevice, Platform.inWindow, hp, Platform.reset, hb]

/-- Moves of the host that R161 lets it make while P1 runs: a STATUS poll, CTRL <- 1 by address, a NOP, a write of memory
elsewhere, a read of the output, a STATUS acknowledge; CORE's turns fall between them. -/
def moves : List Turn :=
  [.access 0x00800000000, .core, .bus ⟨.write, 0x00, .word, 1⟩, .access 0x10400000000, .core, .core,
    .bus ⟨.write, 0x4000, .word, 0x12345678⟩, .bus ⟨.read, 0x3000, .byte, 0⟩, .access 0x1080000000E]

/-- P1 before its START, with the host acting. -/
def attended : State := { ready with turns := .access 0x10400000001 :: moves }

theorem launch_job (s : State) (rest : List Turn) (hr : s.regs = job) (hq : s.seq = Sequencer.reset)
    (hp : s.platform = Platform.reset) (hm : s.mem = []) (ht : s.turns = .access 0x10400000001 :: rest)
    (hc : ∀ u ∈ rest, u.completes Platform.reset = true)
    (hs : ∀ u ∈ rest, ∀ a, InWindows job a → u.stores Platform.reset a = false) : Launch s rest where
  inv := inv_ready.congr hr hq hm
  idle := by rw [hq]; rfl
  start := ht
  checked := by rw [hr]; decide
  blocks := by rw [hr]; decide
  faultFree := by constructor <;> rw [hp] <;> intros <;> rfl
  ordinary := ordinary_job s (by rw [hr]; exact ⟨rfl, rfl, rfl⟩) hp
  completes := fun u hu => by
    rw [hp]
    rcases mem_commandTurns hu with rfl | h
    · rfl
    · exact hc u h
  handsOff := fun u hu a ha => by
    rw [hp]
    rcases mem_commandTurns hu with rfl | h
    · rfl
    · exact hs u h a (hr ▸ ha)

theorem launch_ready : Launch ready [] := launch_job ready [] rfl rfl rfl rfl rfl (by simp) (by simp)

/-- The host's moves store no byte of P1's windows. -/
theorem launch_attended : Launch attended moves := by
  refine launch_job attended moves rfl rfl rfl rfl rfl (by decide) ?_
  intro u hu a ha
  have h : 0x1000 ≤ a ∧ a < 0x3040 := by
    simp only [InWindows, stateWindow, inputWindow, outputWindow, Window.Contains] at ha
    rcases ha with h | h | h
    · exact ⟨le_trans (by decide) h.1, lt_of_lt_of_le h.2 (by decide)⟩
    · exact ⟨le_trans (by decide) h.1, lt_of_lt_of_le h.2 (by decide)⟩
    · exact ⟨le_trans (by decide) h.1, lt_of_lt_of_le h.2 (by decide)⟩
  simp only [moves, List.mem_cons, List.not_mem_nil, or_false] at hu
  rcases hu with rfl | rfl | rfl | rfl | rfl | rfl | rfl | rfl | rfl <;> try rfl
  · simp [Turn.stores, Width.bytes]; omega
  · simp [Turn.stores]; omega

/-- R16, R110, R19: IE is 1 and IGN 0 after the moves; before the acknowledge IGN was 1. -/
theorem test_moves : moves.foldl (ctrlAfter Platform.reset) ⟨false⟩ = ⟨true⟩ ∧
    moves.foldl (ignAfter Platform.reset) false = false ∧
    (moves.take 8).foldl (ignAfter Platform.reset) false = true := by decide

/-- A word of each clause, at the edges of its range: offsets 0x00, 0x3C; 0x01, 0x3F; 0x40, 0xFC. -/
theorem witness_StepRunsDecodedInstruction :
    (∀ w ∈ [0x00000000000, 0x13C00000007], ∃ s : State, s.turns = .access w :: [] ∧ ∃ i, decode w = .ok i) ∧
    (∀ w ∈ [0x00100000000, 0x13F00000000], ∃ s : State, s.turns = .access w :: [] ∧ decode w = .error .offsetNotAligned) ∧
    (∀ w ∈ [0x04000000000, 0x1FC00000000], ∃ s : State, s.turns = .access w :: [] ∧
      decode w = .error .offsetOutsideWindow) := by
  simp only [List.mem_cons, List.not_mem_nil, or_false, forall_eq_or_imp, forall_eq]
  exact ⟨⟨⟨{ State.reset with turns := [.access 0x00000000000] }, rfl, .rdCtrl, by decide⟩,
      ⟨{ State.reset with turns := [.access 0x13C00000007] }, rfl, .rsvd30To3C true 3 7, by decide⟩⟩,
    ⟨⟨{ State.reset with turns := [.access 0x00100000000] }, rfl, by decide⟩,
      ⟨{ State.reset with turns := [.access 0x13F00000000] }, rfl, by decide⟩⟩,
    ⟨{ State.reset with turns := [.access 0x04000000000] }, rfl, by decide⟩,
      ⟨{ State.reset with turns := [.access 0x1FC00000000] }, rfl, by decide⟩⟩

theorem witness_StepTakesCoresTurn : (∃ s : State, s.turns = .core :: [.reset] ∧ s.seq.PHASE = .wr) ∧
    ∃ s : State, s.turns = [] ∧ s.seq.PHASE = .wr :=
  ⟨⟨{ consuming .wr .one 1 0 with turns := [.core, .reset] }, rfl, rfl⟩, consuming .wr .one 1 0, rfl, rfl⟩

theorem witness_DecodeReadsEncodedInstruction : Instr.wellFormed (.wrCmdIllegal 2) = true ∧
    Instr.wellFormed (.wrCmdIllegal 0xFFFFFFFF) = true ∧ Instr.wellFormed (.rsvd28To2C false 1 0) = true ∧
    Instr.wellFormed (.rsvd30To3C true 3 0xFFFFFFFF) = true := by decide

/-- A write, a read, and a read whose DATA is not 0. -/
theorem witness_DecodedWordIsTheInstructions : decode 0x12400000080 = .ok (.wrDstLen 0x80) ∧
    haWrite 0x12400000080 = true ∧ decode 0x00C00000000 = .ok .rdBlkdone ∧ decode 0x00C00000005 = .ok .rdBlkdone := by
  decide

/-- Both sides of each clause, at the edges of the operation code and of the reserved bits. -/
theorem witness_CommandWordLegalExactly :
    ((0 : Word).extractLsb' 4 28 = 0 ∧ (0 : Word).extractLsb' 0 4 = 0x0) ∧
    ((1 : Word).extractLsb' 4 28 = 0 ∧ (1 : Word).extractLsb' 0 4 = 0x1) ∧
    ((2 : Word).extractLsb' 0 4 ≠ 0x0 ∧ (2 : Word).extractLsb' 0 4 ≠ 0x1) ∧
    (0x11 : Word).extractLsb' 4 28 ≠ 0 ∧ (0x80000001 : Word).extractLsb' 4 28 ≠ 0 := by decide

/-- Every code occurs. -/
theorem witness_ControlAndStatusWords : ∀ e ∈ [ErrCode.none, .illegalCmd, .len, .stateAlign, .range, .aliasing, .bus],
    ∃ s : State, s.regs.STATUS.ERRCODE = e := fun e _ =>
  ⟨{ State.reset with regs := { job with STATUS := ⟨false, false, e != .none, false, e⟩ } }, rfl⟩

theorem witness_ConfigurationWritesWhileIdle : State.reset.regs.STATUS.BUSY = false := by decide
theorem witness_ConfigurationWritesWhileBusy : (loading 0).regs.STATUS.BUSY = true := by decide

/-- A running command whose host writes NBLK. -/
theorem witness_ConfigurationStableWhileBusy : ∃ s t : State,
    s.regs.STATUS.BUSY = true ∧ s.turns.head? ≠ some .reset ∧ step s = .next t :=
  ⟨{ loading 0 with turns := [.access 0x11000000009] }, loading 0, by decide, by decide, rfl⟩

theorem witness_NopWhileIdle : ready.regs.STATUS.BUSY = false := by decide
theorem witness_CommandWhileBusyIsIgnored : (consuming .rd .one 1 0).regs.STATUS.BUSY = true := by decide
theorem witness_IllegalCommandWhileIdle : ready.regs.STATUS.BUSY = false ∧ Instr.wellFormed (.wrCmdIllegal 0x11) = true := by
  decide

/-- One state for each code CHECK returns. -/
theorem witness_StartFailsBeforeAnyAccess :
    ∀ r ∈ [config 1 0x1000 0x2000 0x3000 64 128, config 1 0x1002 0x2000 0x3000 64 64,
      config 1 0xFFFFFFC4 0x2000 0x3000 64 64, config 1 0x1000 0x103F 0x3000 64 64],
      r.STATUS.BUSY = false ∧ check r ≠ .none := by decide

theorem witness_StartOfNoBlockSucceedsAtOnce :
    State.reset.regs.STATUS.BUSY = false ∧ check State.reset.regs = .none ∧ State.reset.regs.NBLK = 0 := by decide

theorem witness_StartLaunchesTheSequencer :
    ready.regs.STATUS.BUSY = false ∧ check ready.regs = .none ∧ ready.regs.NBLK ≠ 0 := by decide

/-- The three clauses at their edges: the fewest blocks too many, a passed CHECK, and K16. -/
theorem witness_CheckCornerCases :
    2 ^ 26 ≤ (config 0x04000000 0 0 0 0 0).NBLK.toNat ∧ check job = .none ∧
    let r := config 0 0xFFFFFFC0 0xFFFFFFFF 0xFFFFFFC0 0 0
    r.NBLK = 0 ∧ r.SRC_LEN = 0 ∧ r.DST_LEN = 0 ∧ r.STATE_ADDR.toNat % 4 = 0 ∧ r.STATE_ADDR.toNat + 64 ≤ 2 ^ 32 := by decide

/-- Words 0, 14 and 15. -/
theorem witness_LoadStepReadsOneWord : ∀ k : Fin 64, k = 0 ∨ k = 14 ∨ k = 15 →
    (loading k).seq.PHASE = .load ∧ (loading k).seq.IDX.val = k.val ∧
    (loading k).regs.STATE_ADDR.toNat + 4 * k.val + 4 ≤ 2 ^ 32 ∧
    (loading k).platform.busFault ⟨(loading k).regs.STATE_ADDR.toNat + 4 * k.val, .word, .read⟩ = false ∧
    ∀ i < 4, (loading k).platform.isDevice ((loading k).regs.STATE_ADDR.toNat + 4 * k.val + i) = false := by
  rintro k (rfl | rfl | rfl) <;> decide

/-- One to four blocks left, and more than any batch takes. -/
theorem witness_GenStepFillsTheLanes : ∀ r ∈ ([1, 2, 3, 4, 0xFFFFFFFF] : List Word),
    (generating r).seq.PHASE = .gen ∧ (generating r).seq.REM ≠ 0 := by
  simp only [List.mem_cons, List.not_mem_nil, or_false, forall_eq_or_imp, forall_eq]
  decide

/-- Bytes 0, 62 and 63. -/
theorem witness_ReadStepReadsOneByte : ∀ i : Fin 64, i = 0 ∨ i = 62 ∨ i = 63 →
    let s := consuming .rd .one 1 i
    s.seq.PHASE = .rd ∧ s.seq.IDX.val = i.val ∧ s.regs.SRC_ADDR.toNat + s.seq.CUR.toNat + i.val < 2 ^ 32 ∧
    s.platform.busFault ⟨s.regs.SRC_ADDR.toNat + s.seq.CUR.toNat + i.val, .byte, .read⟩ = false ∧
    s.platform.isDevice (s.regs.SRC_ADDR.toNat + s.seq.CUR.toNat + i.val) = false := by
  rintro i (rfl | rfl | rfl) <;> decide

/-- Bytes 0 and 62. -/
theorem witness_WriteStepWritesOneByte : ∀ i : Fin 64, i = 0 ∨ i = 62 →
    let s := consuming .wr .one 1 i
    s.seq.PHASE = .wr ∧ s.seq.IDX.val = i.val ∧ s.regs.DST_ADDR.toNat + s.seq.CUR.toNat + i.val < 2 ^ 32 ∧
    s.platform.busFault ⟨s.regs.DST_ADDR.toNat + s.seq.CUR.toNat + i.val, .byte, .write⟩ = false ∧
    s.platform.isDevice (s.regs.DST_ADDR.toNat + s.seq.CUR.toNat + i.val) = false := by
  rintro i (rfl | rfl) <;> decide

/-- A further lane, the last lane with blocks left, and the last block. -/
theorem witness_LastWriteStepCompletesTheBlock :
    ∀ s ∈ [consuming .wr .two 2 63, consuming .wr .one 2 63, consuming .wr .one 1 63],
    s.seq.PHASE = .wr ∧ s.seq.IDX = 63 ∧ s.regs.DST_ADDR.toNat + s.seq.CUR.toNat + 63 < 2 ^ 32 ∧
    s.platform.busFault ⟨s.regs.DST_ADDR.toNat + s.seq.CUR.toNat + 63, .byte, .write⟩ = false ∧
    s.platform.isDevice (s.regs.DST_ADDR.toNat + s.seq.CUR.toNat + 63) = false := by
  simp only [List.mem_cons, List.not_mem_nil, or_false, forall_eq_or_imp, forall_eq]
  decide

/-- Both words of the counter. -/
theorem witness_WriteBackStoresTheCounter :
    ∀ x ∈ ([(0, 48, 1), (1, 52, 0)] : List (Fin 64 × Nat × Word)),
    let s := writingBack x.1
    s.seq.PHASE = .wb ∧
    (s.seq.IDX = 0 ∧ x.2.1 = 48 ∧ x.2.2 = s.seq.CTR.setWidth 32 ∨
      s.seq.IDX = 1 ∧ x.2.1 = 52 ∧ x.2.2 = (s.seq.CTR >>> 32).setWidth 32) ∧
    s.regs.STATE_ADDR.toNat + x.2.1 + 4 ≤ 2 ^ 32 ∧
    s.platform.busFault ⟨s.regs.STATE_ADDR.toNat + x.2.1, .word, .write⟩ = false ∧
    ∀ i < 4, s.platform.isDevice (s.regs.STATE_ADDR.toNat + x.2.1 + i) = false := by
  simp only [List.mem_cons, List.not_mem_nil, or_false, forall_eq_or_imp, forall_eq]
  decide

theorem witness_FinClearsScratchAndSignals : finishing.seq.PHASE = .fin := rfl

/-- A faulting access in each phase that makes one. -/
theorem witness_BusFaultEndsTheCommand :
    ∀ s ∈ [loading 0, loading 15, consuming .rd .one 1 63, consuming .wr .one 1 63, writingBack 0, writingBack 1],
    ∃ a p, nextAccess { s with platform := p } = some a ∧ a.addr + a.width.bytes ≤ 2 ^ 32 ∧
      (s.seq.PHASE = .load → s.seq.IDX.val < 16) ∧ Platform.busFault p a = true ∧ s.turns = [] := by
  simp only [List.mem_cons, List.not_mem_nil, or_false, forall_eq_or_imp, forall_eq]
  exact ⟨⟨⟨0x1000, .word, .read⟩, ⟨0, [⟨⟨0x1000, 0x1000⟩, .word, .read⟩], []⟩, by decide⟩,
    ⟨⟨0x103C, .word, .read⟩, ⟨0, [⟨⟨0x1000, 0x1040⟩, .word, .read⟩], []⟩, by decide⟩,
    ⟨⟨0x203F, .byte, .read⟩, ⟨0, [⟨⟨0x203F, 0x203F⟩, .byte, .read⟩], []⟩, by decide⟩,
    ⟨⟨0x303F, .byte, .write⟩, ⟨0, [⟨⟨0x303F, 0x303F⟩, .byte, .write⟩], []⟩, by decide⟩,
    ⟨⟨0x1030, .word, .write⟩, ⟨0, [⟨⟨0x1030, 0x1030⟩, .word, .write⟩], []⟩, by decide⟩,
    ⟨⟨0x1034, .word, .write⟩, ⟨0, [⟨⟨0x1034, 0x1034⟩, .word, .write⟩], []⟩, by decide⟩⟩

/-- A reset in the middle of a command. -/
theorem witness_ResetClearsEverythingButMemory : ∃ s : State, s.turns = .reset :: [] ∧ s.regs.STATUS.BUSY = true :=
  ⟨{ loading 3 with turns := [.reset] }, by decide⟩

theorem witness_EveryStepKeepsTheInvariant : ∃ s t, MachineInv s ∧ step s = .next t ∧ t.regs.STATUS.BUSY = true :=
  ⟨loading 0, _, inv_loading, rfl, rfl⟩

theorem witness_BusyExactlyWhenNotIdle : ∃ s t : State,
    (s.regs.STATUS.BUSY = true ↔ s.seq.PHASE ≠ .idle) ∧ step s = .next t ∧ t.regs.STATUS.BUSY = false :=
  ⟨finishing, _, by decide, rfl, rfl⟩

theorem witness_ScratchClearWheneverIdle : ∃ s t : State,
    (s.seq.PHASE = .idle → s.seq.ScratchClear) ∧ step s = .next t ∧ t.seq.PHASE = .idle :=
  ⟨finishing, _, fun h => by simp [finishing] at h, rfl, rfl⟩

/-- Each access: a state word, an input byte, an output byte, both counter words. -/
theorem witness_AccessesStayInTheWindows :
    (MachineInv (loading 0) ∧ nextAccess (loading 0) = some ⟨0x1000, .word, .read⟩) ∧
    (MachineInv (consuming .rd .one 1 63) ∧ nextAccess (consuming .rd .one 1 63) = some ⟨0x203F, .byte, .read⟩) ∧
    (MachineInv (consuming .wr .one 1 63) ∧ nextAccess (consuming .wr .one 1 63) = some ⟨0x303F, .byte, .write⟩) ∧
    (MachineInv (writingBack 0) ∧ nextAccess (writingBack 0) = some ⟨0x1030, .word, .write⟩) ∧
    MachineInv (writingBack 1) ∧ nextAccess (writingBack 1) = some ⟨0x1034, .word, .write⟩ :=
  ⟨⟨inv_loading, rfl⟩, ⟨inv_consuming _ _ (.inl rfl), rfl⟩, ⟨inv_consuming _ _ (.inr rfl), rfl⟩,
    ⟨inv_writingBack.1, rfl⟩, inv_writingBack.2, rfl⟩

/-- The write of the low half of the counter. -/
theorem witness_CoreWritesOnlyOutputAndCounter : ∃ s t, MachineInv s ∧ coreStep s = .next t ∧ s.regs.STATUS.BUSY = true ∧
    ¬ (outputWindow s.regs).Contains 0x1037 ∧ ¬ (counterWindow s.regs).Contains 0x102F :=
  ⟨writingBack 0, _, inv_writingBack.1, rfl, rfl, by simp [Window.Contains]; decide, by simp [Window.Contains]; decide⟩

theorem witness_CoreAlwaysHasItsStep : MachineInv (consuming .wr .one 1 0) ∧
    ((consuming .wr .one 1 0).regs.STATUS.BUSY = true → Ordinary (consuming .wr .one 1 0)) :=
  ⟨inv_consuming _ _ (.inr rfl), fun _ => ordinary_job _ ⟨rfl, rfl, rfl⟩ rfl⟩

/-- A FIN step. -/
theorem witness_DoneRisesAfterEveryAccess : ∃ s t, MachineInv s ∧ step s = .next t ∧ s.regs.STATUS.DONE = false ∧
    t.regs.STATUS.DONE = true :=
  ⟨finishing, _, inv_finishing, rfl, rfl, rfl⟩

/-- Two states that differ in a secret byte of memory and in the snapshot. -/
theorem witness_SecretsDoNotSteer : ∃ s t, SameControl s t ∧ s.mem ≠ t.mem ∧ s.seq.S ≠ t.seq.S :=
  ⟨loading 5, { loading 5 with mem := [(0x1010, 7)], seq := { (loading 5).seq with S := counting } },
    ⟨rfl, rfl, rfl, rfl, rfl, rfl, rfl, rfl, rfl, rfl⟩, by decide, by decide⟩

theorem witness_RegistersRevealNoScratch : ∃ s t : State, s.regs = t.regs ∧ s.rdata = t.rdata ∧ s.seq ≠ t.seq ∧
    s.mem ≠ t.mem :=
  ⟨loading 5, { loading 5 with mem := [(0x1010, 7)], seq := { (loading 5).seq with S := counting } }, by decide⟩

theorem witness_CanonicalMemoryIsUnique : ∃ m m' : Memory, m.wf = true ∧ m'.wf = true ∧ ∀ a, m.read a = m'.read a :=
  ⟨[(0, 1), (0xFFFFFFFF, 255)], Memory.write (Memory.write [(5, 9), (0xFFFFFFFF, 255)] 5 0) 0 1, by decide, by decide,
    fun _ => rfl⟩

/-- At the first address above CORE's window and at the top of the address space. -/
theorem witness_HostReadsTheLastWrite :
    ∀ x ∈ ([(0x40, .byte), (0xFFFFFFFF, .byte), (0x41, .half), (0xFFFFFFFE, .half), (0x43, .word), (0xFFFFFFFC, .word)] :
      List (BitVec 32 × Width)), ∃ s : State,
    s.turns = .bus ⟨.write, x.1, x.2, 0x12345678⟩ :: .bus ⟨.read, x.1, x.2, 0⟩ :: [] ∧
    x.1.toNat + x.2.bytes ≤ 2 ^ 32 ∧ (∀ i < x.2.bytes, s.platform.isDevice (x.1.toNat + i) = false) ∧
    s.platform.busFault ⟨x.1.toNat, x.2, .write⟩ = false ∧ s.platform.busFault ⟨x.1.toNat, x.2, .read⟩ = false := by
  intro x hx
  refine ⟨{ State.reset with turns := [.bus ⟨.write, x.1, x.2, 0x12345678⟩, .bus ⟨.read, x.1, x.2, 0⟩] }, rfl, ?_⟩
  revert x
  decide

/-- A platform with CORE at 0x8000 and a device at 0x9000 to 0x9FFF, where every byte access, every word access that starts in
the window and the write of the last word fault. -/
def faulty : Platform :=
  ⟨0x8000, [⟨⟨0, 0xFFFFFFFF⟩, .byte, .read⟩, ⟨⟨0, 0xFFFFFFFF⟩, .byte, .write⟩, ⟨⟨0x8000, 0x803C⟩, .word, .read⟩,
    ⟨⟨0x8000, 0x803C⟩, .word, .write⟩, ⟨⟨0xFFFFFFFC, 0xFFFFFFFC⟩, .word, .write⟩], [⟨0x9000, 0x9FFF⟩]⟩

/-- The first and the last byte and the last word of memory, both sides of the window, a device; the first and the last
register. -/
theorem witness_FaultingHostAccessHasNoEffect :
    (∀ m ∈ [BusMove.mk .read 0 .byte 0, ⟨.write, 0xFFFFFFFF, .byte, 1⟩, ⟨.write, 0xFFFFFFFC, .word, 1⟩,
        ⟨.read, 0x7FFF, .byte, 0⟩, ⟨.write, 0x8040, .byte, 1⟩, ⟨.write, 0x9000, .byte, 1⟩], ∃ s : State,
      s.turns = .bus m :: [] ∧ s.platform.busFault ⟨m.addr.toNat, m.width, m.kind⟩ = true ∧
      m.addr.toNat + m.width.bytes ≤ 2 ^ 32 ∧ ∀ i < m.width.bytes, s.platform.inWindow (m.addr.toNat + i) = false) ∧
    ∀ m ∈ [BusMove.mk .read 0x8000 .word 0, ⟨.write, 0x803C, .word, 1⟩], ∃ s : State,
      s.turns = .bus m :: [] ∧ s.platform.busFault ⟨m.addr.toNat, m.width, m.kind⟩ = true ∧ m.width = .word ∧
      ∃ off : Fin 16, m.addr.toNat = s.platform.coreBase.toNat + 4 * off.val := by
  constructor <;> intro m hm <;> refine ⟨{ State.reset with platform := faulty, turns := [.bus m] }, rfl, ?_⟩ <;> revert m <;>
    decide

/-- First clause: a halfword and a word that pass the top. Second: a word whose last byte is a device's first, the device's last byte. Third: the
first and the last byte of a device. -/
theorem witness_HostAccessBeyondOrdinaryMemory : ∀ p, p = Platform.mk 0x8000 [] [⟨0x9000, 0x9FFF⟩] →
    (∀ m ∈ [BusMove.mk .read 0xFFFFFFFF .half 0, ⟨.write, 0xFFFFFFFD, .word, 1⟩], ∃ s : State,
      s.platform = p ∧ s.turns = .bus m :: [] ∧ (∀ i < m.width.bytes, s.platform.inWindow (m.addr.toNat + i) = false) ∧
      2 ^ 32 < m.addr.toNat + m.width.bytes) ∧
    (∀ m ∈ [BusMove.mk .write 0x8FFD .word 1, ⟨.write, 0x9FFF, .byte, 1⟩], ∃ s : State,
      s.platform = p ∧ s.turns = .bus m :: [] ∧ (∀ i < m.width.bytes, s.platform.inWindow (m.addr.toNat + i) = false) ∧
      m.addr.toNat + m.width.bytes ≤ 2 ^ 32 ∧ s.platform.busFault ⟨m.addr.toNat, m.width, m.kind⟩ = false ∧
      m.kind = .write ∧ ∃ i < m.width.bytes, s.platform.isDevice (m.addr.toNat + i) = true) ∧
    ∀ m ∈ [BusMove.mk .read 0x9000 .byte 0, ⟨.read, 0x9FFF, .byte, 0⟩], ∃ s : State,
      s.platform = p ∧ s.turns = .bus m :: [] ∧ (∀ i < m.width.bytes, s.platform.inWindow (m.addr.toNat + i) = false) ∧
      m.addr.toNat + m.width.bytes ≤ 2 ^ 32 ∧ s.platform.busFault ⟨m.addr.toNat, m.width, m.kind⟩ = false ∧
      m.kind = .read ∧ m.width = .byte ∧ s.platform.isDevice m.addr.toNat = true := by
  rintro _ rfl
  refine ⟨?_, ?_, ?_⟩ <;> intro m hm <;>
    refine ⟨{ State.reset with platform := ⟨0x8000, [], [⟨0x9000, 0x9FFF⟩]⟩, turns := [.bus m] }, rfl, rfl, ?_⟩ <;>
    revert m <;> decide

/-- First clause: the first and the last register. Second clause, where the first two accesses fault: a byte access, a word
that is not aligned, words that straddle the start and the end of the window. -/
theorem witness_WindowAccessesAreWholeRegisters :
    (∀ off : Fin 16, off = 0 ∨ off = 15 → ∃ (s : State) (m : BusMove), s.turns = .bus m :: [] ∧
      s.platform.busFault ⟨m.addr.toNat, m.width, m.kind⟩ = false ∧ m.width = .word ∧
      m.addr.toNat = s.platform.coreBase.toNat + 4 * off.val) ∧
    ∀ m ∈ [BusMove.mk .read 0x8000 .byte 0, ⟨.write, 0x8002, .word, 1⟩, ⟨.read, 0x7FFD, .word, 0⟩,
        ⟨.write, 0x803F, .word, 1⟩], ∃ s : State,
      s.turns = .bus m :: [] ∧ s.platform = faulty ∧
      (∃ a, m.addr.toNat ≤ a ∧ a < m.addr.toNat + m.width.bytes ∧ s.platform.inWindow a = true) ∧
      (m.width ≠ .word ∨ ∀ off : Fin 16, m.addr.toNat ≠ s.platform.coreBase.toNat + 4 * off.val) := by
  constructor
  · rintro off (rfl | rfl)
    · exact ⟨{ State.reset with turns := [.bus ⟨.read, 0, .word, 0⟩] }, _, rfl, by decide⟩
    · exact ⟨{ State.reset with turns := [.bus ⟨.read, 0x3C, .word, 0⟩] }, _, rfl, by decide⟩
  · intro m hm
    refine ⟨{ State.reset with platform := faulty, turns := [.bus m] }, rfl, rfl, ?_⟩
    simp only [List.mem_cons, List.not_mem_nil, or_false] at hm
    rcases hm with rfl | rfl | rfl | rfl
    · exact ⟨⟨0x8000, by decide⟩, by decide⟩
    · exact ⟨⟨0x8002, by decide⟩, by decide⟩
    · exact ⟨⟨0x8000, by decide⟩, by decide⟩
    · exact ⟨⟨0x803F, by decide⟩, by decide⟩

/-- R15, D3, I3: a byte access to the window is refused although the platform would fault it. -/
theorem test_non_word_refused_before_fault :
    step { State.reset with platform := faulty, turns := [.bus ⟨.read, 0x8000, .byte, 0⟩] } = .refused .hostNonWord :=
  rfl

/-- Alone, the first and the last step; and with the host acting: its 6 moves and the 148 steps of CORE. -/
theorem witness_CommandTakesExactlyItsSteps :
    (Launch ready [] ∧ 1 ≤ 148 ∧ 148 ≤ (commandTurns [] (commandSteps (blockCount ready.regs))).length) ∧
    Launch attended moves ∧ 1 ≤ 154 ∧ 154 ≤ (commandTurns moves (commandSteps (blockCount attended.regs))).length :=
  ⟨⟨launch_ready, by decide +kernel⟩, launch_attended, by decide +kernel⟩

/-- Separate buffers; and the two forms of buffers that do not overlap forward, at their edges. -/
theorem witness_CommandEncryptsTheBuffer : (Launch ready [] ∧ NoForwardOverlap ready.regs) ∧
    NoForwardOverlap (config 1 0x1000 0x2000 0x2000 64 64) ∧ NoForwardOverlap (config 1 0x1000 0x2000 0x2040 64 64) :=
  ⟨⟨launch_ready, .inr (by decide)⟩, .inl (by decide), .inr (by decide)⟩

/-- With the host acting, and the bytes beside the word it stores. -/
theorem witness_CommandEncryptsBesideTheHost : (Launch attended moves ∧ NoForwardOverlap attended.regs) ∧
    ∀ a ∈ [0x3FFF, 0x4004], ¬ (outputWindow attended.regs).Contains a ∧ ¬ (counterWindow attended.regs).Contains a ∧
      ∀ u ∈ commandTurns moves (commandSteps (blockCount attended.regs)), u.stores attended.platform a = false := by
  refine ⟨⟨launch_attended, .inr (by decide)⟩, fun a ha => ?_⟩
  have stores : ∀ u ∈ moves, u.stores Platform.reset a = false := by revert a; decide
  simp only [List.mem_cons, List.not_mem_nil, or_false] at ha
  refine ⟨?_, ?_, fun u hu => ?_⟩
  · rcases ha with rfl | rfl <;> exact fun h => absurd h.2 (by decide)
  · rcases ha with rfl | rfl <;> exact fun h => absurd h.2 (by decide)
  · rcases mem_commandTurns hu with rfl | h <;> [rfl; exact stores u h]

/-- Alone; and with a host that writes the command's own input, R150. -/
theorem witness_EveryCommandEnds : ∀ l ∈ [[], [Turn.bus ⟨.write, 0x2000, .byte, 1⟩, .core]], ∃ s, s.turns = l ∧
    MachineInv s ∧ s.regs.STATUS.BUSY = true ∧ Ordinary s ∧
    ∀ u ∈ commandTurns s.turns (commandSteps (blockCount s.regs)), u.completes s.platform = true := by
  intro l hl
  have completes : ∀ u ∈ l, u.completes Platform.reset = true := by revert l; decide
  refine ⟨{ loading 0 with turns := l }, rfl, inv_loading.congr rfl rfl rfl, rfl, ordinary_job _ ⟨rfl, rfl, rfl⟩ rfl,
    fun u hu => ?_⟩
  rcases mem_commandTurns hu with rfl | h <;> [rfl; exact completes u h]

end Sys2Proof.Tests
end

section
/-! SUPPORT. Proofs of the statements about registers, internal state, reset and the invariant (spec/10_state.md). -/

namespace Sys2Proof.Machine

/-! ### The configuration registers -/

/-- Two register windows with the same six configuration registers (R21 to R25). -/
structure Regs.SameConfig (t s : Regs) : Prop where
  nblk : t.NBLK = s.NBLK
  stateAddr : t.STATE_ADDR = s.STATE_ADDR
  srcAddr : t.SRC_ADDR = s.SRC_ADDR
  dstAddr : t.DST_ADDR = s.DST_ADDR
  srcLen : t.SRC_LEN = s.SRC_LEN
  dstLen : t.DST_LEN = s.DST_LEN

theorem Regs.SameConfig.refl (r : Regs) : r.SameConfig r := ⟨rfl, rfl, rfl, rfl, rfl, rfl⟩

/-- The block count is the value of NBLK. -/
theorem Regs.SameConfig.blockCount_eq {t s : Regs} (h : t.SameConfig s) : blockCount t = blockCount s := by
  simp [blockCount, h.nblk]

/-- CHECK reads nothing but the configuration registers (R112). -/
theorem Regs.SameConfig.check_eq {t s : Regs} (h : t.SameConfig s) : check t = check s := by
  simp [check, stateWindow, inputWindow, outputWindow, bufferLength, h.blockCount_eq, h.stateAddr, h.srcAddr, h.dstAddr,
    h.srcLen, h.dstLen]

/-- CORE's steps change no configuration register. -/
theorem CoreCase.sameConfig {s t : State} (h : CoreCase s t) : t.regs.SameConfig s.regs := by
  obtain ⟨_, h1, h2, h3, h4, h5, h6, _⟩ := coreCase_frame h
  exact ⟨h1, h2, h3, h4, h5, h6⟩

/-- While BUSY no instruction changes a configuration register (R26). -/
theorem ExecCase.sameConfig {s t : State} (h : ExecCase s t) (hb : s.regs.STATUS.BUSY = true) :
    t.regs.SameConfig s.regs := by
  cases h with
  | none | read => exact .refl _
  | control | status | busy => exact ⟨rfl, rfl, rfl, rfl, rfl, rfl⟩
  | config hi | fail hi | done hi | launch hi => simp [hb] at hi

/-- A bus move of the host changes a register only as an instruction does. -/
theorem BusCase.sameConfig {m : BusMove} {s t : State} (h : BusCase m s t) (hb : s.regs.STATUS.BUSY = true) :
    t.regs.SameConfig s.regs := by
  cases h with
  | register i t hi => exact (exec_cases hi).sameConfig hb
  | read | lost | write => exact .refl _

/-- No turn but a reset changes a configuration register while BUSY (R26, R149). -/
theorem takeTurn_sameConfig {u : Turn} {s t : State} (hu : u ≠ .reset) (hb : s.regs.STATUS.BUSY = true)
    (h : takeTurn u s = .next t) : t.regs.SameConfig s.regs := by
  cases u with
  | core => exact (coreStep_cases h).sameConfig
  | access ha =>
    obtain ⟨i, _, hi⟩ := hostAccess_next h
    exact (exec_cases hi).sameConfig hb
  | bus m => exact (hostBus_cases h).sameConfig hb
  | reset => exact absurd rfl hu

/-! ### PHASE and BUSY -/

/-- PHASE after a step of LOAD. -/
theorem loaded_PHASE (v : Word) (q : Sequencer) : (loaded v q).PHASE = if q.IDX = 15 then .gen else q.PHASE := by
  unfold loaded; split <;> rfl

/-- PHASE after a step of RD. -/
theorem inputRead_PHASE (b : Byte) (q : Sequencer) : (inputRead b q).PHASE = if q.IDX = 63 then .wr else q.PHASE := by
  unfold inputRead; split <;> rfl

/-- PHASE after a step of WB. -/
theorem counterWritten_PHASE (s : State) :
    (counterWritten s).seq.PHASE = if s.seq.IDX = 0 then s.seq.PHASE else .fin := by
  unfold counterWritten; split <;> rfl

/-- BLOCKDONE goes on with the next lane, the next batch or the write back (R117). -/
theorem blockConsumed_cases (q : Sequencer) :
    (q.LI.val + 1 < q.N.lanes ∧ (blockConsumed q).PHASE = .rd ∧ (blockConsumed q).N = q.N ∧
      (blockConsumed q).LI = q.LI + 1) ∨
    (q.N.lanes ≤ q.LI.val + 1 ∧ q.REM - 1 ≠ 0 ∧ (blockConsumed q).PHASE = .gen ∧ (blockConsumed q).N = .zero ∧
      (blockConsumed q).LI = 0) ∨
    (q.N.lanes ≤ q.LI.val + 1 ∧ q.REM - 1 = 0 ∧ (blockConsumed q).PHASE = .wb ∧ (blockConsumed q).N = .zero ∧
      (blockConsumed q).LI = 0) := by
  unfold blockConsumed
  dsimp only
  split
  · next h => exact .inl ⟨h, rfl, rfl, rfl⟩
  · next h =>
    split
    · next hr => exact .inr (.inl ⟨by omega, hr, rfl, rfl, rfl⟩)
    · next hr => exact .inr (.inr ⟨by omega, by simpa using hr, rfl, rfl, rfl⟩)

/-- BLOCKDONE never ends the command. -/
theorem blockConsumed_PHASE_ne_idle (q : Sequencer) : (blockConsumed q).PHASE ≠ .idle := by
  rcases blockConsumed_cases q with ⟨_, h, _⟩ | ⟨_, _, h, _⟩ | ⟨_, _, h, _⟩ <;> simp [h]

/-- An output byte never ends the command. -/
theorem outputWritten_PHASE_ne_idle {s : State} (h : s.seq.PHASE ≠ .idle) : (outputWritten s).seq.PHASE ≠ .idle := by
  by_cases hi : s.seq.IDX = 63
  · rw [outputWritten_last hi]; exact blockConsumed_PHASE_ne_idle s.seq
  · rw [outputWritten_more hi]; exact h

/-- CORE waits in IDLE, ends a command in FIN, and in every other step goes on with it. -/
theorem CoreCase.goes_on_or_ends {s t : State} (h : CoreCase s t) :
    (s.seq.PHASE = .idle ∧ t = s) ∨ (s.seq.PHASE = .fin ∧ t = finish s) ∨
      (s.seq.PHASE ≠ .idle ∧ t.seq.PHASE ≠ .idle ∧ t.regs.STATUS.BUSY = s.regs.STATUS.BUSY) := by
  cases h with
  | idle hp => exact .inl ⟨hp, rfl⟩
  | fin hp => exact .inr (.inl ⟨hp, rfl⟩)
  | load hp => refine .inr (.inr ⟨by simp [hp], ?_, rfl⟩); rw [loaded_PHASE]; split <;> simp [hp]
  | gen hp => exact .inr (.inr ⟨by simp [hp], by simp [generated], rfl⟩)
  | rd hp => refine .inr (.inr ⟨by simp [hp], ?_, rfl⟩); rw [inputRead_PHASE]; split <;> simp [hp]
  | wr hp =>
    have hne : s.seq.PHASE ≠ .idle := by simp [hp]
    exact .inr (.inr ⟨hne, outputWritten_PHASE_ne_idle hne, by simp⟩)
  | wb hp => refine .inr (.inr ⟨by simp [hp], ?_, by simp⟩); rw [counterWritten_PHASE]; split <;> simp [hp]
  | busFault a ha => exact .inr (.inr ⟨fun hp => by simp [nextAccess, hp] at ha, by simp, by simp⟩)

/-- An instruction leaves the internal state and BUSY alone, or launches a command. -/
theorem ExecCase.keeps_or_launches {s t : State} (h : ExecCase s t) :
    (t.seq = s.seq ∧ t.regs.STATUS.BUSY = s.regs.STATUS.BUSY) ∨
      (t.seq.PHASE = .load ∧ t.regs.STATUS.BUSY = true) := by
  cases h with
  | launch => exact .inr ⟨rfl, rfl⟩
  | none | read | control | status | config | busy | fail | done => exact .inl ⟨rfl, rfl⟩

/-! ### Counting blocks without wrap -/

/-- The buffers of a command that passes CHECK leave room for WS, so 64 * M is below 2^32 (R112). -/
theorem bufferLength_lt_of_check {r : Regs} (h : check r = .none) : bufferLength r < 2 ^ 32 := by
  obtain ⟨_, _, _, hw, hi, _, ho, _⟩ := check_passed h
  by_contra hlt
  have : (stateWindow r).overlaps (inputWindow r) = true :=
    (overlaps_iff _ _).mpr ⟨r.STATE_ADDR.toNat, by
      simp only [Window.Contains, stateWindow, inputWindow, Config.stateBytes]; omega⟩
  simp [ho] at this

/-- The counter of the next block. -/
theorem counterAdvance_add (c : Counter) (n : Nat) :
    counterAdvance (c + BitVec.ofNat 64 n) = c + BitVec.ofNat 64 (n + 1) := by
  simp [counterAdvance, BitVec.ofNat_add, BitVec.add_assoc]

/-- While blocks remain, BLOCKDONE's three sums do not wrap (R35). -/
theorem CommandInv.blockDone_toNat {s : State} (h : CommandInv s) (hr : s.seq.REM ≠ 0) :
    (s.seq.REM - 1).toNat = s.seq.REM.toNat - 1 ∧ 1 ≤ s.seq.REM.toNat ∧
      (s.regs.BLKDONE + 1).toNat = s.regs.BLKDONE.toNat + 1 ∧ (s.seq.CUR + 64).toNat = s.seq.CUR.toNat + 64 := by
  have hpos : s.seq.REM.toNat ≠ 0 := fun e => hr (BitVec.eq_of_toNat_eq (by simpa using e))
  have hlt := bufferLength_lt_of_check h.checked
  have hrem := h.remaining
  have hcur := h.cursor
  rw [bufferLength_eq] at hlt
  simp only [blockCount] at hrem
  refine ⟨toNat_sub_one hr, by omega, ?_, ?_⟩
  · rw [BitVec.toNat_add]; simp; omega
  · rw [BitVec.toNat_add]; simp; omega

/-! ### The command's invariant by phase -/

section
variable {s : State} (checked : check s.regs = .none)
  (remaining : s.seq.REM.toNat + s.regs.BLKDONE.toNat = blockCount s.regs)
  (cursor : s.seq.CUR.toNat = 64 * s.regs.BLKDONE.toNat)
include checked remaining cursor

theorem CommandInv.of_load (hp : s.seq.PHASE = .load) (hi : s.seq.IDX.val < 16) (hd : s.regs.BLKDONE = 0)
    (hr : s.seq.REM ≠ 0) (hn : s.seq.N = .zero) (hl : s.seq.LI = 0) : CommandInv s where
  checked := checked
  remaining := remaining
  cursor := cursor
  counter := by simp [hp]
  loading _ := ⟨hi, hd, hr⟩
  batchStart := by simp [hp]
  outsideBatch _ := ⟨hn, hl⟩
  lanes := by simp [hp]
  writingBack := by simp [hp]

theorem CommandInv.of_gen (hp : s.seq.PHASE = .gen)
    (hc : s.seq.CTR = counterOf s.seq.S + BitVec.ofNat 64 s.regs.BLKDONE.toNat)
    (hr : s.seq.REM ≠ 0) (hi : s.seq.IDX = 0) (hn : s.seq.N = .zero) (hl : s.seq.LI = 0) : CommandInv s where
  checked := checked
  remaining := remaining
  cursor := cursor
  counter _ := hc
  loading := by simp [hp]
  batchStart _ := ⟨hr, hi⟩
  outsideBatch _ := ⟨hn, hl⟩
  lanes := by simp [hp]
  writingBack := by simp [hp]

theorem CommandInv.of_batch (hp : s.seq.PHASE = .rd ∨ s.seq.PHASE = .wr)
    (hc : s.seq.CTR = counterOf s.seq.S + BitVec.ofNat 64 s.regs.BLKDONE.toNat)
    (hl : s.seq.LI.val < s.seq.N.lanes) (hn : s.seq.N.lanes ≤ s.seq.REM.toNat + s.seq.LI.val) : CommandInv s where
  checked := checked
  remaining := remaining
  cursor := cursor
  counter _ := hc
  loading := by rcases hp with hp | hp <;> simp [hp]
  batchStart := by rcases hp with hp | hp <;> simp [hp]
  outsideBatch := by rcases hp with hp | hp <;> simp [hp]
  lanes _ := ⟨hl, hn⟩
  writingBack := by rcases hp with hp | hp <;> simp [hp]

theorem CommandInv.of_wb (hp : s.seq.PHASE = .wb)
    (hc : s.seq.CTR = counterOf s.seq.S + BitVec.ofNat 64 s.regs.BLKDONE.toNat)
    (hi : s.seq.IDX.val < 2) (hr : s.seq.REM = 0) (hn : s.seq.N = .zero) (hl : s.seq.LI = 0) : CommandInv s where
  checked := checked
  remaining := remaining
  cursor := cursor
  counter _ := hc
  loading := by simp [hp]
  batchStart := by simp [hp]
  outsideBatch _ := ⟨hn, hl⟩
  lanes := by simp [hp]
  writingBack _ := ⟨hi, hr⟩

theorem CommandInv.of_fin (hp : s.seq.PHASE = .fin) : CommandInv s where
  checked := checked
  remaining := remaining
  cursor := cursor
  counter := by simp [hp]
  loading := by simp [hp]
  batchStart := by simp [hp]
  outsideBatch := by simp [hp]
  lanes := by simp [hp]
  writingBack := by simp [hp]

end

/-- Outside RD and WR no keystream is claimed. -/
theorem KeystreamInv.of_phase {s : State} (hr : s.seq.PHASE ≠ .rd) (hw : s.seq.PHASE ≠ .wr) : KeystreamInv s :=
  fun hp => (hp.elim hr hw).elim

/-! ### The invariant of the machine, by kind of change -/

/-- BUSY is the invariant's word for a phase other than IDLE. -/
theorem MachineInv.command_of_phase {s : State} (h : MachineInv s) (hp : s.seq.PHASE ≠ .idle) : CommandInv s :=
  h.command (h.status.busy_iff.mpr hp)

/-- While not BUSY the internal state is that of reset. -/
theorem MachineInv.seq_of_not_busy {s : State} (h : MachineInv s) (hb : s.regs.STATUS.BUSY = false) :
    s.seq = Sequencer.reset := by
  refine h.hygiene.idle ?_
  by_contra hp
  simp [h.status.busy_iff.mpr hp] at hb

/-- An idle machine meets the invariant once its memory and its error code do. -/
theorem MachineInv.of_idle {t : State} (hm : MemoryInv t.mem) (hb : t.regs.STATUS.BUSY = false)
    (hq : t.seq = Sequencer.reset) (he : t.regs.STATUS.ERR = true ↔ t.regs.STATUS.ERRCODE ≠ .none) : MachineInv t where
  memory := hm
  status := ⟨by simp [hb, hq, Sequencer.reset], he, by simp [hb], by simp [hb]⟩
  hygiene := ⟨fun _ => hq, by rw [hq]; rfl, fun _ => by simp [hq]⟩
  command := by simp [hb]
  keystream := .of_phase (by simp [hq, Sequencer.reset]) (by simp [hq, Sequencer.reset])

/-- Memory's clause is apart from the others. -/
theorem MachineInv.withMem {s : State} {m : Memory} (h : MachineInv s) (hm : MemoryInv m) :
    MachineInv { s with mem := m } :=
  ⟨hm, ⟨h.status.busy_iff, h.status.err_iff, h.status.not_done, h.status.no_error⟩,
    ⟨h.hygiene.idle, h.hygiene.pipeline, h.hygiene.buffers⟩, fun hb =>
      have c := h.command hb
      ⟨c.checked, c.remaining, c.cursor, c.counter, c.loading, c.batchStart, c.outsideBatch, c.lanes, c.writingBack⟩,
    h.keystream⟩

/-- A change of CTRL and of STATUS that raises neither DONE nor ERR and keeps BUSY and the code of ERR. -/
theorem MachineInv.of_flags {s t : State} (h : MachineInv s) (hq : t.seq = s.seq) (hm : t.mem = s.mem)
    (hc : t.regs.SameConfig s.regs) (hk : t.regs.BLKDONE = s.regs.BLKDONE)
    (hb : t.regs.STATUS.BUSY = s.regs.STATUS.BUSY)
    (hd : s.regs.STATUS.DONE = false → t.regs.STATUS.DONE = false)
    (he : s.regs.STATUS.ERR = false → t.regs.STATUS.ERR = false)
    (hx : t.regs.STATUS.ERR = true ↔ t.regs.STATUS.ERRCODE ≠ .none) : MachineInv t where
  memory := hm ▸ h.memory
  status := ⟨by rw [hb, hq]; exact h.status.busy_iff, hx, fun b => hd (h.status.not_done (hb ▸ b)),
    fun b hp => he (h.status.no_error (hb ▸ b) (hq ▸ hp))⟩
  hygiene := ⟨by rw [hq]; exact h.hygiene.idle, by rw [hq]; exact h.hygiene.pipeline,
    by rw [hq]; exact h.hygiene.buffers⟩
  command b :=
    have c := h.command (hb ▸ b)
    ⟨hc.check_eq.trans c.checked, by rw [hq, hk, hc.blockCount_eq]; exact c.remaining, by rw [hq, hk]; exact c.cursor,
      by rw [hq, hk]; exact c.counter, by rw [hq, hk]; exact c.loading, by rw [hq]; exact c.batchStart,
      by rw [hq]; exact c.outsideBatch, by rw [hq]; exact c.lanes, by rw [hq]; exact c.writingBack⟩
  keystream := by unfold KeystreamInv; rw [hq, hk]; exact h.keystream

/-- A step that goes on with a command and leaves STATUS and the pipeline alone. -/
theorem MachineInv.of_running {s t : State} (h : MachineInv s) (hp : s.seq.PHASE ≠ .idle) (hf : s.seq.PHASE ≠ .fin)
    (hp' : t.seq.PHASE ≠ .idle) (hs : t.regs.STATUS = s.regs.STATUS) (hm : t.mem = s.mem) (hx : t.seq.X = s.seq.X)
    (hbuf : t.seq.PHASE = .load ∨ t.seq.PHASE = .gen ∨ t.seq.PHASE = .wb →
      t.seq.IN = Sequencer.reset.IN ∧ t.seq.KS = Sequencer.reset.KS)
    (hc : CommandInv t) (hk : KeystreamInv t) : MachineInv t := by
  have hb := h.status.busy_iff.mpr hp
  refine ⟨hm ▸ h.memory, ⟨?_, ?_, ?_, ?_⟩, ⟨fun e => absurd e hp', hx.trans h.hygiene.pipeline, hbuf⟩, fun _ => hc, hk⟩
  · simp [hs, hb, hp']
  · rw [hs]; exact h.status.err_iff
  · rw [hs]; exact h.status.not_done
  · rw [hs]; exact fun _ _ => h.status.no_error hb hf

/-! ### CORE's steps keep the invariant -/

/-- LOAD (R113). -/
theorem MachineInv.load_step {s : State} (h : MachineInv s) (hp : s.seq.PHASE = .load) (v : Word) :
    MachineInv { s with seq := loaded v s.seq } := by
  have c := h.command_of_phase (by simp [hp])
  obtain ⟨hi, hd, hr⟩ := c.loading hp
  obtain ⟨hn, hl⟩ := c.outsideBatch (.inl hp)
  have hbuf := h.hygiene.buffers (.inl hp)
  by_cases hlast : s.seq.IDX = 15
  · rw [loaded_last hlast]
    refine h.of_running (by simp [hp]) (by simp [hp]) (by simp) rfl rfl rfl (fun _ => hbuf) ?_
      (.of_phase (by simp) (by simp))
    exact .of_gen c.checked c.remaining c.cursor rfl (by simp [hd]) hr rfl hn hl
  · rw [loaded_more hlast]
    refine h.of_running (by simp [hp]) (by simp [hp]) (by simp [hp]) rfl rfl rfl (fun _ => hbuf) ?_
      (.of_phase (by simp [hp]) (by simp [hp]))
    refine .of_load c.checked c.remaining c.cursor hp ?_ hd hr hn hl
    show (s.seq.IDX + 1).val < 16
    omega

/-- GEN (R114): the lanes chosen hold their keystream blocks, the others stay 0. -/
theorem MachineInv.gen_step {s : State} (h : MachineInv s) (hp : s.seq.PHASE = .gen) :
    MachineInv { s with seq := generated s.seq } := by
  have c := h.command_of_phase (by simp [hp])
  obtain ⟨hr, _⟩ := c.batchStart hp
  have hc := c.counter (.inl hp)
  obtain ⟨hpos, hle⟩ := chooseTier_le hr
  refine h.of_running (by simp [hp]) (by simp [hp]) (by simp [generated]) rfl rfl h.hygiene.pipeline.symm
    (by simp [generated]) ?_ ?_
  · exact .of_batch c.checked c.remaining c.cursor (.inl rfl) hc hpos hle
  · intro _ l
    have hks := (h.hygiene.buffers (.inr (.inl hp))).2
    simp only [generated, Fin.getElem_fin, getElem_generate, hc, laneBlock_eq_keystream, hks]
    simp [Sequencer.reset]

/-- RD (R115). -/
theorem MachineInv.rd_step {s : State} (h : MachineInv s) (hp : s.seq.PHASE = .rd) (b : Byte) :
    MachineInv { s with seq := inputRead b s.seq } := by
  have c := h.command_of_phase (by simp [hp])
  obtain ⟨hl, hn⟩ := c.lanes (.inl hp)
  have hc := c.counter (.inr (.inl hp))
  have hk := h.keystream (.inl hp)
  by_cases hlast : s.seq.IDX = 63
  · rw [inputRead_last hlast]
    exact h.of_running (by simp [hp]) (by simp [hp]) (by simp) rfl rfl rfl (by simp)
      (.of_batch c.checked c.remaining c.cursor (.inr rfl) hc hl hn) fun _ => hk
  · rw [inputRead_more hlast]
    exact h.of_running (by simp [hp]) (by simp [hp]) (by simp [hp]) rfl rfl rfl (by simp [hp])
      (.of_batch c.checked c.remaining c.cursor (.inl hp) hc hl hn) fun _ => hk

/-- What BLOCKDONE leaves in the fields that do not depend on where it goes on (R117). -/
theorem blockConsumed_fields (q : Sequencer) : (blockConsumed q).S = q.S ∧ (blockConsumed q).X = q.X ∧
    (blockConsumed q).CTR = counterAdvance q.CTR ∧ (blockConsumed q).CUR = q.CUR + 64 ∧
    (blockConsumed q).REM = q.REM - 1 ∧ (blockConsumed q).IDX = 0 ∧ (blockConsumed q).IN = Sequencer.reset.IN ∧
    (blockConsumed q).KS = q.KS.set q.LI.val (Vector.replicate 64 0) := by
  unfold blockConsumed
  dsimp only
  split
  · exact ⟨rfl, rfl, rfl, rfl, rfl, rfl, rfl, rfl⟩
  · split <;> exact ⟨rfl, rfl, rfl, rfl, rfl, rfl, rfl, rfl⟩

/-- After a block the lanes beyond its own still hold their keystream, the others are 0 (R92, R117). -/
theorem KeystreamInv.blockConsumed_KS {s : State} (h : KeystreamInv s) (hp : s.seq.PHASE = .wr) (l : Fin 4) :
    (blockConsumed s.seq).KS[l] =
      if s.seq.LI < l ∧ l.val < s.seq.N.lanes
      then keystream s.seq.S (s.regs.BLKDONE.toNat + (l.val - s.seq.LI.val))
      else Vector.replicate 64 0 := by
  obtain ⟨_, _, _, _, _, _, _, hks⟩ := blockConsumed_fields s.seq
  have hl := h (.inr hp) l
  rw [Fin.getElem_fin] at hl ⊢
  rw [hks, Vector.getElem_set, hl]
  by_cases he : s.seq.LI = l
  · simp [he]
  · have hlt : s.seq.LI ≤ l ↔ s.seq.LI < l := ⟨fun hle => lt_of_le_of_ne hle he, le_of_lt⟩
    rw [if_neg (fun e => he (Fin.ext e))]
    simp only [hlt]

/-- When the block was the batch's last, KS is 0. -/
theorem KeystreamInv.blockConsumed_KS_last {s : State} (h : KeystreamInv s) (hp : s.seq.PHASE = .wr)
    (hl : s.seq.N.lanes ≤ s.seq.LI.val + 1) : (blockConsumed s.seq).KS = Sequencer.reset.KS := by
  refine Vector.ext fun i hi => ?_
  have hk := h.blockConsumed_KS hp ⟨i, hi⟩
  rw [if_neg (by rw [Fin.lt_def]; dsimp only; omega)] at hk
  simpa [Sequencer.reset] using hk

/-- The keystream clause after a block that was not the batch's last. -/
theorem KeystreamInv.next_lane {s : State} (h : KeystreamInv s) (hp : s.seq.PHASE = .wr)
    (hN : (blockConsumed s.seq).N = s.seq.N) (hL : (blockConsumed s.seq).LI.val = s.seq.LI.val + 1)
    (hd : (s.regs.BLKDONE + 1).toNat = s.regs.BLKDONE.toNat + 1) : KeystreamInv (blockDone s) := by
  intro _ l
  obtain ⟨hS, _⟩ := blockConsumed_fields s.seq
  rw [blockDone_seq, blockDone_BLKDONE, h.blockConsumed_KS hp, hN, hS, hd]
  simp only [Fin.lt_def, Fin.le_def, hL, Nat.succ_le_iff]
  by_cases hc : s.seq.LI.val < l.val ∧ l.val < s.seq.N.lanes
  · have hj : s.regs.BLKDONE.toNat + (l.val - s.seq.LI.val) =
        s.regs.BLKDONE.toNat + 1 + (l.val - (s.seq.LI.val + 1)) := by omega
    rw [if_pos hc, if_pos hc, hj]
  · rw [if_neg hc, if_neg hc]

/-- BLOCKDONE (R117). -/
theorem MachineInv.block_done {s : State} (h : MachineInv s) (hp : s.seq.PHASE = .wr) : MachineInv (blockDone s) := by
  have c := h.command_of_phase (by simp [hp])
  obtain ⟨hl, hn⟩ := c.lanes (.inr hp)
  have hr : s.seq.REM ≠ 0 := fun e => by simp [e] at hn; omega
  obtain ⟨hrem, hpos, hdone, hcur⟩ := c.blockDone_toNat hr
  obtain ⟨hS, hX, hCTR, hCUR, hREM, hIDX, hIN, _⟩ := blockConsumed_fields s.seq
  have remaining : (blockDone s).seq.REM.toNat + (blockDone s).regs.BLKDONE.toNat = blockCount (blockDone s).regs := by
    have hM : blockCount (blockDone s).regs = blockCount s.regs := rfl
    have := c.remaining
    rw [blockDone_seq, hREM, blockDone_BLKDONE, hM]
    omega
  have cursor : (blockDone s).seq.CUR.toNat = 64 * (blockDone s).regs.BLKDONE.toNat := by
    have := c.cursor
    rw [blockDone_seq, hCUR, blockDone_BLKDONE]
    omega
  have counter : (blockDone s).seq.CTR = counterOf (blockDone s).seq.S +
      BitVec.ofNat 64 (blockDone s).regs.BLKDONE.toNat := by
    rw [blockDone_seq, hCTR, hS, blockDone_BLKDONE, hdone, c.counter (.inr (.inr (.inl hp))), counterAdvance_add]
  have running := h.of_running (t := blockDone s) (by simp [hp]) (by simp [hp])
    (blockConsumed_PHASE_ne_idle s.seq) rfl rfl hX
  rcases blockConsumed_cases s.seq with ⟨hlt, hP, hN, hL⟩ | ⟨hlast, hleft, hP, hN, hL⟩ | ⟨hlast, hleft, hP, hN, hL⟩
  · have hLI : (blockConsumed s.seq).LI.val = s.seq.LI.val + 1 := by
      have := lanes_le_four s.seq.N
      rw [hL]; omega
    refine running (by simp [hP]) ?_ (h.keystream.next_lane hp hN hLI hdone)
    refine .of_batch c.checked remaining cursor (.inl hP) counter ?_ ?_
    · rw [blockDone_seq, hLI, hN]; exact hlt
    · rw [blockDone_seq, hLI, hN, hREM]; omega
  · exact running (fun _ => ⟨hIN, h.keystream.blockConsumed_KS_last hp hlast⟩)
      (.of_gen c.checked remaining cursor hP counter (by rw [blockDone_seq, hREM]; exact hleft) hIDX hN hL)
      (.of_phase (by simp [hP]) (by simp [hP]))
  · exact running (fun _ => ⟨hIN, h.keystream.blockConsumed_KS_last hp hlast⟩)
      (.of_wb c.checked remaining cursor hP counter (by rw [blockDone_seq, hIDX]; decide)
        (by rw [blockDone_seq, hREM]; exact hleft) hN hL)
      (.of_phase (by simp [hP]) (by simp [hP]))

/-- WR (R116). -/
theorem MachineInv.wr_step {s : State} (h : MachineInv s) (hp : s.seq.PHASE = .wr) : MachineInv (outputWritten s) := by
  by_cases hlast : s.seq.IDX = 63
  · rw [outputWritten_last hlast]; exact h.block_done hp
  · have c := h.command_of_phase (by simp [hp])
    obtain ⟨hl, hn⟩ := c.lanes (.inr hp)
    rw [outputWritten_more hlast]
    exact h.of_running (by simp [hp]) (by simp [hp]) (by simp [hp]) rfl rfl rfl (by simp [hp])
      (.of_batch c.checked c.remaining c.cursor (.inr hp) (c.counter (.inr (.inr (.inl hp)))) hl hn)
      fun _ => h.keystream (.inr hp)

/-- WB (R118). -/
theorem MachineInv.wb_step {s : State} (h : MachineInv s) (hp : s.seq.PHASE = .wb) : MachineInv (counterWritten s) := by
  have c := h.command_of_phase (by simp [hp])
  by_cases hlow : s.seq.IDX = 0
  · obtain ⟨_, hr⟩ := c.writingBack hp
    obtain ⟨hn, hl⟩ := c.outsideBatch (.inr (.inr hp))
    rw [counterWritten_low hlow]
    exact h.of_running (by simp [hp]) (by simp [hp]) (by simp [hp]) rfl rfl rfl
      (fun _ => h.hygiene.buffers (.inr (.inr hp)))
      (.of_wb c.checked c.remaining c.cursor hp (c.counter (.inr (.inr (.inr hp)))) Nat.one_lt_two hr hn hl)
      (.of_phase (by simp [hp]) (by simp [hp]))
  · rw [counterWritten_high hlow]
    exact h.of_running (by simp [hp]) (by simp [hp]) (by simp) rfl rfl rfl (by simp)
      (.of_fin c.checked c.remaining c.cursor rfl) (.of_phase (by simp) (by simp))

/-- BUSFAULT (R127): ERR rises with a code, and PHASE is FIN. -/
theorem MachineInv.busFault_step {s : State} (h : MachineInv s) (hp : s.seq.PHASE ≠ .idle) :
    MachineInv (takeBusFault s) := by
  have c := h.command_of_phase hp
  have hb := h.status.busy_iff.mpr hp
  exact ⟨h.memory, ⟨by simp [hb], by simp, h.status.not_done, by simp⟩,
    ⟨by simp, h.hygiene.pipeline, by simp⟩, fun _ => .of_fin c.checked c.remaining c.cursor rfl,
    .of_phase (by simp) (by simp)⟩

/-- FIN (R119). -/
theorem MachineInv.fin_step {s : State} (h : MachineInv s) : MachineInv (finish s) :=
  .of_idle h.memory rfl rfl h.status.err_iff

/-- Every step of CORE. -/
theorem MachineInv.coreCase {s t : State} (h : MachineInv s) (hc : CoreCase s t) : MachineInv t := by
  cases hc with
  | idle => exact h
  | load hp => exact (h.load_step hp _).congr rfl rfl rfl
  | gen hp => exact h.gen_step hp
  | rd hp => exact (h.rd_step hp _).congr rfl rfl rfl
  | wr hp ha => exact (h.withMem (h.memory.write ha)).wr_step hp
  | wb hp ha => exact (h.withMem (h.memory.writeBytes (by simpa using ha))).wb_step hp
  | fin => exact h.fin_step
  | busFault a ha => exact h.busFault_step fun hp => by simp [nextAccess, hp] at ha

/-! ### The host's accesses and reset keep the invariant -/

/-- START launches a command of at least one block that passes CHECK (R111). -/
theorem MachineInv.launch_step {s : State} (h : MachineInv s) (hb : s.regs.STATUS.BUSY = false)
    (hc : check s.regs = .none) (hm : blockCount s.regs ≠ 0) : MachineInv (launch (startClear s)) := by
  have hq := h.seq_of_not_busy hb
  have hr : s.regs.NBLK ≠ 0 := fun e => hm (by simp [blockCount, e])
  have hbuf : s.seq.IN = Sequencer.reset.IN ∧ s.seq.KS = Sequencer.reset.KS := by simp [hq]
  exact ⟨h.memory, ⟨by simp, by simp, by simp, by simp⟩,
    ⟨by simp, h.hygiene.pipeline, fun _ => hbuf⟩,
    fun _ => .of_load hc rfl rfl rfl (by simp) rfl hr rfl rfl, .of_phase (by simp) (by simp)⟩

/-- Every instruction. -/
theorem MachineInv.execCase {s t : State} (h : MachineInv s) (he : ExecCase s t) : MachineInv t := by
  have hx := h.status.err_iff
  cases he with
  | none => exact h
  | read => exact h.congr rfl rfl rfl
  | control => exact h.of_flags rfl rfl ⟨rfl, rfl, rfl, rfl, rfl, rfl⟩ rfl rfl id id hx
  | status v =>
    refine h.of_flags rfl rfl ⟨rfl, rfl, rfl, rfl, rfl, rfl⟩ rfl rfl (fun hd => by simp [hd])
      (fun he => by simp [he]) ?_
    simp only [acknowledge_STATUS, writeOneToClear_ERR, writeOneToClear_ERRCODE]
    cases v.getLsbD 2 with
    | true => simp
    | false => simpa using hx
  | busy => exact h.of_flags rfl rfl ⟨rfl, rfl, rfl, rfl, rfl, rfl⟩ rfl rfl id id hx
  | config hb => exact .of_idle h.memory hb (h.seq_of_not_busy hb) hx
  | fail hb e he => exact .of_idle h.memory hb (h.seq_of_not_busy hb) (by simp [he])
  | done hb => exact .of_idle h.memory hb (h.seq_of_not_busy hb) (by simp)
  | launch hb hc hm => exact h.launch_step hb hc hm

/-- The reset input (R144). -/
theorem MachineInv.reset_step {s : State} (h : MachineInv s) : MachineInv (applyReset s) :=
  .of_idle h.memory rfl rfl (by simp [Regs.reset])

/-- Settles O43: the invariant is kept by each kind of effect a turn can have. -/
theorem everyStepKeepsTheInvariant : Obligations.EveryStepKeepsTheInvariant := by
  unfold Obligations.EveryStepKeepsTheInvariant
  intro s t hs hstep
  exact step_keeps (P := MachineInv)
    (turn := fun _ _ h => h.congr rfl rfl rfl)
    (core := fun _ _ h hc => h.coreCase hc)
    (host := fun _ _ h he => h.execCase he)
    (read := fun _ _ _ h => h.congr rfl rfl rfl)
    (write := fun _ _ _ h ha => h.withMem (h.memory.writeBytes ha))
    (reset := fun _ h => h.reset_step) hs hstep

/-- Settles O42: an idle machine with no memory listed and no error recorded. -/
theorem resetStateMeetsInvariant : Obligations.ResetStateMeetsInvariant :=
  .of_idle ⟨rfl, by simp [State.reset]⟩ rfl rfl (by simp [State.reset, Regs.reset])

/-! ### PHASE, BUSY and scratch in every step -/

/-- Settles O44: CORE changes PHASE and BUSY together at FIN, an instruction at START. -/
theorem busyExactlyWhenNotIdle : Obligations.BusyExactlyWhenNotIdle := by
  unfold Obligations.BusyExactlyWhenNotIdle
  refine ⟨by simp [State.reset, Regs.reset, Sequencer.reset], fun s t hs hstep => ?_⟩
  refine step_keeps (P := fun s => s.regs.STATUS.BUSY = true ↔ s.seq.PHASE ≠ .idle) (turn := fun _ _ h => h)
    (core := ?_) (host := ?_) (read := fun _ _ _ h => h) (write := fun _ _ _ h _ => h)
    (reset := fun _ _ => by simp [Regs.reset, Sequencer.reset]) hs hstep
  · intro s t h hc
    rcases hc.goes_on_or_ends with ⟨_, rfl⟩ | ⟨_, rfl⟩ | ⟨hp, hp', hb⟩
    · exact h
    · simp [Sequencer.reset]
    · rw [hb, h]; exact iff_of_true hp hp'
  · intro s t h he
    rcases he.keeps_or_launches with ⟨hq, hb⟩ | ⟨hp, hb⟩
    · rw [hq, hb]; exact h
    · simp [hp, hb]

/-- Reset leaves every scratch element 0 (R38). -/
theorem scratchClear_reset : Sequencer.reset.ScratchClear := ⟨rfl, rfl, rfl, rfl, rfl⟩

/-- Settles O45: IDLE is entered at FIN and at reset alone, and both clear the scratch. -/
theorem scratchClearWheneverIdle : Obligations.ScratchClearWheneverIdle := by
  unfold Obligations.ScratchClearWheneverIdle
  refine ⟨⟨rfl, scratchClear_reset⟩, fun s t hs hstep => ?_⟩
  refine step_keeps (P := fun s => s.seq.PHASE = .idle → s.seq.ScratchClear) (turn := fun _ _ h => h)
    (core := ?_) (host := ?_) (read := fun _ _ _ h => h) (write := fun _ _ _ h _ => h)
    (reset := fun _ _ _ => scratchClear_reset) hs hstep
  · intro s t h hc hidle
    rcases hc.goes_on_or_ends with ⟨_, rfl⟩ | ⟨_, rfl⟩ | ⟨_, hp, _⟩
    · exact h hidle
    · exact scratchClear_reset
    · exact absurd hidle hp
  · intro s t h he hidle
    rcases he.keeps_or_launches with ⟨hq, _⟩ | ⟨hp, _⟩
    · rw [hq] at hidle ⊢; exact h hidle
    · simp [hp] at hidle

/-- Settles O14: each kind of turn leaves the configuration registers of a running command alone. -/
theorem configurationStableWhileBusy : Obligations.ConfigurationStableWhileBusy := by
  unfold Obligations.ConfigurationStableWhileBusy
  intro s t hb hu hstep
  have same : t.regs.SameConfig s.regs := by
    cases ht : s.turns with
    | nil =>
      rw [step_alone ht] at hstep
      exact (coreStep_cases hstep).sameConfig
    | cons u rest =>
      rw [step_turn ht] at hstep
      exact takeTurn_sameConfig (s := { s with turns := rest }) (fun e => hu (by simp [ht, e])) hb hstep
  exact ⟨same.nblk, same.stateAddr, same.srcAddr, same.dstAddr, same.srcLen, same.dstLen⟩

/-- Settles O41: the reset input's turn is `applyReset`. -/
theorem resetClearsEverythingButMemory : Obligations.ResetClearsEverythingButMemory := by
  unfold Obligations.ResetClearsEverythingButMemory
  intro s rest hs
  refine ⟨applyReset { s with turns := rest }, step_turn hs, ?_⟩
  rw [applyReset_regs, applyReset_seq]
  exact ⟨by decide, by decide, rfl, rfl, rfl, rfl, rfl, rfl, rfl, rfl, rfl, scratchClear_reset, rfl, rfl, rfl, rfl, rfl,
    rfl, rfl⟩

/-- Settles O2: by the list of turns. -/
theorem stepTakesCoresTurn : Obligations.StepTakesCoresTurn :=
  fun _ => ⟨fun _ hs => step_turn hs, step_alone⟩

/-! ### The words of CTRL and STATUS -/

/-- CTRL's word bit by bit (R16). -/
theorem Ctrl.getLsbD_toWord (c : Ctrl) (i : Nat) : c.toWord.getLsbD i = (decide (i = 0) && c.IE) := by
  rw [Ctrl.toWord, BitVec.getLsbD_append]
  by_cases hi : i = 0 <;> simp [hi]

/-- The bits of STATUS's word that hold flags (R18). -/
theorem Status.getLsbD_toWord_flags (t : Status) : t.toWord.getLsbD 0 = t.BUSY ∧ t.toWord.getLsbD 1 = t.DONE ∧
    t.toWord.getLsbD 2 = t.ERR ∧ t.toWord.getLsbD 3 = t.IGN := by
  simp only [Status.toWord, BitVec.getLsbD_append, BitVec.getLsbD_ofBool]
  simp

/-- The bits of STATUS's word that read as zero (R18). -/
theorem Status.getLsbD_toWord_reserved (t : Status) {i : Nat} (hi : 4 ≤ i ∧ i < 8 ∨ 12 ≤ i) :
    t.toWord.getLsbD i = false := by
  simp only [Status.toWord, BitVec.getLsbD_append]
  rw [if_neg (by omega), if_neg (by omega), if_neg (by omega), if_neg (by omega)]
  split
  · exact BitVec.getLsbD_zero
  · rw [if_neg (by omega)]
    exact BitVec.getLsbD_zero

/-- The field ERRCODE of STATUS's word (R18). -/
theorem Status.extractLsb'_toWord (t : Status) : t.toWord.extractLsb' 8 4 = t.ERRCODE.code := by
  apply BitVec.eq_of_getLsbD_eq
  intro i hi
  rw [BitVec.getLsbD_extractLsb', decide_eq_true hi, Bool.true_and, Status.toWord]
  simp only [BitVec.getLsbD_append]
  rw [if_neg (by omega), if_neg (by omega), if_neg (by omega), if_neg (by omega), if_neg (by omega), if_pos (by omega)]
  congr 1
  omega

/-- Settles O8: the words' bits, one field at a time. -/
theorem controlAndStatusWords : Obligations.ControlAndStatusWords := by
  unfold Obligations.ControlAndStatusWords
  intro s
  refine ⟨⟨s.regs.CTRL.toWord, rfl, Ctrl.getLsbD_toWord _ 0, fun i hi => ?_⟩,
    s.regs.STATUS.toWord, rfl, ?_⟩
  · rw [Ctrl.getLsbD_toWord, decide_eq_false (by omega), Bool.false_and]
  · obtain ⟨hbusy, hdone, herr, hign⟩ := s.regs.STATUS.getLsbD_toWord_flags
    refine ⟨hbusy, hdone, herr, hign, fun i hi => s.regs.STATUS.getLsbD_toWord_reserved hi, ?_⟩
    rw [Status.extractLsb'_toWord]
    refine ⟨?_, ?_, ?_, ?_, ?_, ?_, ?_⟩ <;> intro he <;> rw [he] <;> rfl

/-- Settles O15: the two words hold IE and DONE in those bits. -/
theorem interruptIsEnableAndDone : Obligations.InterruptIsEnableAndDone := by
  unfold Obligations.InterruptIsEnableAndDone
  intro s
  obtain ⟨_, hdone, _⟩ := s.regs.STATUS.getLsbD_toWord_flags
  rw [Ctrl.getLsbD_toWord, hdone]
  simp [irq]

/-- Settles O9: the write of `Ctrl.ofWord`, and the word it reads as. -/
theorem controlWriteSetsEnable : Obligations.ControlWriteSetsEnable := by
  unfold Obligations.ControlWriteSetsEnable
  refine fun s v => ⟨rfl, BitVec.eq_of_getLsbD_eq fun i hi => ?_⟩
  rw [Ctrl.getLsbD_toWord, BitVec.getLsbD_and, BitVec.ofNat_eq_ofNat, BitVec.getLsbD_one]
  by_cases h0 : i = 0 <;> simp [h0]

/-- The bits a write of ones leaves, laid out as the fields of STATUS (R19). -/
theorem clearMask_fields (d e g : Bool) :
    ~~~((if d then 0x002 else 0) ||| (if e then 0xF04 else 0) ||| (if g then 0x008 else 0) : Word) =
      BitVec.allOnes 20 ++ (if e then 0 else BitVec.allOnes 4 : BitVec 4) ++ BitVec.allOnes 4 ++ BitVec.ofBool (!g) ++
        BitVec.ofBool (!e) ++ BitVec.ofBool (!d) ++ BitVec.ofBool true := by
  revert d e g; decide

/-- The code left by a write of ones (R19). -/
theorem code_and_clearMask (c : ErrCode) (e : Bool) :
    c.code &&& (if e then 0 else BitVec.allOnes 4) = (if e then ErrCode.none else c).code := by
  cases e with
  | true => exact BitVec.and_zero
  | false => exact BitVec.and_allOnes

/-- STATUS's word after a write of ones (R19). -/
theorem Status.toWord_writeOneToClear (v : Word) (t : Status) : (t.writeOneToClear v).toWord = t.toWord &&&
    ~~~((if v.getLsbD 1 then 0x002 else 0) ||| (if v.getLsbD 2 then 0xF04 else 0) |||
      (if v.getLsbD 3 then 0x008 else 0)) := by
  rw [clearMask_fields]
  unfold Status.toWord
  rw [BitVec.and_append, BitVec.and_append, BitVec.and_append, BitVec.and_append, BitVec.and_append, BitVec.and_append]
  simp only [BitVec.ofBool_and_ofBool, code_and_clearMask, Bool.and_true, BitVec.and_allOnes]
  rfl

/-- Settles O10: the fields' own rule, read as a mask of the word. -/
theorem statusWriteClearsOnes : Obligations.StatusWriteClearsOnes :=
  fun s v => ⟨s.regs.STATUS.writeOneToClear v, rfl, Status.toWord_writeOneToClear v _⟩

/-! ### Reads and writes of the window -/

/-- Settles O7: a read is `replyRead` of the register. -/
theorem registerReadsReturnTheValue : Obligations.RegisterReadsReturnTheValue :=
  fun _ => ⟨rfl, rfl, rfl, rfl, rfl, rfl, rfl, rfl⟩

/-- Settles O11: the two directions of a reserved access, and the ignored write. -/
theorem ignoredWritesAndReservedReads : Obligations.IgnoredWritesAndReservedReads :=
  fun _ _ _ _ => ⟨rfl, rfl, rfl, rfl, rfl⟩

/-- Settles O12: each write is `writeConfig` of its register, while idle. -/
theorem configurationWritesWhileIdle : Obligations.ConfigurationWritesWhileIdle := by
  unfold Obligations.ConfigurationWritesWhileIdle
  intro s v hb
  have idle (f : Regs → Regs) :=
    congrArg (Host.Outcome.next (φ := Fault) (ρ := Refusal)) (writeConfig_idle f hb)
  exact ⟨idle _, idle _, idle _, idle _, idle _, idle _⟩

/-- Settles O13: each write is `writeConfig` of its register, while BUSY; a read is `replyRead` at any time. -/
theorem configurationWritesWhileBusy : Obligations.ConfigurationWritesWhileBusy := by
  unfold Obligations.ConfigurationWritesWhileBusy
  intro s v hb
  have busy (f : Regs → Regs) :=
    congrArg (Host.Outcome.next (φ := Fault) (ρ := Refusal)) (writeConfig_busy f hb)
  exact ⟨busy _, busy _, busy _, busy _, busy _, busy _, rfl, rfl, rfl, rfl, rfl, rfl⟩

/-! ### What an instruction's result depends on -/

/-- Two states with the same registers and the same last value read: all that an instruction can see (R27). -/
structure SameView (s t : State) : Prop where
  regs : s.regs = t.regs
  rdata : s.rdata = t.rdata

section
variable {s t : State} (h : SameView s t)
include h

theorem SameView.after_replyRead {v w : Word} (hv : v = w) : SameView (replyRead v s) (replyRead w t) :=
  ⟨h.regs, congrArg some hv⟩

theorem SameView.after_mapStatus (f : Status → Status) : SameView (mapStatus f s) (mapStatus f t) :=
  ⟨by simp only [mapStatus, h.regs], h.rdata⟩

theorem SameView.after_clearBlkdone : SameView (clearBlkdone s) (clearBlkdone t) :=
  ⟨by simp only [clearBlkdone, h.regs], h.rdata⟩

theorem SameView.after_writeConfig (f : Regs → Regs) : SameView (writeConfig f s) (writeConfig f t) := by
  cases hb : s.regs.STATUS.BUSY with
  | true => rwa [writeConfig_busy f hb, writeConfig_busy f (h.regs ▸ hb)]
  | false =>
    rw [writeConfig_idle f hb, writeConfig_idle f (h.regs ▸ hb)]
    exact ⟨congrArg f h.regs, h.rdata⟩

theorem SameView.after_reservedAccess (write : Bool) : SameView (reservedAccess write s) (reservedAccess write t) := by
  cases write with
  | true => exact h
  | false => exact h.after_replyRead rfl

theorem SameView.after_recordError (e : ErrCode) : SameView (recordError e s) (recordError e t) := h.after_mapStatus _

theorem SameView.after_signalDone : SameView (signalDone s) (signalDone t) := h.after_mapStatus _

theorem SameView.after_failCommand (e : ErrCode) : SameView (failCommand e s) (failCommand e t) :=
  (h.after_clearBlkdone.after_recordError e).after_signalDone

theorem SameView.after_startClear : SameView (startClear s) (startClear t) := h.after_clearBlkdone.after_mapStatus _

theorem SameView.after_launch : SameView (launch s) (launch t) :=
  ⟨by simp only [launch, mapStatus, h.regs], h.rdata⟩

theorem SameView.after_startCommand : SameView (startCommand s) (startCommand t) := by
  unfold startCommand
  dsimp only
  rw [← h.regs]
  split
  · exact h.after_startClear.after_failCommand _
  · split
    · exact h.after_startClear.after_signalDone
    · exact h.after_startClear.after_launch

theorem SameView.after_commandWrite {f : State → State} (hf : SameView (f s) (f t)) :
    SameView (commandWrite f s) (commandWrite f t) := by
  unfold commandWrite
  rw [← h.regs]
  split
  · exact h.after_mapStatus _
  · exact hf

/-- Every instruction answers states of the same view. -/
theorem SameView.after_exec (i : Instr) :
    ∃ s' t', exec i s = .next s' ∧ exec i t = .next t' ∧ SameView s' t' := by
  cases i with
  | rdCtrl | rdCmd | rdStatus | rdBlkdone | rdNblk | rdStateAddr | rdSrcAddr | rdDstAddr | rdSrcLen | rdDstLen =>
    exact ⟨_, _, rfl, rfl, h.after_replyRead (by simp [h.regs])⟩
  | wrCtrl v => exact ⟨_, _, rfl, rfl, by rw [h.regs], h.rdata⟩
  | wrCmdNop => exact ⟨_, _, rfl, rfl, h.after_commandWrite h⟩
  | wrCmdStart => exact ⟨_, _, rfl, rfl, h.after_commandWrite h.after_startCommand⟩
  | wrCmdIllegal => exact ⟨_, _, rfl, rfl, h.after_commandWrite (h.after_failCommand _)⟩
  | wrStatus => exact ⟨_, _, rfl, rfl, h.after_mapStatus _⟩
  | wrBlkdone => exact ⟨_, _, rfl, rfl, h⟩
  | wrNblk | wrStateAddr | wrSrcAddr | wrDstAddr | wrSrcLen | wrDstLen =>
    exact ⟨_, _, rfl, rfl, h.after_writeConfig _⟩
  | rsvd28To2C write | rsvd30To3C write => exact ⟨_, _, rfl, rfl, h.after_reservedAccess write⟩

end

/-- No instruction changes memory. -/
theorem exec_mem {i : Instr} {s t : State} (h : exec i s = .next t) : t.mem = s.mem := by
  obtain ⟨u, hu, hm, _⟩ := exec_next i s
  rw [h] at hu
  cases hu
  exact hm

/-- Settles O51: instructions keep the view, and memory. -/
theorem registersRevealNoScratch : Obligations.RegistersRevealNoScratch := by
  unfold Obligations.RegistersRevealNoScratch
  intro i s t hr hd
  obtain ⟨s', t', hs, ht, hv⟩ := SameView.after_exec ⟨hr, hd⟩ i
  exact ⟨s', t', hs, ht, hv.regs, hv.rdata, exec_mem hs, exec_mem ht⟩

/-! ### Bus accesses to the window -/

/-- The bus access is a whole register exactly when it is a word at one of the sixteen offsets (R14, R15). -/
theorem isRegister_iff {p : Platform} {m : BusMove} :
    m.isRegister p = true ↔ m.width = .word ∧ ∃ off : Fin 16, m.addr.toNat = p.coreBase.toNat + 4 * off.val := by
  simp only [BusMove.isRegister, Platform.inWindow, Config.windowBytes, Bool.and_eq_true, beq_iff_eq, decide_eq_true_eq]
  constructor
  · rintro ⟨⟨hw, h1, h2⟩, h4⟩
    exact ⟨hw, ⟨(m.addr.toNat - p.coreBase.toNat) / 4, by omega⟩, by dsimp only; omega⟩
  · rintro ⟨hw, off, ha⟩
    exact ⟨⟨hw, by omega, by omega⟩, by omega⟩

/-- What touches the window and is no whole register is refused (R15). -/
theorem hostBus_refused {m : BusMove} {s : State} {a : Nat} (h1 : m.addr.toNat ≤ a)
    (h2 : a < m.addr.toNat + m.width.bytes) (h3 : s.platform.inWindow a = true) (hr : m.isRegister s.platform = false) :
    hostBus m s = .refused .hostNonWord := by
  rw [hostBus_inside h1 h2 h3]
  unfold hostRegisterAccess
  dsimp only
  refine if_neg fun ⟨hw, hle, h4⟩ => ?_
  simp only [Platform.inWindow, Bool.and_eq_true, decide_eq_true_eq] at h3
  have hin : s.platform.inWindow m.addr.toNat = true := by
    simp only [Platform.inWindow, Bool.and_eq_true, decide_eq_true_eq]
    omega
  simp [BusMove.isRegister, hw, hin, h4] at hr

/-- Settles O56: a whole register is its HA word's instruction, everything else is refused. -/
theorem windowAccessesAreWholeRegisters : Obligations.WindowAccessesAreWholeRegisters := by
  unfold Obligations.WindowAccessesAreWholeRegisters
  intro s m rest hs
  rw [step_turn hs]
  refine ⟨fun off hw ha hf => ?_, fun ⟨a, h1, h2, h3⟩ hno => ?_⟩
  · have hr : m.isRegister s.platform = true := isRegister_iff.mpr ⟨hw, off, ha⟩
    obtain ⟨i, hi⟩ := decode_register hr
    have hoff : m.addr.toNat - s.platform.coreBase.toNat = 4 * off.val := by omega
    refine ⟨i, by rw [← hoff]; exact hi, ?_⟩
    rw [takeTurn, hostBus_register (s := { s with turns := rest }) hr, if_neg (by simp [hf])]
    exact hostAccess_ok _ hi
  · refine hostBus_refused h1 h2 h3 ?_
    by_contra hr
    obtain ⟨hw, off, ha⟩ := isRegister_iff.mp (by simpa using hr)
    exact hno.elim (fun hne => hne hw) fun hne => hne off ha

end Sys2Proof.Machine
end

section
/-! SUPPORT. Proofs of the statements about memory, CORE's accesses and the host's (spec/20_memory.md). -/

namespace Sys2Proof.Machine

/-! ### The canonical form determines memory -/

/-- Below its first listed address a canonical memory reads as unlisted. -/
theorem Memory.read_below_head {c : Host.Cell} {m : Memory} (h : Memory.wf (c :: m) = true) {a : Nat} (ha : a < c.1) :
    Memory.read (c :: m) a = Config.unlistedByte := by
  obtain ⟨_, hlt, _⟩ := (Memory.wf_cons c m).mp h
  refine Memory.read_unlisted fun d hd => ?_
  rcases List.mem_cons.mp hd with rfl | hd
  · omega
  · have := hlt d hd
    omega

/-- The first listed address does not read as unlisted. -/
theorem Memory.read_head_ne {c : Host.Cell} {m : Memory} (h : Memory.wf (c :: m) = true) :
    Memory.read (c :: m) c.1 ≠ Config.unlistedByte := by
  obtain ⟨hne, _⟩ := (Memory.wf_cons c m).mp h
  rwa [Memory.read_cons, if_pos rfl]

/-- Two canonical memories that read alike start with the same cell. -/
theorem Memory.head_eq {c d : Host.Cell} {m m' : Memory} (hc : Memory.wf (c :: m) = true) (hd : Memory.wf (d :: m') = true)
    (h : ∀ a, Memory.read (c :: m) a = Memory.read (d :: m') a) : c = d := by
  have haddr : c.1 = d.1 := by
    rcases Nat.lt_trichotomy c.1 d.1 with hlt | heq | hgt
    · exact absurd ((h c.1).trans (Memory.read_below_head hd hlt)) (Memory.read_head_ne hc)
    · exact heq
    · exact absurd ((h d.1).symm.trans (Memory.read_below_head hc hgt)) (Memory.read_head_ne hd)
  have hbyte := h c.1
  rw [Memory.read_cons, Memory.read_cons, if_pos rfl, if_pos haddr.symm] at hbyte
  exact Prod.ext haddr hbyte

/-- Their tails then read alike too: beyond the common cell as before, at it as unlisted. -/
theorem Memory.read_tail_congr {c : Host.Cell} {m m' : Memory} (hc : Memory.wf (c :: m) = true)
    (hc' : Memory.wf (c :: m') = true) (h : ∀ a, Memory.read (c :: m) a = Memory.read (c :: m') a) (a : Nat) :
    m.read a = m'.read a := by
  obtain ⟨_, hlt, _⟩ := (Memory.wf_cons c m).mp hc
  obtain ⟨_, hlt', _⟩ := (Memory.wf_cons c m').mp hc'
  by_cases ha : c.1 = a
  · rw [Memory.read_unlisted fun d hd => ha ▸ (hlt d hd).ne', Memory.read_unlisted fun d hd => ha ▸ (hlt' d hd).ne']
  · simpa [Memory.read_cons, ha] using h a

/-- Settles O52, cell by cell along the first memory. -/
theorem canonicalMemoryIsUnique : Obligations.CanonicalMemoryIsUnique := by
  unfold Obligations.CanonicalMemoryIsUnique
  intro m
  induction m with
  | nil =>
    intro m' _ hm' h
    cases m' with
    | nil => rfl
    | cons d m' => exact absurd (h d.1).symm (Memory.read_head_ne hm')
  | cons c m ih =>
    intro m' hm hm' h
    cases m' with
    | nil => exact absurd (h c.1) (Memory.read_head_ne hm)
    | cons d m' =>
      obtain rfl := Memory.head_eq hm hm' h
      obtain ⟨_, _, htail⟩ := (Memory.wf_cons c m).mp hm
      obtain ⟨_, _, htail'⟩ := (Memory.wf_cons c m').mp hm'
      rw [ih m' htail htail' (Memory.read_tail_congr hm hm' h)]

/-! ### CORE's accesses -/

/-- While a batch is consumed, CUR + IDX is an offset into the buffers: the block in flight is below M (R35). -/
theorem CommandInv.cursor_add_index_lt {s : State} (h : CommandInv s) (hp : s.seq.PHASE = .rd ∨ s.seq.PHASE = .wr) :
    s.seq.CUR.toNat + s.seq.IDX.val < bufferLength s.regs := by
  obtain ⟨hlane, hrem⟩ := h.lanes hp
  have hM := h.remaining
  have hcur := h.cursor
  have hidx := s.seq.IDX.isLt
  rw [bufferLength_eq]
  simp only [blockCount] at hM
  omega

/-- RD reads a byte of WI (R103). -/
theorem CommandInv.readAddr_mem {s : State} (h : CommandInv s) (hp : s.seq.PHASE = .rd) :
    (inputWindow s.regs).Contains (readAddr s) := by
  have := h.cursor_add_index_lt (.inl hp)
  simp only [Window.Contains, inputWindow, readAddr]
  omega

/-- WR writes a byte of WO (R103). -/
theorem CommandInv.writeAddr_mem {s : State} (h : CommandInv s) (hp : s.seq.PHASE = .wr) :
    (outputWindow s.regs).Contains (writeAddr s) := by
  have := h.cursor_add_index_lt (.inr hp)
  simp only [Window.Contains, outputWindow, writeAddr]
  omega

/-- WB writes one of the two counter words. -/
theorem writeBackAddr_cases (s : State) :
    writeBackAddr s = s.regs.STATE_ADDR.toNat + 48 ∨ writeBackAddr s = s.regs.STATE_ADDR.toNat + 52 := by
  unfold writeBackAddr
  split
  · exact .inl rfl
  · exact .inr rfl

/-- CORE makes an access in four phases, one kind in each (R53). -/
theorem nextAccess_cases {s : State} {a : BusAccess} (h : nextAccess s = some a) :
    (s.seq.PHASE = .load ∧ a = ⟨loadAddr s, .word, .read⟩) ∨ (s.seq.PHASE = .rd ∧ a = ⟨readAddr s, .byte, .read⟩) ∨
      (s.seq.PHASE = .wr ∧ a = ⟨writeAddr s, .byte, .write⟩) ∨
      (s.seq.PHASE = .wb ∧ a = ⟨writeBackAddr s, .word, .write⟩) := by
  unfold nextAccess at h
  split at h <;> simp_all

/-- Settles O46, by the phase that makes the access. -/
theorem accessesStayInTheWindows : Obligations.AccessesStayInTheWindows := by
  unfold Obligations.AccessesStayInTheWindows
  intro s a hs ha
  have hc : CommandInv s := hs.command_of_phase fun hp => by simp [nextAccess, hp] at ha
  obtain ⟨_, _, halign, hstate, hin, hout, _⟩ := check_passed hc.checked
  rcases nextAccess_cases ha with ⟨hp, rfl⟩ | ⟨hp, rfl⟩ | ⟨hp, rfl⟩ | ⟨hp, rfl⟩
  · obtain ⟨hidx, _⟩ := hc.loading hp
    refine ⟨?_, fun _ => .inl ⟨rfl, ?_, fun i hi => ?_⟩, nofun⟩ <;>
      simp only [loadAddr, Width.bytes, Window.Contains, stateWindow, Config.stateBytes] <;> omega
  · have hmem := hc.readAddr_mem hp
    refine ⟨?_, fun _ => .inr ⟨rfl, hmem⟩, nofun⟩
    simp only [Window.Contains, inputWindow] at hmem
    simp only [Width.bytes]
    omega
  · have hmem := hc.writeAddr_mem hp
    refine ⟨?_, nofun, fun _ => .inl ⟨rfl, hmem⟩⟩
    simp only [Window.Contains, outputWindow] at hmem
    simp only [Width.bytes]
    omega
  · have haddr := writeBackAddr_cases s
    refine ⟨?_, nofun, fun _ => .inr ⟨rfl, haddr, ?_⟩⟩ <;> simp only [Width.bytes] <;> omega

/-- Only WR and WB store anything; every other step of CORE leaves memory as it is (R54). -/
theorem CoreCase.mem_cases {s t : State} (h : CoreCase s t) :
    t.mem = s.mem ∨ (s.seq.PHASE = .wr ∧ t.mem = s.mem.write (writeAddr s) (outputByte s.seq)) ∨
      (s.seq.PHASE = .wb ∧ t.mem = s.mem.writeBytes (writeBackAddr s) (leBytes 4 (writeBackWord s.seq))) := by
  cases h with
  | idle | load | gen | rd | fin | busFault => exact .inl rfl
  | wr hp => exact .inr (.inl ⟨hp, outputWritten_mem _⟩)
  | wb hp => exact .inr (.inr ⟨hp, counterWritten_mem _⟩)

/-- A step of CORE changes no byte outside WO and the counter words (R54). -/
theorem MachineInv.core_read_outside {s t : State} (h : MachineInv s) (hc : CoreCase s t) {a : Nat}
    (ho : ¬ (outputWindow s.regs).Contains a) (hw : ¬ (counterWindow s.regs).Contains a) :
    t.mem.read a = s.mem.read a := by
  rcases hc.mem_cases with hm | ⟨hp, hm⟩ | ⟨hp, hm⟩
  · rw [hm]
  · have hmem := (h.command_of_phase (by simp [hp])).writeAddr_mem hp
    have hne : writeAddr s ≠ a := fun e => ho (e ▸ hmem)
    rw [hm, Memory.read_write_other _ _ hne]
  · have haddr := writeBackAddr_cases s
    simp only [Window.Contains, counterWindow] at hw
    rw [hm, Memory.read_writeBytes_outside _ _ _ _ (by rw [length_leBytes]; omega)]

/-- WO shares no byte with WS in a command that passed CHECK (R112). -/
theorem not_outputWindow_of_stateWindow {r : Regs} (h : check r = .none) {a : Nat} (ha : (stateWindow r).Contains a) :
    ¬ (outputWindow r).Contains a := by
  obtain ⟨_, _, _, _, _, _, _, hdisjoint⟩ := check_passed h
  intro ho
  rw [(overlaps_iff _ _).mpr ⟨a, ha, ho⟩] at hdisjoint
  cases hdisjoint

/-- Settles O47: of a state word other than 12 and 13 no byte is a counter byte, and none lies in WO. -/
theorem coreWritesOnlyOutputAndCounter : Obligations.CoreWritesOnlyOutputAndCounter := by
  unfold Obligations.CoreWritesOnlyOutputAndCounter
  intro s t hs hstep
  have hc := coreStep_cases hstep
  refine ⟨fun a ho hw => hs.core_read_outside hc ho hw, fun hb k h12 h13 => word_congr fun i hi => ?_⟩
  refine hs.core_read_outside hc (not_outputWindow_of_stateWindow (hs.command hb).checked ?_) ?_ <;>
    simp only [Window.Contains, stateWindow, counterWindow, Config.stateBytes] <;> omega

/-! ### The end of a command -/

/-- What a step that raises DONE leaves: the machine idle with its scratch 0, and memory as it was. -/
structure EndedCommand (s t : State) : Prop where
  seq : t.seq = Sequencer.reset
  idle : t.regs.STATUS.BUSY = false
  mem : t.mem = s.mem

/-- Of CORE's steps only FIN raises DONE (R160). -/
theorem CoreCase.done_rises {s t : State} (h : CoreCase s t) (h0 : s.regs.STATUS.DONE = false)
    (h1 : t.regs.STATUS.DONE = true) : EndedCommand s t := by
  cases h with
  | fin => exact ⟨rfl, rfl, rfl⟩
  | idle | load | gen | rd | wr | wb | busFault => simp [h0] at h1

/-- Of the instructions only a START or an illegal command given while idle raises DONE (R109, R111). -/
theorem MachineInv.exec_done_rises {s t : State} (hs : MachineInv s) (h : ExecCase s t) (h0 : s.regs.STATUS.DONE = false)
    (h1 : t.regs.STATUS.DONE = true) : EndedCommand s t := by
  cases h with
  | fail hb | done hb => exact ⟨hs.seq_of_not_busy hb, hb, rfl⟩
  | none | read | control | status | config | busy | launch => simp [h0] at h1

/-- Of the turns only those of CORE and the host's register accesses raise DONE. -/
theorem MachineInv.turn_done_rises {s t : State} (hs : MachineInv s) {u : Turn} (h : takeTurn u s = .next t)
    (h0 : s.regs.STATUS.DONE = false) (h1 : t.regs.STATUS.DONE = true) : EndedCommand s t := by
  cases u with
  | core => exact (coreStep_cases h).done_rises h0 h1
  | access ha =>
    obtain ⟨i, _, hi⟩ := hostAccess_next h
    exact hs.exec_done_rises (exec_cases hi) h0 h1
  | bus m =>
    cases hostBus_cases h with
    | register i t hi => exact hs.exec_done_rises (exec_cases hi) h0 h1
    | read | lost | write => simp [h0] at h1
  | reset => cases h; simp [Regs.reset] at h1

/-- Settles O49: the step ended a command, and IDLE makes no access. -/
theorem doneRisesAfterEveryAccess : Obligations.DoneRisesAfterEveryAccess := by
  unfold Obligations.DoneRisesAfterEveryAccess
  intro s t hs hstep h0 h1
  obtain ⟨u, rest, hu⟩ := step_cases s
  have hs' : MachineInv { s with turns := rest } := hs.congr rfl rfl rfl
  obtain ⟨hseq, hidle, hmem⟩ := hs'.turn_done_rises (hu ▸ hstep) h0 h1
  exact ⟨hseq, hidle, by rw [nextAccess, hseq]; rfl, hmem, by rw [irq, h1, Bool.and_true]⟩

/-! ### The host's accesses to memory -/

/-- A step that takes a bus access of the host outside the window is that access to memory. -/
theorem step_bus_outside {s : State} {m : BusMove} {rest : List Turn} (hs : s.turns = .bus m :: rest)
    (h : ∀ i < m.width.bytes, s.platform.inWindow (m.addr.toNat + i) = false) :
    step s = hostMemoryAccess m { s with turns := rest } :=
  (step_turn hs).trans (hostBus_outside h)

theorem hostMemoryAccess_read {m : BusMove} (h : m.kind = .read) (s : State) : hostMemoryAccess m s =
    (memRead m.addr.toNat m.width s).resume (hostBusFault m s) fun r => replyRead r.1 r.2 := by
  unfold hostMemoryAccess
  rw [h]

theorem hostMemoryAccess_write {m : BusMove} (h : m.kind = .write) (s : State) : hostMemoryAccess m s =
    (memWrite m.addr.toNat m.width m.data s).resume (hostBusFault m s) id := by
  unfold hostMemoryAccess
  rw [h]

/-- A host write to ordinary memory stores the low bytes of its value (R49). -/
theorem hostMemoryAccess_write_ordinary {m : BusMove} {s : State} (hk : m.kind = .write)
    (ha : m.addr.toNat + m.width.bytes ≤ Config.addressSpace)
    (hf : s.platform.busFault ⟨m.addr.toNat, m.width, .write⟩ = false)
    (hd : ∀ i < m.width.bytes, s.platform.isDevice (m.addr.toNat + i) = false) : hostMemoryAccess m s =
      .next { s with mem := s.mem.writeBytes m.addr.toNat (leBytes m.width.bytes m.data) } := by
  rw [hostMemoryAccess_write hk, memWrite_ordinary ha hf hd, resume_done, id]

/-- A host read of ordinary memory returns the little-endian value of its bytes (R49). -/
theorem hostMemoryAccess_read_ordinary {m : BusMove} {s : State} (hk : m.kind = .read)
    (ha : m.addr.toNat + m.width.bytes ≤ Config.addressSpace)
    (hf : s.platform.busFault ⟨m.addr.toNat, m.width, .read⟩ = false)
    (hd : ∀ i < m.width.bytes, s.platform.isDevice (m.addr.toNat + i) = false) : hostMemoryAccess m s =
      .next (replyRead (leValue ((List.range m.width.bytes).map fun i => s.mem.read (m.addr.toNat + i))) s) := by
  rw [hostMemoryAccess_read hk, memRead_ordinary ha hf hd, resume_done]

/-- Byte `i` of a word as a number, least significant first (R10). -/
theorem toNat_getElem_leBytes {n : Nat} {v : Word} {i : Nat} (h : i < (leBytes n v).length) :
    (leBytes n v)[i].toNat = v.toNat / 2 ^ (8 * i) % 2 ^ 8 := by
  rw [getElem_leBytes h, BitVec.extractLsb'_toNat, Nat.shiftRight_eq_div_pow]

/-- Settles O53: the memory the write leaves holds the word's low bytes, and the read puts them together again. -/
theorem hostReadsTheLastWrite : Obligations.HostReadsTheLastWrite := by
  unfold Obligations.HostReadsTheLastWrite
  intro s addr w v rest hs hspace hord hfw hfr
  have hwin : ∀ i < w.bytes, s.platform.inWindow (addr.toNat + i) = false :=
    fun i hi => inWindow_of_ordinary (hord i hi)
  refine ⟨s.mem.writeBytes addr.toNat (leBytes w.bytes v), ?_, fun i hi => ?_, fun a ha => ?_, ?_⟩
  · exact (step_bus_outside hs hwin).trans (hostMemoryAccess_write_ordinary rfl hspace hfw hord)
  · have hlen : i < (leBytes w.bytes v).length := by simpa using hi
    rw [Memory.read_writeBytes_inside _ _ _ _ hlen, toNat_getElem_leBytes]
  · exact Memory.read_writeBytes_outside _ _ _ _ (by simpa using ha)
  · refine (step_bus_outside rfl hwin).trans ((hostMemoryAccess_read_ordinary rfl hspace hfr hord).trans ?_)
    rw [leValue_writeBytes]
    rfl

/-- A bus access of the host to memory that faults (R55). -/
theorem hostMemoryAccess_busFault {m : BusMove} {s : State} (ha : m.addr.toNat + m.width.bytes ≤ Config.addressSpace)
    (hf : s.platform.busFault ⟨m.addr.toNat, m.width, m.kind⟩ = true) :
    hostMemoryAccess m s = .next (hostBusFault m s) := by
  cases hk : m.kind with
  | read => rw [hostMemoryAccess_read hk, memRead_busFault.mpr ⟨ha, hk ▸ hf⟩, resume_busFault]
  | write => rw [hostMemoryAccess_write hk, memWrite_busFault.mpr ⟨ha, hk ▸ hf⟩, resume_busFault]

/-- Settles O54: to memory and to a whole register alike, the fault is taken before the access has an effect. -/
theorem faultingHostAccessHasNoEffect : Obligations.FaultingHostAccessHasNoEffect := by
  unfold Obligations.FaultingHostAccessHasNoEffect
  intro s m rest hs hf hplace
  have hfault : step s = .next (hostBusFault m { s with turns := rest }) := by
    rcases hplace with ⟨hspace, hwin⟩ | hreg
    · exact (step_bus_outside hs hwin).trans (hostMemoryAccess_busFault hspace hf)
    · have hr : m.isRegister s.platform = true := isRegister_iff.mpr hreg
      exact (step_turn hs).trans ((hostBus_register (s := { s with turns := rest }) hr).trans (if_pos hf))
  exact ⟨fun hk => by rw [hfault, hostBusFault_read hk], fun hk => by rw [hfault, hostBusFault_write hk]⟩

/-- A bus access of the host to memory that passes the top of the address space stops (R45). -/
theorem hostMemoryAccess_outside {m : BusMove} (s : State) (h : Config.addressSpace < m.addr.toNat + m.width.bytes) :
    hostMemoryAccess m s = .fault .outsideAddressSpace := by
  cases hk : m.kind with
  | read => rw [hostMemoryAccess_read hk, memRead_outside s h]; rfl
  | write => rw [hostMemoryAccess_write hk, memWrite_outside m.data s h]; rfl

/-- A host write to memory that reaches a device byte is refused (R56). -/
theorem hostMemoryAccess_write_device {m : BusMove} {s : State} (hk : m.kind = .write)
    (ha : m.addr.toNat + m.width.bytes ≤ Config.addressSpace)
    (hf : s.platform.busFault ⟨m.addr.toNat, m.width, .write⟩ = false)
    (hd : ∃ i < m.width.bytes, s.platform.isDevice (m.addr.toNat + i) = true) :
    hostMemoryAccess m s = .refused .deviceWrite := by
  rw [hostMemoryAccess_write hk, memWrite_device m.data ha hf hd]
  rfl

/-- A byte read of a device draws the next free byte (R56, I5). -/
theorem memRead_deviceByte {a : Nat} {s : State} (ha : a + Width.byte.bytes ≤ Config.addressSpace)
    (hf : s.platform.busFault ⟨a, .byte, .read⟩ = false) (hd : s.platform.isDevice a = true) :
    memRead a .byte s = .done ((Config.deviceByte s.draws).setWidth 32, { s with draws := s.draws + 1 }) := by
  rw [memRead_of_noFault ha hf]
  simp [Width.bytes, readBytes, hd, leValue]

/-- A host byte read of a device returns the byte drawn. -/
theorem hostMemoryAccess_read_deviceByte {m : BusMove} {s : State} (hk : m.kind = .read) (hw : m.width = .byte)
    (ha : m.addr.toNat + m.width.bytes ≤ Config.addressSpace)
    (hf : s.platform.busFault ⟨m.addr.toNat, m.width, .read⟩ = false)
    (hd : s.platform.isDevice m.addr.toNat = true) : hostMemoryAccess m s =
      .next (replyRead ((Config.deviceByte s.draws).setWidth 32) { s with draws := s.draws + 1 }) := by
  rw [hw] at ha hf
  rw [hostMemoryAccess_read hk, hw, memRead_deviceByte ha hf hd, resume_done]

/-- Settles O55, by where the access goes and its kind. -/
theorem hostAccessBeyondOrdinaryMemory : Obligations.HostAccessBeyondOrdinaryMemory := by
  unfold Obligations.HostAccessBeyondOrdinaryMemory
  intro s m rest hs hwin
  rw [step_bus_outside hs hwin]
  refine ⟨hostMemoryAccess_outside _, fun hspace hf => ⟨fun hk hd => ?_, fun hk hw hd => ?_⟩⟩
  · exact hostMemoryAccess_write_device hk hspace (hk ▸ hf) hd
  · exact hostMemoryAccess_read_deviceByte hk hw hspace (hk ▸ hf) hd

end Sys2Proof.Machine
end

section
/-! SUPPORT. Proofs of the statements about decoding (spec/30_encoding.md). -/

namespace Sys2Proof

/-! ### The CMD word -/

/-- A CMD word with RSVD = 0 is its OP, and no other word is (R65). -/
theorem command_fields_iff (v : Word) (op : BitVec 4) :
    v.extractLsb' 4 28 = 0 ∧ v.extractLsb' 0 4 = op ↔ v = op.setWidth 32 := by
  have hrsvd : (v.extractLsb' 4 28).toNat = v.toNat / 16 % 2 ^ 28 := by
    rw [BitVec.extractLsb'_toNat, Nat.shiftRight_eq_div_pow]
  have hop : (v.extractLsb' 0 4).toNat = v.toNat % 16 := BitVec.extractLsb'_toNat ..
  rw [← BitVec.toNat_inj, ← BitVec.toNat_inj, ← BitVec.toNat_inj, hrsvd, hop, BitVec.toNat_setWidth,
    show (0 : BitVec 28).toNat = 0 from rfl]
  omega

/-- Every DATA other than 0 and 1 is an illegal command (R67). -/
theorem decodeCommand_illegal {v : Word} (h0 : v ≠ 0) (h1 : v ≠ 1) : decodeCommand v = .wrCmdIllegal v :=
  (if_neg h0).trans (if_neg h1)

/-- A write of CMD decodes by its DATA alone (R64). -/
theorem decode_command (v : Word) : decode (haWord true 0x04 v) = .ok (decodeCommand v) :=
  decode_haWord true 0x04 v (by decide) (by decide)

/-- Settles O6: with RSVD = 0 the OPs 0x0 and 0x1 are the words 0 and 1, the two the decoder takes out. -/
theorem commandWordLegalExactly : Obligations.CommandWordLegalExactly := by
  unfold Obligations.CommandWordLegalExactly
  intro v
  have hnop : v.extractLsb' 4 28 = 0 ∧ v.extractLsb' 0 4 = 0x0 ↔ v = 0 := command_fields_iff v 0x0
  have hstart : v.extractLsb' 4 28 = 0 ∧ v.extractLsb' 0 4 = 0x1 ↔ v = 1 := command_fields_iff v 0x1
  have hillegal : v.extractLsb' 4 28 ≠ 0 ∨ (v.extractLsb' 0 4 ≠ 0x0 ∧ v.extractLsb' 0 4 ≠ 0x1) ↔ v ≠ 0 ∧ v ≠ 1 := by
    tauto
  rw [hnop, hstart, hillegal, decode_command]
  by_cases h0 : v = 0
  · subst h0; decide
  · by_cases h1 : v = 1
    · subst h1; decide
    · simp only [decodeCommand_illegal h0 h1, h0, h1, Except.ok.injEq, reduceCtorEq, ne_eq, not_false_eq_true, and_self]

end Sys2Proof
end

section
/-! SUPPORT. Proofs of the statements about the round function (spec/40_round_function.md). -/

namespace Sys2Proof.Machine

/-! ### The quarter-round -/

/-- The model's rotation is the library's, for every amount R9 allows. -/
theorem rotl32_eq_rotateLeft (x : Word) {n : Nat} (hn : n < 32) : rotl32 x n = x.rotateLeft n := by
  rw [rotl32, BitVec.rotateLeft_def, Nat.mod_eq_of_lt hn]

theorem quarterRound_zero : quarterRound 0 0 0 0 = (0, 0, 0, 0) := by decide

/-- Settles O24: the lines are the model's own, with the rotations read as the library's. -/
theorem quarterRoundLines : Obligations.QuarterRoundLines := by
  unfold Obligations.QuarterRoundLines
  refine ⟨fun a0 b0 c0 d0 => ?_, quarterRound_zero⟩
  simp (disch := decide) only [quarterRound, rotl32_eq_rotateLeft]

/-! ### Quarter-rounds on disjoint quadruples of places -/

/-- The places of the four words that a quarter-round on the array reads and writes (R74). -/
structure Quadruple where
  a : Fin 16
  b : Fin 16
  c : Fin 16
  d : Fin 16

namespace Quadruple

/-- The four places, in the order of the quarter-round's arguments. -/
def places (q : Quadruple) : List (Fin 16) := [q.a, q.b, q.c, q.d]

/-- The words of the array at the quadruple. -/
def words (q : Quadruple) (x : Words) : Word × Word × Word × Word := (x[q.a], x[q.b], x[q.c], x[q.d])

/-- The quarter-round of the words at the quadruple. -/
def quarterRoundOf (q : Quadruple) (x : Words) : Word × Word × Word × Word :=
  match q.words x with
  | (a, b, c, d) => quarterRound a b c d

/-- The quadruple's quarter-round on the array. -/
def update (q : Quadruple) (x : Words) : Words := quarterRoundAt x q.a q.b q.c q.d

theorem words_congr {q : Quadruple} {x y : Words} (h : ∀ k ∈ q.places, x[k] = y[k]) : q.words x = q.words y := by
  simp only [places, List.forall_mem_cons] at h
  obtain ⟨ha, hb, hc, hd, -⟩ := h
  rw [words, words, ha, hb, hc, hd]

theorem quarterRoundOf_congr {q : Quadruple} {x y : Words} (h : ∀ k ∈ q.places, x[k] = y[k]) :
    q.quarterRoundOf x = q.quarterRoundOf y := by
  rw [quarterRoundOf, words_congr h, quarterRoundOf]

/-- A quarter-round leaves every word outside its quadruple alone (R74). -/
theorem update_of_notMem {q : Quadruple} {k : Fin 16} (x : Words) (hk : k ∉ q.places) : (q.update x)[k] = x[k] := by
  simp only [places, List.mem_cons, List.not_mem_nil, or_false, not_or, Fin.ext_iff] at hk
  obtain ⟨ha, hb, hc, hd⟩ := hk
  simp [update, quarterRoundAt, Ne.symm ha, Ne.symm hb, Ne.symm hc, Ne.symm hd]

/-- A quarter-round writes its four results back to four distinct places (R74). -/
theorem words_update {q : Quadruple} (x : Words) (hq : q.places.Nodup) : q.words (q.update x) = q.quarterRoundOf x := by
  simp only [places, List.nodup_cons, List.mem_cons, List.not_mem_nil, or_false, not_or, Fin.ext_iff] at hq
  obtain ⟨⟨hab, hac, had⟩, ⟨hbc, hbd⟩, hcd, -⟩ := hq
  simp [words, update, quarterRoundOf, quarterRoundAt, Ne.symm hab, Ne.symm hac, Ne.symm had, Ne.symm hbc,
    Ne.symm hbd, Ne.symm hcd]

end Quadruple

/-- Quarter-rounds on the quadruples of a list, one after the other. -/
def quarterRounds (qs : List Quadruple) (x : Words) : Words := qs.foldl (fun x q => q.update x) x

/-- Quarter-rounds leave every word outside their quadruples alone. -/
theorem quarterRounds_of_notMem {k : Fin 16} {qs : List Quadruple} (x : Words)
    (hk : k ∉ qs.flatMap Quadruple.places) : (quarterRounds qs x)[k] = x[k] := by
  induction qs generalizing x with
  | nil => rfl
  | cons p qs ih =>
    rw [List.flatMap_cons, List.mem_append, not_or] at hk
    obtain ⟨hp, hqs⟩ := hk
    exact (ih (p.update x) hqs).trans (p.update_of_notMem x hp)

/-- Quarter-rounds on disjoint quadruples, in any order, are evaluated in parallel: each on the words there before the
first of them (R75, R76). -/
theorem words_quarterRounds {q : Quadruple} {qs : List Quadruple} (x : Words)
    (hqs : (qs.flatMap Quadruple.places).Nodup) (hq : q ∈ qs) :
    q.words (quarterRounds qs x) = q.quarterRoundOf x := by
  induction qs generalizing x with
  | nil => cases hq
  | cons p qs ih =>
    rw [List.flatMap_cons, List.nodup_append'] at hqs
    obtain ⟨hp, hrest, hdisj⟩ := hqs
    rcases List.mem_cons.mp hq with rfl | hq
    · calc q.words (quarterRounds qs (q.update x))
        _ = q.words (q.update x) := Quadruple.words_congr fun k hk => quarterRounds_of_notMem _ (hdisj hk)
        _ = q.quarterRoundOf x := q.words_update x hp
    · calc q.words (quarterRounds qs (p.update x))
        _ = q.quarterRoundOf (p.update x) := ih (p.update x) hrest hq
        _ = q.quarterRoundOf x := Quadruple.quarterRoundOf_congr fun k hk =>
            p.update_of_notMem x fun hkp => hdisj hkp (List.mem_flatMap.mpr ⟨q, hq, hk⟩)

/-! ### The column round and the diagonal round -/

/-- Column `i` of the array (R75). -/
def column (i : Fin 4) : Quadruple :=
  ⟨⟨i.val, by omega⟩, ⟨4 + i.val, by omega⟩, ⟨8 + i.val, by omega⟩, ⟨12 + i.val, by omega⟩⟩

/-- Diagonal `i` of the array (R76). -/
def diagonal (i : Fin 4) : Quadruple :=
  ⟨⟨i.val, by omega⟩, ⟨4 + (i.val + 1) % 4, by omega⟩, ⟨8 + (i.val + 2) % 4, by omega⟩,
    ⟨12 + (i.val + 3) % 4, by omega⟩⟩

theorem columnRound_eq_quarterRounds (x : Words) : columnRound x = quarterRounds (List.ofFn column) x := rfl

theorem diagonalRound_eq_quarterRounds (x : Words) : diagonalRound x = quarterRounds (List.ofFn diagonal) x := rfl

theorem columns_disjoint : ((List.ofFn column).flatMap Quadruple.places).Nodup := by decide

theorem diagonals_disjoint : ((List.ofFn diagonal).flatMap Quadruple.places).Nodup := by decide

theorem words_columnRound (x : Words) (i : Fin 4) : (column i).words (columnRound x) = (column i).quarterRoundOf x := by
  rw [columnRound_eq_quarterRounds]
  exact words_quarterRounds x columns_disjoint (List.mem_ofFn.mpr ⟨i, rfl⟩)

theorem words_diagonalRound (x : Words) (i : Fin 4) :
    (diagonal i).words (diagonalRound x) = (diagonal i).quarterRoundOf x := by
  rw [diagonalRound_eq_quarterRounds]
  exact words_quarterRounds x diagonals_disjoint (List.mem_ofFn.mpr ⟨i, rfl⟩)

/-- Settles O26: the columns are disjoint, and so are the diagonals. -/
theorem roundsAreParallelQuarterRounds : Obligations.RoundsAreParallelQuarterRounds :=
  fun x i => ⟨words_columnRound x i, words_diagonalRound x i⟩

/-! ### The schedule -/

theorem pipeline_eq_iterate (n : Nat) (x : Words) : pipeline n x = doubleRound^[n] x := by
  induction n generalizing x with
  | zero => rfl
  | succ n ih => exact ih (doubleRound x)

theorem quarterRoundAt_zero (ia ib ic id : Fin 16) :
    quarterRoundAt (Vector.replicate 16 0) ia ib ic id = Vector.replicate 16 0 := by
  simp only [quarterRoundAt, Fin.getElem_fin, Vector.getElem_replicate, quarterRound_zero, Vector.set_replicate_self]

theorem doubleRound_zero : doubleRound (Vector.replicate 16 0) = Vector.replicate 16 0 := by
  simp only [doubleRound, columnRound, diagonalRound, quarterRoundAt_zero]

/-- Settles O25: ten stages of the pipeline, each of which keeps the zero array. -/
theorem roundsAreTenDoubleRounds : Obligations.RoundsAreTenDoubleRounds := by
  unfold Obligations.RoundsAreTenDoubleRounds
  refine ⟨pipeline_eq_iterate 10, ?_⟩
  calc rounds (Vector.replicate 16 0)
    _ = doubleRound^[10] (Vector.replicate 16 0) := pipeline_eq_iterate 10 _
    _ = Vector.replicate 16 0 := Function.iterate_fixed doubleRound_zero 10

end Sys2Proof.Machine
end

section
/-! SUPPORT. Proofs of the statements about lanes and keystream blocks (spec/41_lane_batch.md). -/

namespace Sys2Proof.Machine

/-! ### The bytes of a block -/

/-- The sum of two words, without carry into the next (R86). -/
theorem getElem_feedForward (z y : Words) (k : Fin 16) : (feedForward z y)[k] = z[k] + y[k] :=
  Vector.getElem_ofFn k.isLt

theorem wordByte_toNat (w : Word) (j : Nat) : (wordByte w j).toNat = w.toNat / 2 ^ (8 * j) % 2 ^ 8 := by
  rw [wordByte, BitVec.extractLsb'_toNat, Nat.shiftRight_eq_div_pow]

/-- Words in order, each from its least significant byte (R87). -/
theorem getElem_serialize (o : Words) (k : Fin 16) (j : Fin 4) :
    (serialize o)[4 * k.val + j.val]'(by omega) = wordByte o[k] j.val := by
  have hword : (4 * k.val + j.val) / 4 = k.val := by omega
  have hbyte : (4 * k.val + j.val) % 4 = j.val := by omega
  simp only [serialize, Vector.getElem_ofFn, hword, hbyte, Fin.getElem_fin]

/-- Settles O28: byte `4k + j` is byte `j` of word `k` of the feed-forward. -/
theorem blockBytesAreLittleEndianSums : Obligations.BlockBytesAreLittleEndianSums := by
  unfold Obligations.BlockBytesAreLittleEndianSums
  intro y k j
  rw [block, getElem_serialize, wordByte_toNat, getElem_feedForward, BitVec.toNat_add]

/-! ### A lane's counter -/

/-- A counter is its two halves (R10). -/
@[simp] theorem ctr64_halves (c : Counter) : ctr64 (counterLow c) (counterHigh c) = c :=
  calc ctr64 (counterLow c) (counterHigh c)
    _ = c.extractLsb' 0 64 := BitVec.extractLsb'_append_extractLsb'_eq_extractLsb' (show 32 = 0 + 32 from rfl)
    _ = c := BitVec.extractLsb'_eq_self

/-- A lane starts with its own counter (R83, R95). -/
theorem counterOf_laneInit (S : Words) (base : Counter) (l : Nat) : counterOf (laneInit S base l) = laneCounter base l := by
  have hlow : (laneInit S base l)[12] = counterLow (laneCounter base l) := by simp [laneInit]
  have hhigh : (laneInit S base l)[13] = counterHigh (laneCounter base l) := by simp [laneInit]
  rw [counterOf, hlow, hhigh, ctr64_halves]

theorem laneCounter_toNat (base : Counter) (l : Nat) : (laneCounter base l).toNat = (base.toNat + l) % 2 ^ 64 := by
  rw [laneCounter, BitVec.toNat_add, BitVec.toNat_ofNat, Nat.add_mod_mod]

/-- Settles O29: the lane's counter is put in words 12 and 13 and nowhere else. -/
theorem laneInitSetsOnlyTheCounter : Obligations.LaneInitSetsOnlyTheCounter := by
  unfold Obligations.LaneInitSetsOnlyTheCounter
  intro S base l
  refine ⟨by rw [counterOf_laneInit, laneCounter_toNat], fun k h12 h13 => ?_⟩
  have ne12 : 12 ≠ k.val := fun h => h12 (Fin.ext h.symm)
  have ne13 : 13 ≠ k.val := fun h => h13 (Fin.ext h.symm)
  rw [laneInit, Fin.getElem_fin, Vector.getElem_set_ne _ _ ne13, Vector.getElem_set_ne _ _ ne12, Fin.getElem_fin]

/-! ### The lane that makes a block -/

/-- Lane `l` at `base` counts from where lane 0 at `base + l` does (R95). -/
theorem laneCounter_eq_lane_zero (base : Counter) (l : Nat) :
    laneCounter base l = laneCounter (base + BitVec.ofNat 64 l) 0 :=
  (BitVec.add_zero _).symm

/-- LANEINIT takes from its lane the counter alone (R89). -/
theorem laneInit_eq_lane_zero (S : Words) (base : Counter) (l : Nat) :
    laneInit S base l = laneInit S (base + BitVec.ofNat 64 l) 0 := by
  rw [laneInit, laneInit, laneCounter_eq_lane_zero base l]

/-- Settles O30: the two lanes start from the same words. -/
theorem keystreamIndependentOfLane : Obligations.KeystreamIndependentOfLane :=
  fun S base l => congrArg block (laneInit_eq_lane_zero S base l)

end Sys2Proof.Machine
end

section
/-! SUPPORT. Proof of the statement about the counter's two words (spec/42_counter_advance.md). -/

namespace Sys2Proof.Machine

@[simp] theorem counterLow_ctr64 (lo hi : Word) : counterLow (ctr64 lo hi) = lo :=
  BitVec.extractLsb'_append_eq_right

@[simp] theorem counterHigh_ctr64 (lo hi : Word) : counterHigh (ctr64 lo hi) = hi :=
  BitVec.extractLsb'_append_eq_left

/-- The low word has weight 1, the high word 2^32 (R93). -/
theorem ctr64_toNat (lo hi : Word) : (ctr64 lo hi).toNat = lo.toNat + hi.toNat * 2 ^ 32 := by
  rw [ctr64, BitVec.toNat_append, ← Nat.shiftLeft_add_eq_or_of_lt lo.isLt, Nat.shiftLeft_eq, Nat.add_comm]

/-- The 64-bit addition, word by word (R94): the carry goes on where the low word wraps to 0. -/
theorem counterAdvance_ctr64 (lo hi : Word) :
    counterAdvance (ctr64 lo hi) = ctr64 (lo + 1) (if lo + 1 = 0 then hi + 1 else hi) := by
  apply BitVec.eq_of_toNat_eq
  rw [counterAdvance, BitVec.toNat_add, ctr64_toNat, ctr64_toNat]
  split
  case isTrue carry => bv_omega
  case isFalse noCarry => bv_omega

/-- Settles O31: advancing the two halves gives the two halves of the next counter. -/
theorem counterAdvancesWordByWord : Obligations.CounterAdvancesWordByWord := by
  unfold Obligations.CounterAdvancesWordByWord
  intro S
  refine ⟨ctr64_toNat S[12] S[13], ?_, ?_⟩
  · rw [counterOf, counterAdvance_ctr64, counterLow_ctr64]
  · rw [counterOf, counterAdvance_ctr64, counterHigh_ctr64]

end Sys2Proof.Machine
end

section
/-! SUPPORT. Proof of the statement about the XOR of a block (spec/43_xor_engine.md). -/

namespace Sys2Proof.Machine

/-- A second XOR with the keystream byte cancels the first. -/
@[simp] theorem xorByte_xorByte (input keystream : Byte) :
    xorByte (xorByte input keystream) keystream = input := by
  rw [xorByte, xorByte, BitVec.xor_assoc, BitVec.xor_self, BitVec.xor_zero]

/-- Byte `i` of XORBLK is computed from the two bytes at `i` alone (R100). -/
@[simp] theorem getElem_xorBlock (input keystream : Block) (i : Nat) (hi : i < 64) :
    (xorBlock input keystream)[i] = xorByte input[i] keystream[i] :=
  Vector.getElem_ofFn hi

theorem xorBlock_xorBlock (input keystream : Block) :
    xorBlock (xorBlock input keystream) keystream = input := by
  ext1 i hi
  rw [getElem_xorBlock, getElem_xorBlock, xorByte_xorByte]

/-- Settles O32: both clauses hold of each byte. -/
theorem xorBlockIsItsOwnInverse : Obligations.XorBlockIsItsOwnInverse :=
  fun input keystream => ⟨fun i => getElem_xorBlock input keystream i i.isLt, xorBlock_xorBlock input keystream⟩

end Sys2Proof.Machine
end

section
/-! SUPPORT. Proofs of the statements about CMD writes, CHECK and CORE's single steps (spec/44_dispatcher.md sections 1
and 2). -/

namespace Sys2Proof.Machine

/-! ### CMD writes -/

theorem commandWrite_busy (f : State → State) {s : State} (h : s.regs.STATUS.BUSY = true) :
    commandWrite f s = busyCommand s := if_pos h

theorem commandWrite_idle (f : State → State) {s : State} (h : s.regs.STATUS.BUSY = false) :
    commandWrite f s = f s := if_neg (by simp [h])

/-- Settles O16: while idle a NOP is the identity. -/
theorem nopWhileIdle : Obligations.NopWhileIdle :=
  fun _ hb => congrArg Host.Outcome.next (commandWrite_idle id hb)

/-- Settles O17: the BUSY test comes before the value is looked at. -/
theorem commandWhileBusyIsIgnored : Obligations.CommandWhileBusyIsIgnored := by
  unfold Obligations.CommandWhileBusyIsIgnored
  intro s v hb
  have busy (f : State → State) :=
    congrArg (Host.Outcome.next (φ := Fault) (ρ := Refusal)) (commandWrite_busy f hb)
  exact ⟨busy _, busy _, busy _⟩

/-- A command that fails while idle, as the whole state (R134). -/
theorem failCommand_idle (e : ErrCode) {s : State} (h : s.regs.STATUS.BUSY = false) :
    failCommand e s = { s with regs := { s.regs with
      STATUS := ⟨false, true, true, s.regs.STATUS.IGN, e⟩, BLKDONE := 0 } } := by
  simp only [failCommand, signalDone, recordError, clearBlkdone, mapStatus, h]

/-- A command of no block that succeeds while idle, as the whole state (R111). -/
theorem signalDone_startClear_idle {s : State} (h : s.regs.STATUS.BUSY = false) :
    signalDone (startClear s) = { s with regs := { s.regs with
      STATUS := ⟨false, true, false, s.regs.STATUS.IGN, .none⟩, BLKDONE := 0 } } := by
  simp only [signalDone, startClear, clearBlkdone, mapStatus, h]

/-- Settles O18: the command fails with the code of an illegal command. -/
theorem illegalCommandWhileIdle : Obligations.IllegalCommandWhileIdle := by
  unfold Obligations.IllegalCommandWhileIdle
  intro s v hb
  refine ⟨⟨false, true, true, s.regs.STATUS.IGN, .illegalCmd⟩, ?_, ?_, by simp [irq]⟩
  · exact congrArg Host.Outcome.next ((commandWrite_idle _ hb).trans (failCommand_idle _ hb))
  · cases s.regs.STATUS.IGN <;> decide

/-- START by what CHECK and the block count say (R111). -/
theorem startCommand_fails {s : State} (h : check s.regs ≠ .none) :
    startCommand s = failCommand (check s.regs) s := if_pos h

theorem startCommand_noBlock {s : State} (h : check s.regs = .none) (hm : blockCount s.regs = 0) :
    startCommand s = signalDone (startClear s) := by
  simp [startCommand, h, hm]

theorem startCommand_launches {s : State} (h : check s.regs = .none) (hm : blockCount s.regs ≠ 0) :
    startCommand s = launch (startClear s) := by
  simp [startCommand, h, hm]

/-- START as an instruction, while idle. -/
theorem exec_start_idle {s : State} (h : s.regs.STATUS.BUSY = false) :
    exec .wrCmdStart s = .next (startCommand s) := congrArg Host.Outcome.next (commandWrite_idle _ h)

theorem blockCount_eq_zero {r : Regs} : blockCount r = 0 ↔ r.NBLK = 0 := by
  rw [blockCount, ← BitVec.toNat_inj]
  rfl

/-- Settles O19: CHECK's code is recorded and the command ends. -/
theorem startFailsBeforeAnyAccess : Obligations.StartFailsBeforeAnyAccess := by
  unfold Obligations.StartFailsBeforeAnyAccess
  intro s hb hc
  rw [exec_start_idle hb, startCommand_fails hc, failCommand_idle _ hb]

/-- Settles O20: DONE is signalled after what START clears. -/
theorem startOfNoBlockSucceedsAtOnce : Obligations.StartOfNoBlockSucceedsAtOnce := by
  unfold Obligations.StartOfNoBlockSucceedsAtOnce
  intro s hb hc hm
  rw [exec_start_idle hb, startCommand_noBlock hc (blockCount_eq_zero.mpr hm), signalDone_startClear_idle hb]

/-- Settles O21: the launch after what START clears. -/
theorem startLaunchesTheSequencer : Obligations.StartLaunchesTheSequencer := by
  unfold Obligations.StartLaunchesTheSequencer
  intro s hb hc hm
  rw [exec_start_idle hb, startCommand_launches hc (mt blockCount_eq_zero.mp hm)]
  rfl

/-! ### CHECK -/

/-- The four tests of CHECK as statements about numbers (R112). -/
def LenFails (r : Regs) : Prop := r.SRC_LEN.toNat ≠ 64 * r.NBLK.toNat ∨ r.DST_LEN.toNat ≠ 64 * r.NBLK.toNat

def AlignFails (r : Regs) : Prop := r.STATE_ADDR.toNat % 4 ≠ 0

def RangeFails (r : Regs) : Prop :=
  2 ^ 32 < r.STATE_ADDR.toNat + 64 ∨ 2 ^ 32 < r.SRC_ADDR.toNat + 64 * r.NBLK.toNat ∨
    2 ^ 32 < r.DST_ADDR.toNat + 64 * r.NBLK.toNat

def AliasFails (r : Regs) : Prop :=
  ∃ a, (stateWindow r).Contains a ∧ ((inputWindow r).Contains a ∨ (outputWindow r).Contains a)

section
variable {r : Regs}

theorem check_of_lenFails (h : LenFails r) : check r = .len := if_pos (by rwa [bufferLength_eq])

/-- CHECK after the length test. -/
theorem check_of_not_lenFails (h : ¬ LenFails r) : check r =
    if r.STATE_ADDR.extractLsb' 0 2 ≠ 0 then .stateAlign
    else if (stateWindow r).crossesTop || (inputWindow r).crossesTop || (outputWindow r).crossesTop then .range
    else if (stateWindow r).overlaps (inputWindow r) || (stateWindow r).overlaps (outputWindow r) then .aliasing
    else .none := if_neg (by rwa [bufferLength_eq])

theorem lowBits_ne_zero_iff : r.STATE_ADDR.extractLsb' 0 2 ≠ 0 ↔ AlignFails r := not_congr (lowBits_eq_zero _)

/-- The range test is about the three windows' ends (R51). -/
theorem crossesTop_iff_rangeFails :
    ((stateWindow r).crossesTop || (inputWindow r).crossesTop || (outputWindow r).crossesTop) = true ↔
      RangeFails r := by
  simp only [Bool.or_eq_true, crossesTop_iff, stateWindow, inputWindow, outputWindow, bufferLength_eq,
    Config.stateBytes, RangeFails, or_assoc]

/-- The last test is about a byte of WS in another window (R50). -/
theorem overlaps_iff_aliasFails :
    ((stateWindow r).overlaps (inputWindow r) || (stateWindow r).overlaps (outputWindow r)) = true ↔ AliasFails r := by
  simp only [Bool.or_eq_true, overlaps_iff, AliasFails, and_or_left, exists_or]

theorem check_of_alignFails (h1 : ¬ LenFails r) (h2 : AlignFails r) : check r = .stateAlign :=
  (check_of_not_lenFails h1).trans (if_pos (lowBits_ne_zero_iff.mpr h2))

theorem check_of_rangeFails (h1 : ¬ LenFails r) (h2 : ¬ AlignFails r) (h3 : RangeFails r) : check r = .range := by
  rw [check_of_not_lenFails h1, if_neg (mt lowBits_ne_zero_iff.mp h2), if_pos (crossesTop_iff_rangeFails.mpr h3)]

theorem check_of_aliasFails (h1 : ¬ LenFails r) (h2 : ¬ AlignFails r) (h3 : ¬ RangeFails r) (h4 : AliasFails r) :
    check r = .aliasing := by
  rw [check_of_not_lenFails h1, if_neg (mt lowBits_ne_zero_iff.mp h2), if_neg (mt crossesTop_iff_rangeFails.mp h3),
    if_pos (overlaps_iff_aliasFails.mpr h4)]

theorem check_of_none_fails (h1 : ¬ LenFails r) (h2 : ¬ AlignFails r) (h3 : ¬ RangeFails r) (h4 : ¬ AliasFails r) :
    check r = .none := by
  rw [check_of_not_lenFails h1, if_neg (mt lowBits_ne_zero_iff.mp h2), if_neg (mt crossesTop_iff_rangeFails.mp h3),
    if_neg (mt overlaps_iff_aliasFails.mp h4)]

end

/-- Settles O22: one case for each test that can be the first to fail, and one for none. -/
theorem checkReturnsTheFirstFailure : Obligations.CheckReturnsTheFirstFailure := by
  unfold Obligations.CheckReturnsTheFirstFailure
  intro r
  change (check r = .len ↔ LenFails r) ∧ (check r = .stateAlign ↔ ¬ LenFails r ∧ AlignFails r) ∧
    (check r = .range ↔ ¬ LenFails r ∧ ¬ AlignFails r ∧ RangeFails r) ∧
    (check r = .aliasing ↔ ¬ LenFails r ∧ ¬ AlignFails r ∧ ¬ RangeFails r ∧ AliasFails r) ∧
    (check r = .none ↔ ¬ LenFails r ∧ ¬ AlignFails r ∧ ¬ RangeFails r ∧ ¬ AliasFails r)
  by_cases h1 : LenFails r
  · simp [check_of_lenFails h1, h1]
  by_cases h2 : AlignFails r
  · simp [check_of_alignFails h1 h2, h1, h2]
  by_cases h3 : RangeFails r
  · simp [check_of_rangeFails h1 h2 h3, h1, h2, h3]
  by_cases h4 : AliasFails r
  · simp [check_of_aliasFails h1 h2 h3 h4, h1, h2, h3, h4]
  · simp [check_of_none_fails h1 h2 h3 h4, h1, h2, h3, h4]

/-- Settles O23: a length is a 32-bit number, and empty windows hold no byte. -/
theorem checkCornerCases : Obligations.CheckCornerCases := by
  unfold Obligations.CheckCornerCases
  refine fun r => ⟨fun hm => check_of_lenFails (.inl ?_), fun hc => ?_, fun hm hs hd ha hw => ?_⟩
  · have := r.SRC_LEN.isLt
    omega
  · rw [← bufferLength_eq]
    exact bufferLength_lt_of_check hc
  · have hsrc := r.SRC_ADDR.isLt
    have hdst := r.DST_ADDR.isLt
    have hlen : bufferLength r = 0 := by rw [bufferLength_eq, hm]; rfl
    have hblocks : r.NBLK.toNat = 0 := by rw [hm]; rfl
    refine check_of_none_fails (by simp [LenFails, hm, hs, hd]) (by simpa [AlignFails] using ha) ?_ ?_
    · simp only [RangeFails, hblocks]
      omega
    · rintro ⟨a, _, h | h⟩ <;> simp only [Window.Contains, inputWindow, outputWindow, hlen] at h <;> omega

/-! ### CORE's step by phase -/

section
variable {s : State}

theorem coreStep_idle (h : s.seq.PHASE = .idle) : coreStep s = .next s := by simp [coreStep, h]
theorem coreStep_load (h : s.seq.PHASE = .load) : coreStep s = loadStep s := by simp [coreStep, h]
theorem coreStep_gen (h : s.seq.PHASE = .gen) : coreStep s = .next { s with seq := generated s.seq } := by
  simp [coreStep, genStep, h]
theorem coreStep_rd (h : s.seq.PHASE = .rd) : coreStep s = rdStep s := by simp [coreStep, h]
theorem coreStep_wr (h : s.seq.PHASE = .wr) : coreStep s = wrStep s := by simp [coreStep, h]
theorem coreStep_wb (h : s.seq.PHASE = .wb) : coreStep s = wbStep s := by simp [coreStep, h]
theorem coreStep_fin (h : s.seq.PHASE = .fin) : coreStep s = .next (finish s) := by simp [coreStep, finStep, h]

/-- A LOAD step inside the rule's range is its read, continued (R113). -/
theorem loadStep_of_index (hi : s.seq.IDX.val < 16) : loadStep s =
    (memRead (loadAddr s) .word s).resume (takeBusFault s) fun r => { r.2 with seq := loaded r.1 r.2.seq } :=
  if_neg (by omega)

/-- LOAD on ordinary memory (R113). -/
theorem coreStep_load_ordinary (hp : s.seq.PHASE = .load) (hi : s.seq.IDX.val < 16)
    (ha : loadAddr s + 4 ≤ Config.addressSpace) (hf : s.platform.busFault ⟨loadAddr s, .word, .read⟩ = false)
    (hd : ∀ i < 4, s.platform.isDevice (loadAddr s + i) = false) :
    coreStep s = .next { s with seq := loaded (s.mem.word (loadAddr s)) s.seq } := by
  rw [coreStep_load hp, loadStep_of_index hi, memRead_word ha hf hd, resume_done]

/-- RD on ordinary memory (R115). -/
theorem coreStep_rd_ordinary (hp : s.seq.PHASE = .rd) (ha : readAddr s < Config.addressSpace)
    (hf : s.platform.busFault ⟨readAddr s, .byte, .read⟩ = false) (hd : s.platform.isDevice (readAddr s) = false) :
    coreStep s = .next { s with seq := inputRead (s.mem.read (readAddr s)) s.seq } := by
  rw [coreStep_rd hp, rdStep, memRead_byte ha hf hd, resume_done]
  simp

/-- WR on ordinary memory (R116). -/
theorem coreStep_wr_ordinary (hp : s.seq.PHASE = .wr) (ha : writeAddr s < Config.addressSpace)
    (hf : s.platform.busFault ⟨writeAddr s, .byte, .write⟩ = false) (hd : s.platform.isDevice (writeAddr s) = false) :
    coreStep s = .next (outputWritten { s with mem := s.mem.write (writeAddr s) (outputByte s.seq) }) := by
  rw [coreStep_wr hp, wrStep, memWrite_ordinary (w := .byte) ha hf fun i hi => ?_, resume_done, leBytes_byte]
  · rfl
  · obtain rfl : i = 0 := Nat.lt_one_iff.mp hi
    exact hd

/-- WB on ordinary memory (R118). -/
theorem coreStep_wb_ordinary (hp : s.seq.PHASE = .wb) (ha : writeBackAddr s + 4 ≤ Config.addressSpace)
    (hf : s.platform.busFault ⟨writeBackAddr s, .word, .write⟩ = false)
    (hd : ∀ i < 4, s.platform.isDevice (writeBackAddr s + i) = false) :
    coreStep s = .next (counterWritten
      { s with mem := s.mem.writeBytes (writeBackAddr s) (leBytes Width.word.bytes (writeBackWord s.seq)) }) := by
  rw [coreStep_wb hp, wbStep, memWrite_ordinary (w := .word) ha hf hd, resume_done]

/-- BUSFAULT (R127): an access that faults inside the address space. -/
theorem coreStep_busFault {a : BusAccess} (hn : nextAccess s = some a)
    (ha : a.addr + a.width.bytes ≤ Config.addressSpace) (hi : s.seq.PHASE = .load → s.seq.IDX.val < 16) (hf : s.platform.busFault a = true) :
    coreStep s = .next (takeBusFault s) := by
  rcases nextAccess_cases hn with ⟨hp, rfl⟩ | ⟨hp, rfl⟩ | ⟨hp, rfl⟩ | ⟨hp, rfl⟩
  · rw [coreStep_load hp, loadStep_of_index (hi hp), memRead_busFault.mpr ⟨ha, hf⟩, resume_busFault]
  · rw [coreStep_rd hp, rdStep, memRead_busFault.mpr ⟨ha, hf⟩, resume_busFault]
  · rw [coreStep_wr hp, wrStep, memWrite_busFault.mpr ⟨ha, hf⟩, resume_busFault]
  · rw [coreStep_wb hp, wbStep, memWrite_busFault.mpr ⟨ha, hf⟩, resume_busFault]

end

/-! ### The statements about single steps -/

/-- The index after one that is not the last. -/
theorem val_add_one_of_ne {i : Fin 64} (h : i ≠ 63) : (i + 1).val = i.val + 1 := by
  omega

/-- Inside the bounds the checked update is the plain one. -/
theorem setIfInBounds_eq_set (S : Words) {k : Nat} (hk : k < 16) (v : Word) : S.setIfInBounds k v = S.set k v := by
  ext1 j hj
  rw [Vector.getElem_setIfInBounds, Vector.getElem_set]

/-- Settles O33: `loaded`, before and at word 15. -/
theorem loadStepReadsOneWord : Obligations.LoadStepReadsOneWord := by
  unfold Obligations.LoadStepReadsOneWord
  rintro s k hk hp rfl ha hf hd
  have hstep := coreStep_load_ordinary hp hk ha hf hd
  refine ⟨fun hlt => ?_, fun heq => ?_⟩
  · have hnext : s.seq.IDX + 1 = ⟨s.seq.IDX.val + 1, by omega⟩ :=
      Fin.ext (val_add_one_of_ne fun e => by simp [e] at hlt)
    rw [hstep, loaded_more (fun e => by simp [e] at hlt), setIfInBounds_eq_set _ hk, hnext]
    rfl
  · have h15 : s.seq.IDX = 15 := Fin.ext heq
    rw [hstep, loaded, if_pos h15]
    rw [setIfInBounds_eq_set _ hk]
    rfl

/-- Settles O34: `generated`, with the tier's bounds. -/
theorem genStepFillsTheLanes : Obligations.GenStepFillsTheLanes := by
  unfold Obligations.GenStepFillsTheLanes
  intro s hp hr
  exact ⟨chooseTier s.seq.REM, generate s.seq (chooseTier s.seq.REM), coreStep_gen hp, chooseTier_lanes _,
    (chooseTier_le hr).2, fun l => getElem_generate _ _ _ l.isLt⟩

/-- Settles O35: `inputRead`, before and at byte 63. -/
theorem readStepReadsOneByte : Obligations.ReadStepReadsOneByte := by
  unfold Obligations.ReadStepReadsOneByte
  rintro s i hi hp rfl ha hf hd
  have hstep := coreStep_rd_ordinary hp ha hf hd
  refine ⟨fun hlt => ?_, fun heq => ?_⟩
  · have hne : s.seq.IDX ≠ 63 := fun e => by simp [e] at hlt
    have hnext : s.seq.IDX + 1 = ⟨s.seq.IDX.val + 1, by omega⟩ := Fin.ext (val_add_one_of_ne hne)
    rw [hstep, inputRead_more hne, hnext]
    rfl
  · rw [hstep, inputRead_last (Fin.ext heq)]
    rfl

/-- The byte written, as the memory reads it afterwards (R116). -/
theorem read_write_outputByte (s : State) (a : Nat) :
    (s.mem.write (writeAddr s) (outputByte s.seq)).read a =
      if a = writeAddr s then s.seq.IN[s.seq.IDX] ^^^ s.seq.KS[s.seq.LI][s.seq.IDX] else s.mem.read a := by
  rw [Memory.read_write]
  simp only [eq_comm]
  rfl

/-- Settles O36: the write and the next index. -/
theorem writeStepWritesOneByte : Obligations.WriteStepWritesOneByte := by
  unfold Obligations.WriteStepWritesOneByte
  rintro s i hi hp rfl ha hf hd
  have hne : s.seq.IDX ≠ 63 := fun e => by simp [e] at hi
  have hnext : s.seq.IDX + 1 = ⟨s.seq.IDX.val + 1, by omega⟩ := Fin.ext (val_add_one_of_ne hne)
  refine ⟨_, ?_, read_write_outputByte s⟩
  rw [coreStep_wr_ordinary hp ha hf hd, ← hnext]
  exact congrArg _ (outputWritten_more hne)

/-- BLOCKDONE's fields that do not depend on where it goes on, put together (R117). -/
theorem blockConsumed_eq (q : Sequencer) : blockConsumed q = { q with
    CTR := q.CTR + 1, CUR := q.CUR + 64, REM := q.REM - 1, IN := Vector.replicate 64 0
    KS := q.KS.set q.LI.val (Vector.replicate 64 0), IDX := 0
    N := (blockConsumed q).N, LI := (blockConsumed q).LI, PHASE := (blockConsumed q).PHASE } := by
  unfold blockConsumed
  dsimp only
  split
  · rfl
  · split <;> rfl

/-- Settles O37: the write, BLOCKDONE's sums, and its three ways to go on. -/
theorem lastWriteStepCompletesTheBlock : Obligations.LastWriteStepCompletesTheBlock := by
  unfold Obligations.LastWriteStepCompletesTheBlock
  intro s hp hi ha hf hd
  have haddr : writeAddr s = s.regs.DST_ADDR.toNat + s.seq.CUR.toNat + 63 := by rw [writeAddr, hi]; rfl
  rw [← haddr] at ha hf hd ⊢
  have hleft : s.seq.REM - 1 = 0 ↔ s.seq.REM = 1 := sub_eq_zero
  refine ⟨s.mem.write (writeAddr s) (outputByte s.seq), (blockConsumed s.seq).N, (blockConsumed s.seq).LI,
    (blockConsumed s.seq).PHASE, ?_, fun a => ?_, ?_⟩
  · rw [coreStep_wr_ordinary hp ha hf hd, ← blockConsumed_eq]
    exact congrArg _ (outputWritten_last hi)
  · simp only [read_write_outputByte, hi]
    rfl
  · rcases blockConsumed_cases s.seq with ⟨hl, hP, hN, hL⟩ | ⟨hl, hr, hP, hN, hL⟩ | ⟨hl, hr, hP, hN, hL⟩
    · have hn := lanes_le_four s.seq.N
      exact ⟨fun _ => ⟨hP, hN, by rw [hL, Fin.val_add]; simp; omega⟩, fun h => by omega⟩
    · exact ⟨fun h => by omega, fun _ => ⟨hN, hL, hP.trans (if_neg (mt hleft.mpr hr)).symm⟩⟩
    · exact ⟨fun h => by omega, fun _ => ⟨hN, hL, hP.trans (if_pos (hleft.mp hr)).symm⟩⟩

/-- The halves of the counter (R10). -/
theorem counterLow_eq (c : Counter) : counterLow c = c.setWidth 32 := by
  ext i hi
  simp [counterLow]

theorem counterHigh_eq (c : Counter) : counterHigh c = (c >>> 32).setWidth 32 := by
  ext i hi
  simp [counterHigh]

/-- A WB step, with the word and the address its index chooses (R118). -/
theorem coreStep_wb_stores {s : State} {d : Nat} {c : Word} {q : Sequencer} (hp : s.seq.PHASE = .wb)
    (haddr : writeBackAddr s = s.regs.STATE_ADDR.toNat + d) (hword : writeBackWord s.seq = c)
    (hq : ∀ m, counterWritten { s with mem := m } = { s with mem := m, seq := q })
    (ha : s.regs.STATE_ADDR.toNat + d + 4 ≤ Config.addressSpace)
    (hf : s.platform.busFault ⟨s.regs.STATE_ADDR.toNat + d, .word, .write⟩ = false)
    (hd : ∀ i < 4, s.platform.isDevice (s.regs.STATE_ADDR.toNat + d + i) = false) :
    ∃ m : Memory, coreStep s = .next { s with mem := m, seq := q } ∧ m.word (s.regs.STATE_ADDR.toNat + d) = c ∧
      ∀ a, a < s.regs.STATE_ADDR.toNat + d ∨ s.regs.STATE_ADDR.toNat + d + 4 ≤ a → m.read a = s.mem.read a := by
  rw [← haddr] at ha hf hd ⊢
  refine ⟨_, (coreStep_wb_ordinary hp ha hf hd).trans (congrArg _ (hq _)), ?_, fun a hout => ?_⟩
  · rw [word_writeBytes, hword]
  · exact Memory.read_writeBytes_outside _ _ _ _ (by simpa [Width.bytes] using hout)

/-- Settles O38: the two values of the index. -/
theorem writeBackStoresTheCounter : Obligations.WriteBackStoresTheCounter := by
  unfold Obligations.WriteBackStoresTheCounter
  rintro s d c hp (⟨hi, rfl, rfl⟩ | ⟨hi, rfl, rfl⟩) ha hf hd
  · refine coreStep_wb_stores hp (by simp [writeBackAddr, hi]) ?_ (fun m => ?_) ha hf hd
    · simp [writeBackWord, hi, counterLow_eq]
    · rw [if_pos rfl, if_pos rfl, ← hp]
      exact counterWritten_low hi
  · refine coreStep_wb_stores hp (by simp [writeBackAddr, hi]) ?_ (fun m => ?_) ha hf hd
    · simp [writeBackWord, hi, counterHigh_eq]
    · exact counterWritten_high (by simp [hi])

/-- Settles O39: `finish` puts the sequencer of reset in place. -/
theorem finClearsScratchAndSignals : Obligations.FinClearsScratchAndSignals := fun _ hp => coreStep_fin hp

/-- Settles O40: BUSFAULT, and FIN after it. -/
theorem busFaultEndsTheCommand : Obligations.BusFaultEndsTheCommand := by
  unfold Obligations.BusFaultEndsTheCommand
  intro s a hn ha hi hf hs
  refine ⟨takeBusFault s, (step_alone hs).trans (coreStep_busFault hn ha hi hf), rfl, ?_⟩
  exact (step_alone (s := takeBusFault s) hs).trans (coreStep_fin rfl)

end Sys2Proof.Machine
end

section
/-! SUPPORT. Proof that secrets steer nothing: two states of the same control take steps of the same outcome
(spec/44_dispatcher.md R124). -/

namespace Sys2Proof.Machine

/-! ### Instructions -/

/-- The registers an instruction leaves depend on the registers alone. -/
theorem exec_regs_congr (i : Instr) {s t : State} (h : s.regs = t.regs) :
    ∃ s' t', exec i s = .next s' ∧ exec i t = .next t' ∧ s'.regs = t'.regs := by
  have config (f : Regs → Regs) : (writeConfig f s).regs = (writeConfig f t).regs := by
    simp only [writeConfig, h]
    split
    · exact h
    · rfl
  have command {f : State → State} (hf : (f s).regs = (f t).regs) :
      (commandWrite f s).regs = (commandWrite f t).regs := by
    simp only [commandWrite, h]
    split
    · simp only [busyCommand, mapStatus, h]
    · exact hf
  have fail (e : ErrCode) : (failCommand e s).regs = (failCommand e t).regs := by
    simp only [failCommand, signalDone, recordError, clearBlkdone, mapStatus, h]
  cases i with
  | rdCtrl | rdCmd | rdStatus | rdBlkdone | rdNblk | rdStateAddr | rdSrcAddr | rdDstAddr | rdSrcLen | rdDstLen =>
    exact ⟨_, _, rfl, rfl, h⟩
  | wrCtrl v => exact ⟨_, _, rfl, rfl, congrArg (fun r : Regs => { r with CTRL := Ctrl.ofWord v }) h⟩
  | wrCmdNop => exact ⟨_, _, rfl, rfl, command h⟩
  | wrCmdStart =>
    refine ⟨_, _, rfl, rfl, command ?_⟩
    by_cases hc : check s.regs = .none
    · by_cases hm : blockCount s.regs = 0
      · rw [startCommand_noBlock hc hm, startCommand_noBlock (h ▸ hc) (h ▸ hm)]
        simp only [signalDone, startClear, clearBlkdone, mapStatus, h]
      · rw [startCommand_launches hc hm, startCommand_launches (h ▸ hc) (h ▸ hm)]
        simp only [launch, startClear, clearBlkdone, mapStatus, h]
    · rw [startCommand_fails hc, startCommand_fails (h ▸ hc), ← h]
      exact fail _
  | wrCmdIllegal => exact ⟨_, _, rfl, rfl, command (fail _)⟩
  | wrStatus v => exact ⟨_, _, rfl, rfl, by simp only [acknowledge, mapStatus, h]⟩
  | wrBlkdone => exact ⟨_, _, rfl, rfl, h⟩
  | wrNblk | wrStateAddr | wrSrcAddr | wrDstAddr | wrSrcLen | wrDstLen => exact ⟨_, _, rfl, rfl, config _⟩
  | rsvd28To2C w | rsvd30To3C w => exact ⟨_, _, rfl, rfl, by rw [reservedAccess_regs, reservedAccess_regs, h]⟩

/-- The START that launches a command: the one instruction that changes the internal state. -/
def Launches (i : Instr) (s : State) : Prop :=
  i = .wrCmdStart ∧ s.regs.STATUS.BUSY = false ∧ check s.regs = .none ∧ blockCount s.regs ≠ 0

theorem Launches.exec {i : Instr} {s : State} (h : Launches i s) : exec i s = .next (launch (startClear s)) := by
  obtain ⟨rfl, hb, hc, hm⟩ := h
  rw [exec_start_idle hb, startCommand_launches hc hm]

/-- Every other instruction leaves the internal state alone. -/
theorem exec_seq_of_not_launches {i : Instr} {s t : State} (hl : ¬ Launches i s) (h : exec i s = .next t) :
    t.seq = s.seq := by
  rcases exec_seq h with hq | ⟨hi, hb, hc, hm, _⟩
  · exact hq
  · exact absurd ⟨hi, hb, hc, hm⟩ hl

section
variable {s t : State} (h : SameControl s t)
include h

/-- The list of turns is apart from the rest. -/
theorem SameControl.withTurns (l : List Turn) : SameControl { s with turns := l } { t with turns := l } :=
  ⟨h.regs, h.platform, rfl, h.draws, h.phase, h.rem, h.cur, h.lanes, h.lane, h.index⟩

/-- The value last read, memory and equal draws may be put in on both sides. -/
theorem SameControl.after_access (m m' : Memory) (v v' : Option Word) (d : Nat) :
    SameControl { s with mem := m, rdata := v, draws := d } { t with mem := m', rdata := v', draws := d } :=
  ⟨h.regs, h.platform, h.turns, rfl, h.phase, h.rem, h.cur, h.lanes, h.lane, h.index⟩

/-- A change of the registers alone that is equal on both sides. -/
theorem SameControl.of_regs {s' t' : State} (hr : s'.regs = t'.regs) (hs : s'.seq = s.seq) (ht : t'.seq = t.seq)
    (hp : s'.platform = t'.platform) (hl : s'.turns = t'.turns) (hd : s'.draws = t'.draws) : SameControl s' t' :=
  ⟨hr, hp, hl, hd, by rw [hs, ht, h.phase], by rw [hs, ht, h.rem], by rw [hs, ht, h.cur], by rw [hs, ht, h.lanes],
    by rw [hs, ht, h.lane], by rw [hs, ht, h.index]⟩

theorem SameControl.after_exec (i : Instr) : SameOutcome (exec i s) (exec i t) := by
  obtain ⟨s', t', hs, ht, hr⟩ := exec_regs_congr i h.regs
  obtain ⟨_, hs₁, _, hsp, hsl, hsd⟩ := exec_next i s
  obtain ⟨_, ht₁, _, htp, htl, htd⟩ := exec_next i t
  obtain rfl : _ = s' := Host.Outcome.next.inj (hs₁.symm.trans hs)
  obtain rfl : _ = t' := Host.Outcome.next.inj (ht₁.symm.trans ht)
  have hp := hsp.trans (h.platform.trans htp.symm)
  have hl := hsl.trans (h.turns.trans htl.symm)
  have hd := hsd.trans (h.draws.trans htd.symm)
  rw [hs, ht]
  by_cases hlaunch : Launches i s
  · obtain rfl := Host.Outcome.next.inj (hs.symm.trans hlaunch.exec)
    obtain rfl := Host.Outcome.next.inj (ht.symm.trans (Launches.exec (by rwa [Launches, ← h.regs])))
    exact ⟨hr, hp, hl, hd, rfl, by simp [h.regs], rfl, rfl, rfl, rfl⟩
  · have hlaunch' : ¬ Launches i t := by rwa [Launches, ← h.regs]
    exact h.of_regs hr (exec_seq_of_not_launches hlaunch hs) (exec_seq_of_not_launches hlaunch' ht) hp hl hd

/-! ### Bus accesses -/

/-- A read ends alike on both sides, where what follows it does. -/
theorem SameControl.after_memRead {a : Nat} {w : Width} {f f' : State} {k k' : Word × State → State}
    (hf : SameControl f f')
    (hk : ∀ v v' d, SameControl (k (v, { s with draws := d })) (k' (v', { t with draws := d }))) :
    SameOutcome ((memRead a w s).resume f k) ((memRead a w t).resume f' k') := by
  have hd : (readBytes s w.bytes a s.draws).2 = (readBytes t w.bytes a t.draws).2 := by
    rw [h.draws]
    exact readBytes_draws h.platform ..
  rcases Nat.lt_or_ge Config.addressSpace (a + w.bytes) with ha | ha
  · rw [memRead_outside s ha, memRead_outside t ha]
    rfl
  · cases hb : s.platform.busFault ⟨a, w, .read⟩ with
    | true => rwa [memRead_busFault.mpr ⟨ha, hb⟩, memRead_busFault.mpr ⟨ha, h.platform ▸ hb⟩]
    | false =>
      rw [memRead_of_noFault ha hb, memRead_of_noFault ha (h.platform ▸ hb), hd]
      exact hk ..

/-- A write ends alike on both sides, whatever value each stores. -/
theorem SameControl.after_memWrite {a : Nat} {w : Width} {v v' : Word} {f f' : State} {k k' : State → State}
    (hf : SameControl f f') (hk : ∀ m m', SameControl (k { s with mem := m }) (k' { t with mem := m' })) :
    SameOutcome ((memWrite a w v s).resume f k) ((memWrite a w v' t).resume f' k') := by
  rcases Nat.lt_or_ge Config.addressSpace (a + w.bytes) with ha | ha
  · rw [memWrite_outside v s ha, memWrite_outside v' t ha]
    rfl
  · cases hb : s.platform.busFault ⟨a, w, .write⟩ with
    | true => rwa [memWrite_busFault.mpr ⟨ha, hb⟩, memWrite_busFault.mpr ⟨ha, h.platform ▸ hb⟩]
    | false =>
      by_cases hd : ∃ i < w.bytes, s.platform.isDevice (a + i) = true
      · rw [memWrite_device v ha hb hd, memWrite_device v' ha (h.platform ▸ hb) (h.platform ▸ hd)]
        rfl
      · have ho : ∀ i < w.bytes, s.platform.isDevice (a + i) = false :=
          fun i hi => by simpa using fun hc => hd ⟨i, hi, hc⟩
        rw [memWrite_ordinary ha hb ho, memWrite_ordinary ha (h.platform ▸ hb) (h.platform ▸ ho)]
        exact hk ..

/-! ### CORE's steps -/

theorem SameControl.nextAccess_eq : nextAccess s = nextAccess t := by
  simp only [nextAccess, loadAddr, readAddr, writeAddr, writeBackAddr, h.phase, h.regs, h.cur, h.index]

theorem SameControl.after_takeBusFault : SameControl (takeBusFault s) (takeBusFault t) :=
  ⟨by simp only [takeBusFault, recordError, mapStatus, h.regs], h.platform, h.turns, h.draws, rfl, h.rem, h.cur,
    h.lanes, h.lane, rfl⟩

theorem SameControl.after_loaded (v v' : Word) :
    SameControl { s with seq := loaded v s.seq } { t with seq := loaded v' t.seq } := by
  by_cases hi : s.seq.IDX = 15
  · rw [loaded_last hi, loaded_last (h.index ▸ hi)]
    exact ⟨h.regs, h.platform, h.turns, h.draws, rfl, h.rem, h.cur, h.lanes, h.lane, rfl⟩
  · rw [loaded_more hi, loaded_more (h.index ▸ hi)]
    exact ⟨h.regs, h.platform, h.turns, h.draws, h.phase, h.rem, h.cur, h.lanes, h.lane, congrArg (· + 1) h.index⟩

theorem SameControl.after_generated :
    SameControl { s with seq := generated s.seq } { t with seq := generated t.seq } :=
  ⟨h.regs, h.platform, h.turns, h.draws, rfl, h.rem, h.cur, congrArg chooseTier h.rem, rfl, rfl⟩

theorem SameControl.after_inputRead (b b' : Byte) :
    SameControl { s with seq := inputRead b s.seq } { t with seq := inputRead b' t.seq } := by
  by_cases hi : s.seq.IDX = 63
  · rw [inputRead_last hi, inputRead_last (h.index ▸ hi)]
    exact ⟨h.regs, h.platform, h.turns, h.draws, rfl, h.rem, h.cur, h.lanes, h.lane, rfl⟩
  · rw [inputRead_more hi, inputRead_more (h.index ▸ hi)]
    exact ⟨h.regs, h.platform, h.turns, h.draws, h.phase, h.rem, h.cur, h.lanes, h.lane, congrArg (· + 1) h.index⟩

theorem SameControl.after_blockDone : SameControl (blockDone s) (blockDone t) := by
  have hto : (blockConsumed s.seq).PHASE = (blockConsumed t.seq).PHASE ∧
      (blockConsumed s.seq).N = (blockConsumed t.seq).N ∧ (blockConsumed s.seq).LI = (blockConsumed t.seq).LI := by
    simp only [blockConsumed, h.lane, h.lanes, h.rem]
    split
    · exact ⟨rfl, rfl, rfl⟩
    · split <;> exact ⟨rfl, rfl, rfl⟩
  obtain ⟨hP, hN, hL⟩ := hto
  obtain ⟨_, _, _, hCUR, hREM, hIDX, _⟩ := blockConsumed_fields s.seq
  obtain ⟨_, _, _, hCUR', hREM', hIDX', _⟩ := blockConsumed_fields t.seq
  exact ⟨by simp only [blockDone, h.regs], h.platform, h.turns, h.draws, hP, by simp [hREM, hREM', h.rem],
    by simp [hCUR, hCUR', h.cur], hN, hL, hIDX.trans hIDX'.symm⟩

theorem SameControl.after_outputWritten : SameControl (outputWritten s) (outputWritten t) := by
  by_cases hi : s.seq.IDX = 63
  · rw [outputWritten_last hi, outputWritten_last (h.index ▸ hi)]
    exact h.after_blockDone
  · rw [outputWritten_more hi, outputWritten_more (h.index ▸ hi)]
    exact ⟨h.regs, h.platform, h.turns, h.draws, h.phase, h.rem, h.cur, h.lanes, h.lane, congrArg (· + 1) h.index⟩

theorem SameControl.after_counterWritten : SameControl (counterWritten s) (counterWritten t) := by
  by_cases hi : s.seq.IDX = 0
  · rw [counterWritten_low hi, counterWritten_low (h.index ▸ hi)]
    exact ⟨h.regs, h.platform, h.turns, h.draws, h.phase, h.rem, h.cur, h.lanes, h.lane, rfl⟩
  · rw [counterWritten_high hi, counterWritten_high (h.index ▸ hi)]
    exact ⟨h.regs, h.platform, h.turns, h.draws, rfl, h.rem, h.cur, h.lanes, h.lane, rfl⟩

theorem SameControl.after_finish : SameControl (finish s) (finish t) :=
  ⟨by simp only [finish, mapStatus, h.regs], h.platform, h.turns, h.draws, rfl, rfl, rfl, rfl, rfl, rfl⟩

theorem SameControl.after_loadStep : SameOutcome (loadStep s) (loadStep t) := by
  by_cases hi : s.seq.IDX.val < 16
  · have haddr : loadAddr s = loadAddr t := by rw [loadAddr, h.regs, h.index, loadAddr]
    rw [loadStep_of_index hi, loadStep_of_index (h.index ▸ hi), haddr]
    exact h.after_memRead h.after_takeBusFault fun v v' d =>
      (h.after_access s.mem t.mem s.rdata t.rdata d).after_loaded v v'
  · rw [loadStep, if_pos (by omega), loadStep, if_pos (by rw [← h.index]; omega)]
    rfl

theorem SameControl.after_rdStep : SameOutcome (rdStep s) (rdStep t) := by
  have haddr : readAddr s = readAddr t := by rw [readAddr, h.regs, h.cur, h.index, readAddr]
  rw [rdStep, rdStep, haddr]
  exact h.after_memRead h.after_takeBusFault fun v v' d =>
    (h.after_access s.mem t.mem s.rdata t.rdata d).after_inputRead (v.setWidth 8) (v'.setWidth 8)

theorem SameControl.after_wrStep : SameOutcome (wrStep s) (wrStep t) := by
  have haddr : writeAddr s = writeAddr t := by rw [writeAddr, h.regs, h.cur, h.index, writeAddr]
  rw [wrStep, wrStep, haddr]
  refine h.after_memWrite h.after_takeBusFault fun m m' => SameControl.after_outputWritten ?_
  exact ⟨h.regs, h.platform, h.turns, h.draws, h.phase, h.rem, h.cur, h.lanes, h.lane, h.index⟩

theorem SameControl.after_wbStep : SameOutcome (wbStep s) (wbStep t) := by
  have haddr : writeBackAddr s = writeBackAddr t := by rw [writeBackAddr, h.regs, h.index, writeBackAddr]
  rw [wbStep, wbStep, haddr]
  refine h.after_memWrite h.after_takeBusFault fun m m' => SameControl.after_counterWritten ?_
  exact ⟨h.regs, h.platform, h.turns, h.draws, h.phase, h.rem, h.cur, h.lanes, h.lane, h.index⟩

theorem SameControl.after_coreStep : SameOutcome (coreStep s) (coreStep t) := by
  have hp := h.phase
  cases hs : s.seq.PHASE with
  | idle => rw [coreStep_idle hs, coreStep_idle (hp ▸ hs)]; exact h
  | load => rw [coreStep_load hs, coreStep_load (hp ▸ hs)]; exact h.after_loadStep
  | gen => rw [coreStep_gen hs, coreStep_gen (hp ▸ hs)]; exact h.after_generated
  | rd => rw [coreStep_rd hs, coreStep_rd (hp ▸ hs)]; exact h.after_rdStep
  | wr => rw [coreStep_wr hs, coreStep_wr (hp ▸ hs)]; exact h.after_wrStep
  | wb => rw [coreStep_wb hs, coreStep_wb (hp ▸ hs)]; exact h.after_wbStep
  | fin => rw [coreStep_fin hs, coreStep_fin (hp ▸ hs)]; exact h.after_finish

/-! ### The host's turns -/

theorem SameControl.after_hostAccess (ha : HaWord) : SameOutcome (hostAccess ha s) (hostAccess ha t) := by
  unfold hostAccess
  split
  · exact h.after_exec _
  · rfl

theorem SameControl.after_hostBusFault (m : BusMove) : SameControl (hostBusFault m s) (hostBusFault m t) := by
  cases hk : m.kind with
  | read =>
    rw [hostBusFault_read hk, hostBusFault_read hk]
    exact ⟨h.regs, h.platform, h.turns, h.draws, h.phase, h.rem, h.cur, h.lanes, h.lane, h.index⟩
  | write => rwa [hostBusFault_write hk, hostBusFault_write hk]

theorem SameControl.after_hostRegisterAccess (m : BusMove) :
    SameOutcome (hostRegisterAccess m s) (hostRegisterAccess m t) := by
  unfold hostRegisterAccess
  rw [← h.platform]
  dsimp only
  split
  · split
    · exact h.after_hostBusFault m
    · split <;> exact h.after_hostAccess _
  · rfl

theorem SameControl.after_hostMemoryAccess (m : BusMove) :
    SameOutcome (hostMemoryAccess m s) (hostMemoryAccess m t) := by
  cases hk : m.kind with
  | read =>
    rw [hostMemoryAccess_read hk, hostMemoryAccess_read hk]
    exact h.after_memRead (h.after_hostBusFault m) fun v v' d => h.after_access s.mem t.mem (some v) (some v') d
  | write =>
    rw [hostMemoryAccess_write hk, hostMemoryAccess_write hk]
    refine h.after_memWrite (h.after_hostBusFault m) fun m m' => ?_
    exact ⟨h.regs, h.platform, h.turns, h.draws, h.phase, h.rem, h.cur, h.lanes, h.lane, h.index⟩

theorem SameControl.after_takeTurn (u : Turn) : SameOutcome (takeTurn u s) (takeTurn u t) := by
  cases u with
  | core => exact h.after_coreStep
  | access ha => exact h.after_hostAccess ha
  | bus m =>
    simp only [takeTurn, hostBus, h.platform]
    split
    · exact h.after_hostRegisterAccess m
    · exact h.after_hostMemoryAccess m
  | reset => exact ⟨rfl, h.platform, h.turns, h.draws, rfl, rfl, rfl, rfl, rfl, rfl⟩

theorem SameControl.after_step : SameOutcome (step s) (step t) := by
  cases hs : s.turns with
  | nil => rw [step_alone hs, step_alone (h.turns ▸ hs)]; exact h.after_coreStep
  | cons u rest => rw [step_turn hs, step_turn (h.turns ▸ hs)]; exact (h.withTurns rest).after_takeTurn u

end

/-- Settles O50: the next access and the step's outcome, turn by turn. -/
theorem secretsDoNotSteer : Obligations.SecretsDoNotSteer := fun _ _ h => ⟨h.nextAccess_eq, h.after_step⟩

end Sys2Proof.Machine
end

section
/-! SUPPORT. How many steps of CORE a running command has left, and the proof that every command ends
(spec/44_dispatcher.md R123, R127). -/

namespace Sys2Proof.Machine

/-! ### CORE's step on ordinary memory -/

/-- What a step of CORE does to a running command whose access reaches ordinary memory and does not fault. -/
inductive OrdinaryCase (s : State) : State → Prop where
  | load (hp : s.seq.PHASE = .load) : OrdinaryCase s { s with seq := loaded (s.mem.word (loadAddr s)) s.seq }
  | gen (hp : s.seq.PHASE = .gen) : OrdinaryCase s { s with seq := generated s.seq }
  | rd (hp : s.seq.PHASE = .rd) : OrdinaryCase s { s with seq := inputRead (s.mem.read (readAddr s)) s.seq }
  | wr (hp : s.seq.PHASE = .wr) :
      OrdinaryCase s (outputWritten { s with mem := s.mem.write (writeAddr s) (outputByte s.seq) })
  | wb (hp : s.seq.PHASE = .wb) : OrdinaryCase s (counterWritten
      { s with mem := s.mem.writeBytes (writeBackAddr s) (leBytes Width.word.bytes (writeBackWord s.seq)) })
  | fin (hp : s.seq.PHASE = .fin) : OrdinaryCase s (finish s)

/-- The bytes of CORE's next access exist, and are ordinary memory where its windows are (R51, R54). -/
theorem MachineInv.access_ordinary {s : State} (h : MachineInv s) (ho : Ordinary s) {a : BusAccess}
    (hn : nextAccess s = some a) : a.addr + a.width.bytes ≤ Config.addressSpace ∧
      ∀ i < a.width.bytes, s.platform.isDevice (a.addr + i) = false := by
  obtain ⟨hspace, hread, hwrite⟩ := accessesStayInTheWindows s a h hn
  refine ⟨hspace, fun i hi => ho _ ?_⟩
  obtain ⟨addr, width, kind⟩ := a
  cases kind with
  | read =>
    rcases hread rfl with ⟨rfl, _, hw⟩ | ⟨rfl, hw⟩
    · exact .inl (hw i hi)
    · obtain rfl : i = 0 := Nat.lt_one_iff.mp hi
      exact .inr (.inl hw)
  | write =>
    rcases hwrite rfl with ⟨rfl, hw⟩ | ⟨rfl, haddr, _⟩
    · obtain rfl : i = 0 := Nat.lt_one_iff.mp hi
      exact .inr (.inr hw)
    · left
      simp only [Width.bytes] at hi
      simp only [Window.Contains, stateWindow, Config.stateBytes] at haddr ⊢
      omega

/-- A running command has its next step: the phase's effect, or BUSFAULT where the access faults (R159). -/
theorem MachineInv.coreStep_ordinary {s : State} (h : MachineInv s) (hp : s.seq.PHASE ≠ .idle) (ho : Ordinary s) :
    ∃ t, coreStep s = .next t ∧ (OrdinaryCase s t ∨
      ∃ a, nextAccess s = some a ∧ s.platform.busFault a = true ∧ t = takeBusFault s) := by
  have hidx := fun hl => ((h.command_of_phase hp).loading hl).1
  have fault {a : BusAccess} (hn : nextAccess s = some a) (hf : s.platform.busFault a = true) :
      ∃ t, coreStep s = .next t ∧ (OrdinaryCase s t ∨
        ∃ a, nextAccess s = some a ∧ s.platform.busFault a = true ∧ t = takeBusFault s) :=
    ⟨_, coreStep_busFault hn (h.access_ordinary ho hn).1 hidx hf, .inr ⟨a, hn, hf, rfl⟩⟩
  cases hs : s.seq.PHASE with
  | idle => exact absurd hs hp
  | load =>
    have hn := nextAccess_load hs
    obtain ⟨ha, hd⟩ := h.access_ordinary ho hn
    cases hf : s.platform.busFault ⟨loadAddr s, .word, .read⟩ with
    | true => exact fault hn hf
    | false => exact ⟨_, coreStep_load_ordinary hs (hidx hs) ha hf hd, .inl (.load hs)⟩
  | gen => exact ⟨_, coreStep_gen hs, .inl (.gen hs)⟩
  | rd =>
    have hn := nextAccess_rd hs
    obtain ⟨ha, hd⟩ := h.access_ordinary ho hn
    cases hf : s.platform.busFault ⟨readAddr s, .byte, .read⟩ with
    | true => exact fault hn hf
    | false => exact ⟨_, coreStep_rd_ordinary hs ha hf (hd 0 Nat.one_pos), .inl (.rd hs)⟩
  | wr =>
    have hn := nextAccess_wr hs
    obtain ⟨ha, hd⟩ := h.access_ordinary ho hn
    cases hf : s.platform.busFault ⟨writeAddr s, .byte, .write⟩ with
    | true => exact fault hn hf
    | false => exact ⟨_, coreStep_wr_ordinary hs ha hf (hd 0 Nat.one_pos), .inl (.wr hs)⟩
  | wb =>
    have hn := nextAccess_wb hs
    obtain ⟨ha, hd⟩ := h.access_ordinary ho hn
    cases hf : s.platform.busFault ⟨writeBackAddr s, .word, .write⟩ with
    | true => exact fault hn hf
    | false => exact ⟨_, coreStep_wb_ordinary hs ha hf hd, .inl (.wb hs)⟩
  | fin => exact ⟨_, coreStep_fin hs, .inl (.fin hs)⟩

/-! ### The steps left -/

/-- How many steps of CORE a command that meets no fault has left (R123). -/
def stepsLeft (q : Sequencer) : Nat :=
  match q.PHASE with
  | .idle => 0
  | .load => 16 - q.IDX.val + (batches q.REM.toNat + 128 * q.REM.toNat + 3)
  | .gen => batches q.REM.toNat + 128 * q.REM.toNat + 3
  | .rd => batches (q.REM.toNat - (q.N.lanes - q.LI.val)) + (128 * q.REM.toNat - q.IDX.val) + 3
  | .wr => batches (q.REM.toNat - (q.N.lanes - q.LI.val)) + (128 * q.REM.toNat - (64 + q.IDX.val)) + 3
  | .wb => 3 - q.IDX.val
  | .fin => 1

section
variable {q : Sequencer}

theorem stepsLeft_loaded (hp : q.PHASE = .load) (hi : q.IDX.val < 16) (v : Word) :
    stepsLeft (loaded v q) + 1 = stepsLeft q := by
  by_cases hlast : q.IDX = 15
  · simp only [loaded_last hlast, stepsLeft, hp, hlast]
    omega
  · have hne : q.IDX ≠ 63 := fun e => by simp [e] at hi
    simp only [loaded_more hlast, stepsLeft, hp, val_add_one_of_ne hne]
    omega

theorem stepsLeft_generated (hp : q.PHASE = .gen) (hr : q.REM ≠ 0) : stepsLeft (generated q) + 1 = stepsLeft q := by
  have hpos : q.REM.toNat ≠ 0 := fun e => hr (BitVec.eq_of_toNat_eq (by simpa using e))
  simp only [generated, stepsLeft, hp, batches_succ hpos, ← chooseTier_lanes, Fin.val_zero, Nat.sub_zero]
  omega

theorem stepsLeft_inputRead (hp : q.PHASE = .rd) (hr : 1 ≤ q.REM.toNat) (b : Byte) :
    stepsLeft (inputRead b q) + 1 = stepsLeft q := by
  have hi := q.IDX.isLt
  by_cases hlast : q.IDX = 63
  · have h63 : q.IDX.val = 63 := congrArg Fin.val hlast
    simp only [inputRead_last hlast, stepsLeft, hp, Fin.val_zero]
    omega
  · simp only [inputRead_more hlast, stepsLeft, hp, val_add_one_of_ne hlast]
    omega

/-- BLOCKDONE goes on with the RD of the next lane, with a GEN, or with WB. -/
theorem stepsLeft_blockConsumed (hp : q.PHASE = .wr) (hlast : q.IDX = 63) (hl : q.LI.val < q.N.lanes)
    (hn : q.N.lanes ≤ q.REM.toNat + q.LI.val) : stepsLeft (blockConsumed q) + 1 = stepsLeft q := by
  have hr : q.REM ≠ 0 := fun e => by simp [e] at hn; omega
  have hfour := lanes_le_four q.N
  obtain ⟨_, _, _, _, hREM, hIDX, _⟩ := blockConsumed_fields q
  have hrem := toNat_sub_one hr
  have h63 : q.IDX.val = 63 := congrArg Fin.val hlast
  rcases blockConsumed_cases q with ⟨hlt, hP, hN, hL⟩ | ⟨hend, _, hP, _, _⟩ | ⟨hend, hleft, hP, _, _⟩
  · have hLI : (q.LI + 1).val = q.LI.val + 1 := by omega
    have hrest : q.REM.toNat - 1 - (q.N.lanes - (q.LI.val + 1)) = q.REM.toNat - (q.N.lanes - q.LI.val) := by omega
    simp only [stepsLeft, hp, hP, hN, hL, hLI, hREM, hIDX, hrem, hrest, h63, Fin.val_zero]
    omega
  · have hone : q.N.lanes - q.LI.val = 1 := by omega
    simp only [stepsLeft, hp, hP, hREM, hrem, hone, h63]
    omega
  · have hone : q.N.lanes - q.LI.val = 1 := by omega
    have hrem1 : q.REM.toNat = 1 := by
      rw [hleft, BitVec.ofNat_eq_ofNat, BitVec.toNat_zero] at hrem
      omega
    simp only [stepsLeft, hp, hP, hIDX, hone, hrem1, h63, Fin.val_zero]
    decide

end

section
variable {s : State}

theorem stepsLeft_outputWritten (hp : s.seq.PHASE = .wr) (hl : s.seq.LI.val < s.seq.N.lanes)
    (hn : s.seq.N.lanes ≤ s.seq.REM.toNat + s.seq.LI.val) : stepsLeft (outputWritten s).seq + 1 = stepsLeft s.seq := by
  by_cases hlast : s.seq.IDX = 63
  · rw [outputWritten_last hlast]
    exact stepsLeft_blockConsumed hp hlast hl hn
  · have hi := s.seq.IDX.isLt
    simp only [outputWritten_more hlast, stepsLeft, hp, val_add_one_of_ne hlast]
    omega

theorem stepsLeft_counterWritten (hp : s.seq.PHASE = .wb) (hi : s.seq.IDX.val < 2) :
    stepsLeft (counterWritten s).seq + 1 = stepsLeft s.seq := by
  by_cases hlow : s.seq.IDX = 0
  · simp [counterWritten_low hlow, stepsLeft, hp, hlow]
  · have hne : s.seq.IDX.val ≠ 0 := fun e => hlow (Fin.ext e)
    simp only [counterWritten_high hlow, stepsLeft, hp]
    omega

/-- A step of CORE that meets no fault leaves one step fewer. -/
theorem OrdinaryCase.stepsLeft_succ {t : State} (h : OrdinaryCase s t) (hs : MachineInv s) :
    stepsLeft t.seq + 1 = stepsLeft s.seq := by
  have c (hp : s.seq.PHASE ≠ .idle) := hs.command_of_phase hp
  cases h with
  | load hp =>
    obtain ⟨hi, _⟩ := (c (by simp [hp])).loading hp
    exact stepsLeft_loaded hp hi _
  | gen hp =>
    obtain ⟨hr, _⟩ := (c (by simp [hp])).batchStart hp
    exact stepsLeft_generated hp hr
  | rd hp =>
    obtain ⟨hl, hn⟩ := (c (by simp [hp])).lanes (.inl hp)
    exact stepsLeft_inputRead hp (by omega) _
  | wr hp =>
    obtain ⟨hl, hn⟩ := (c (by simp [hp])).lanes (.inr hp)
    exact stepsLeft_outputWritten (s := { s with mem := _ }) hp hl hn
  | wb hp =>
    obtain ⟨hi, _⟩ := (c (by simp [hp])).writingBack hp
    exact stepsLeft_counterWritten (s := { s with mem := _ }) hp hi
  | fin hp => simp [finish, stepsLeft, hp, Sequencer.reset]

/-- A step that faults leaves FIN alone, where the access and FIN were left at least (R127). -/
theorem MachineInv.stepsLeft_takeBusFault (hs : MachineInv s) {a : BusAccess} (hn : nextAccess s = some a) :
    stepsLeft (takeBusFault s).seq < stepsLeft s.seq := by
  have hc := hs.command_of_phase fun hp => by simp [nextAccess, hp] at hn
  have hfin : stepsLeft (takeBusFault s).seq = 1 := rfl
  rw [hfin]
  rcases nextAccess_cases hn with ⟨hp, _⟩ | ⟨hp, _⟩ | ⟨hp, _⟩ | ⟨hp, _⟩ <;> simp only [stepsLeft, hp]
  · omega
  · omega
  · omega
  · obtain ⟨hi, _⟩ := hc.writingBack hp
    omega

/-- No step is left exactly when the command has ended. -/
theorem MachineInv.stepsLeft_eq_zero_iff (hs : MachineInv s) : stepsLeft s.seq = 0 ↔ s.seq.PHASE = .idle := by
  cases hp : s.seq.PHASE with
  | wb =>
    obtain ⟨hi, _⟩ := (hs.command_of_phase (by simp [hp])).writingBack hp
    simp only [stepsLeft, hp, reduceCtorEq, iff_false]
    omega
  | idle | load | gen | rd | wr | fin => simp [stepsLeft, hp]

/-- A command never has more steps left than a whole one takes. -/
theorem MachineInv.stepsLeft_le (hs : MachineInv s) : stepsLeft s.seq ≤ commandSteps (blockCount s.regs) := by
  have c (hp : s.seq.PHASE ≠ .idle) := hs.command_of_phase hp
  have few (n : Nat) (h : n ≤ s.seq.REM.toNat) (hr : s.seq.REM.toNat ≤ blockCount s.regs) :
      batches n ≤ batches (blockCount s.regs) + 2 := by
    simp only [batches]
    split <;> split <;> omega
  cases hp : s.seq.PHASE with
  | idle => simp [stepsLeft, hp]
  | load =>
    have hc := c (by simp [hp])
    obtain ⟨_, hd, _⟩ := hc.loading hp
    have hr := hc.remaining
    rw [hd, BitVec.ofNat_eq_ofNat, BitVec.toNat_zero, Nat.add_zero] at hr
    simp only [stepsLeft, hp, commandSteps, hr]
    omega
  | gen =>
    have hr := (c (by simp [hp])).remaining
    have := few _ (Nat.le_refl _) (by omega)
    simp only [stepsLeft, hp, commandSteps]
    omega
  | rd | wr =>
    have hr := (c (by simp [hp])).remaining
    have := few _ (Nat.sub_le _ (s.seq.N.lanes - s.seq.LI.val)) (by omega)
    simp only [stepsLeft, hp, commandSteps]
    omega
  | wb | fin =>
    simp only [stepsLeft, hp, commandSteps]
    omega

end

/-! ### The turn that is due -/

/-- The turn that is due: the first listed one, or CORE's (R58, R159). -/
def dueTurn (l : List Turn) : Turn := l.headD .core

/-- A step takes it, in the state that no longer lists it. -/
theorem step_eq_dueTurn (s : State) : step s = takeTurn (dueTurn s.turns) { s with turns := s.turns.tail } := by
  cases hs : s.turns with
  | nil =>
    have hsame : { s with turns := [] } = s := by rw [← hs]
    rw [step_alone hs, List.tail_nil, hsame]
    rfl
  | cons u rest => exact step_turn hs

/-- The turns of a command start with it. -/
theorem commandTurns_succ (l : List Turn) (n : Nat) : commandTurns l (n + 1) =
    dueTurn l :: commandTurns l.tail (if dueTurn l = .core then n else n + 1) := by
  cases l with
  | nil =>
    rw [commandTurns_nil, List.replicate_succ, List.tail_nil, dueTurn, List.headD_nil, if_pos rfl, commandTurns_nil]
  | cons u l =>
    by_cases hu : u = .core
    · subst hu
      exact commandTurns_core l n
    · rw [commandTurns_host hu, dueTurn, List.headD_cons, if_neg hu, List.tail_cons]

/-- The list of the turns of a command is empty exactly when CORE takes none. -/
theorem commandTurns_eq_nil_iff (l : List Turn) (n : Nat) : commandTurns l n = [] ↔ n = 0 := by
  cases n with
  | zero => simp
  | succ n => simp [commandTurns_succ]

/-! ### What a step can do to a running command -/

/-- A turn taken by a running command: CORE's, to ordinary memory or faulting, or one of the host's. -/
inductive RunningCase (u : Turn) (s t : State) : Prop where
  | ordinary (hu : u = .core) (hc : CoreCase s t) (h : OrdinaryCase s t)
  | busFault (hu : u = .core) (hc : CoreCase s t) (a : BusAccess) (hn : nextAccess s = some a)
      (hf : s.platform.busFault a = true) (ht : t = takeBusFault s)
  | host (hu : u ≠ .core) (h : HostFrame u s t)

/-- The list of turns is no part of what the premises speak of. -/
theorem MachineInv.withTurns {s : State} (h : MachineInv s) (l : List Turn) : MachineInv { s with turns := l } :=
  h.congr rfl rfl rfl

/-- A running command on ordinary memory has its next step, when the host's turn completes (R159, R161). -/
theorem MachineInv.step_running {s : State} (h : MachineInv s) (hp : s.seq.PHASE ≠ .idle) (ho : Ordinary s)
    (hc : (dueTurn s.turns).completes s.platform = true) :
    ∃ t, step s = .next t ∧ RunningCase (dueTurn s.turns) { s with turns := s.turns.tail } t := by
  rw [step_eq_dueTurn]
  by_cases hu : dueTurn s.turns = .core
  · obtain ⟨t, ht, hcase⟩ := (h.withTurns s.turns.tail).coreStep_ordinary hp ho
    refine ⟨t, by rwa [hu], ?_⟩
    rcases hcase with hcase | ⟨a, hn, hf, he⟩
    · exact .ordinary hu (coreStep_cases ht) hcase
    · exact .busFault hu (coreStep_cases ht) a hn hf he
  · obtain ⟨t, ht, hf⟩ := takeTurn_while_busy (s := { s with turns := s.turns.tail }) hu hc (h.status.busy_iff.mpr hp)
    exact ⟨t, ht, .host hu hf⟩

/-- The host leaves the configuration registers of a running command alone. -/
theorem HostFrame.sameConfig {u : Turn} {s t : State} (h : HostFrame u s t) : t.regs.SameConfig s.regs := by
  rw [h.regs]
  exact ⟨rfl, rfl, rfl, rfl, rfl, rfl⟩

/-- No step changes the configuration, the platform, or the turns after it. -/
theorem RunningCase.frame {u : Turn} {s t : State} (h : RunningCase u s t) :
    t.regs.SameConfig s.regs ∧ t.platform = s.platform ∧ t.turns = s.turns := by
  have core (hc : CoreCase s t) : t.regs.SameConfig s.regs ∧ t.platform = s.platform ∧ t.turns = s.turns := by
    obtain ⟨_, _, _, _, _, _, _, hp, hl, _⟩ := coreCase_frame hc
    exact ⟨hc.sameConfig, hp, hl⟩
  cases h with
  | ordinary _ hc => exact core hc
  | busFault _ hc => exact core hc
  | host _ h => exact ⟨h.sameConfig, h.platform, h.turns⟩

/-- A turn of CORE takes at least one of the steps left, a turn of the host takes none. -/
theorem RunningCase.stepsLeft_le {u : Turn} {s t : State} (h : RunningCase u s t) (hs : MachineInv s) {n : Nat}
    (hn : stepsLeft s.seq ≤ n + 1) : stepsLeft t.seq ≤ if u = .core then n else n + 1 := by
  cases h with
  | ordinary hu _ h =>
    have := h.stepsLeft_succ hs
    rw [if_pos hu]
    omega
  | busFault hu _ a hacc _ ht =>
    have := hs.stepsLeft_takeBusFault hacc
    rw [if_pos hu, ht]
    omega
  | host hu h => rwa [if_neg hu, h.seq]

/-- A running command goes on, or ends with DONE. -/
theorem RunningCase.goes_on_or_done {u : Turn} {s t : State} (h : RunningCase u s t) (hp : s.seq.PHASE ≠ .idle) :
    t.seq.PHASE ≠ .idle ∨ (t.seq.PHASE = .idle ∧ t.regs.STATUS.DONE = true) := by
  have core (hc : CoreCase s t) : t.seq.PHASE ≠ .idle ∨ (t.seq.PHASE = .idle ∧ t.regs.STATUS.DONE = true) := by
    rcases hc.goes_on_or_ends with ⟨hi, _⟩ | ⟨_, rfl⟩ | ⟨_, hp', _⟩
    · exact absurd hi hp
    · exact .inr ⟨rfl, rfl⟩
    · exact .inl hp'
  cases h with
  | ordinary _ hc => exact core hc
  | busFault _ hc => exact core hc
  | host _ h => exact .inl (by rwa [h.seq])

/-- The windows are the same where the configuration is. -/
theorem Regs.SameConfig.inWindows_iff {r r' : Regs} (h : r.SameConfig r') (a : Nat) :
    InWindows r a ↔ InWindows r' a := by
  simp only [InWindows, stateWindow, inputWindow, outputWindow, bufferLength, h.blockCount_eq, h.stateAddr, h.srcAddr,
    h.dstAddr]

/-- The windows are ordinary memory, whatever else changes. -/
theorem Ordinary.congr {s t : State} (h : Ordinary s) (hr : t.regs.SameConfig s.regs) (hp : t.platform = s.platform) :
    Ordinary t := fun a ha => hp ▸ h a ((hr.inWindows_iff a).mp ha)

/-! ### Every command ends -/

/-- A running command ends within the turns that hold as many steps of CORE as it has left. -/
theorem exists_run_to_idle {L : List Turn} {s : State} {n : Nat} (hL : commandTurns s.turns n = L)
    (hn : stepsLeft s.seq ≤ n) (hs : MachineInv s) (hp : s.seq.PHASE ≠ .idle) (ho : Ordinary s)
    (hc : ∀ u ∈ L, u.completes s.platform = true) :
    ∃ k t, k ≤ L.length ∧ Host.Core.run Sys2Proof.core k s = .next t ∧ t.seq.PHASE = .idle ∧
      t.regs.STATUS.DONE = true := by
  induction L generalizing s n with
  | nil =>
    obtain rfl := (commandTurns_eq_nil_iff _ _).mp hL
    exact absurd (hs.stepsLeft_eq_zero_iff.mp (Nat.le_zero.mp hn)) hp
  | cons u L ih =>
    cases n with
    | zero => simp at hL
    | succ n =>
      rw [commandTurns_succ] at hL
      obtain ⟨rfl, hrest⟩ := List.cons.inj hL
      obtain ⟨t, ht, hcase⟩ := hs.step_running hp ho (hc _ List.mem_cons_self)
      obtain ⟨hr, hplat, hturns⟩ := hcase.frame
      rcases hcase.goes_on_or_done hp with hp' | hend
      · obtain ⟨k, t', hk, hrun, hend⟩ := ih (s := t) (by rw [hturns]; exact hrest)
          (hcase.stepsLeft_le (hs.withTurns _) hn) (everyStepKeepsTheInvariant s t hs ht) hp' (ho.congr hr hplat)
          fun u hu => by rw [hplat]; exact hc u (List.mem_cons_of_mem _ hu)
        exact ⟨k + 1, t', Nat.succ_le_succ hk, by rw [run_next k ht, hrun], hend⟩
      · exact ⟨1, t, by simp, by rw [run_next 0 ht]; rfl, hend⟩

/-- Settles O60: a running command never has more steps left than a whole one takes. -/
theorem everyCommandEnds : Obligations.EveryCommandEnds := by
  unfold Obligations.EveryCommandEnds
  exact fun s hs hb ho hc => exists_run_to_idle rfl hs.stepsLeft_le hs (hs.status.busy_iff.mp hb) ho hc

end Sys2Proof.Machine
end

section
/-! SUPPORT. Whole commands under the launch premises of R162: the step count and the result (spec/44_dispatcher.md R122,
R123). -/

namespace Sys2Proof.Machine

/-! ### A running command that meets no fault -/

section
variable {r r' : Regs} (h : r.SameConfig r')
include h

theorem Regs.SameConfig.bufferLength_eq : bufferLength r = bufferLength r' := by
  rw [bufferLength, h.blockCount_eq, bufferLength]

theorem Regs.SameConfig.stateWindow_eq : stateWindow r = stateWindow r' := by rw [stateWindow, h.stateAddr, stateWindow]

theorem Regs.SameConfig.outputWindow_eq : outputWindow r = outputWindow r' := by
  rw [outputWindow, h.dstAddr, h.bufferLength_eq, outputWindow]

theorem Regs.SameConfig.counterWindow_eq : counterWindow r = counterWindow r' := by
  rw [counterWindow, h.stateAddr, counterWindow]

end

/-- The premise on faults, whatever else changes. -/
theorem FaultFree.congr {s t : State} (h : FaultFree s) (hr : t.regs.SameConfig s.regs) (hp : t.platform = s.platform) :
    FaultFree t := by
  constructor <;> rw [hp]
  · rw [hr.stateAddr]; exact h.load
  · rw [hr.srcAddr, hr.bufferLength_eq]; exact h.input
  · rw [hr.dstAddr, hr.bufferLength_eq]; exact h.output
  · rw [hr.stateAddr]; exact h.counterLow
  · rw [hr.stateAddr]; exact h.counterHigh

/-- The premise covers every access of the command (R53). -/
theorem FaultFree.access {s : State} (hf : FaultFree s) (hs : MachineInv s) {a : BusAccess}
    (hn : nextAccess s = some a) : s.platform.busFault a = false := by
  have hc := hs.command_of_phase fun hp => by simp [nextAccess, hp] at hn
  rcases nextAccess_cases hn with ⟨hp, rfl⟩ | ⟨hp, rfl⟩ | ⟨hp, rfl⟩ | ⟨hp, rfl⟩
  · obtain ⟨hi, _⟩ := hc.loading hp
    exact hf.load _ hi
  · rw [readAddr, Nat.add_assoc]
    exact hf.input _ (hc.cursor_add_index_lt (.inl hp))
  · rw [writeAddr, Nat.add_assoc]
    exact hf.output _ (hc.cursor_add_index_lt (.inr hp))
  · rcases writeBackAddr_cases s with he | he <;> rw [he]
    · exact hf.counterLow
    · exact hf.counterHigh

/-- Without faults CORE's step is the phase's effect. -/
theorem RunningCase.of_faultFree {u : Turn} {s t : State} (h : RunningCase u s t) (hs : MachineInv s)
    (hf : FaultFree s) : (u = .core ∧ CoreCase s t ∧ OrdinaryCase s t) ∨ (u ≠ .core ∧ HostFrame u s t) := by
  cases h with
  | ordinary hu hc h => exact .inl ⟨hu, hc, h⟩
  | busFault _ _ a hn hb => simp [hf.access hs hn] at hb
  | host hu h => exact .inr ⟨hu, h⟩

/-! ### Control: what does not depend on the data -/

/-- STATUS of a command that has met no fault: BUSY until it has ended, then DONE (R119, R125). -/
def cleanStatus (p : Phase) (ign : Bool) : Status := ⟨p != .idle, p == .idle, false, ign, .none⟩

theorem cleanStatus_running {p : Phase} (h : p ≠ .idle) (ign : Bool) :
    cleanStatus p ign = ⟨true, false, false, ign, .none⟩ := by
  simp [cleanStatus, h]

theorem cleanStatus_idle (ign : Bool) : cleanStatus .idle ign = ⟨false, true, false, ign, .none⟩ := rfl

/-- What a turn leaves of a running command that has met no fault, whatever its data. -/
structure TurnFrame (u : Turn) (s t : State) : Prop where
  platform : t.platform = s.platform
  turns : t.turns = s.turns
  config : t.regs.SameConfig s.regs
  ctrl : t.regs.CTRL = ctrlAfter s.platform s.regs.CTRL u
  status : ∀ g, s.regs.STATUS = cleanStatus s.seq.PHASE g →
    t.regs.STATUS = cleanStatus t.seq.PHASE (ignAfter s.platform g u)
  /-- CORE reads no device and answers no read of the host. -/
  alone : u = .core → t.rdata = s.rdata ∧ t.draws = s.draws
  /-- R54. -/
  mem : ∀ a, ¬ (outputWindow s.regs).Contains a → ¬ (counterWindow s.regs).Contains a → u.stores s.platform a = false →
    t.mem.read a = s.mem.read a

/-- CORE changes STATUS at FIN alone. -/
theorem OrdinaryCase.status_eq {s t : State} (h : OrdinaryCase s t) (hp : t.seq.PHASE ≠ .idle) :
    t.regs.STATUS = s.regs.STATUS := by
  cases h with
  | fin => exact absurd rfl hp
  | load | gen | rd | wr | wb => simp

/-- A turn of CORE. -/
theorem TurnFrame.of_core {s t : State} (hs : MachineInv s) (hc : CoreCase s t) (ho : OrdinaryCase s t) :
    TurnFrame .core s t := by
  obtain ⟨hctrl, _, _, _, _, _, _, hp, hl, hd⟩ := coreCase_frame hc
  refine ⟨hp, hl, hc.sameConfig, by rw [ctrlAfter_none rfl, hctrl], fun g hg => ?_, fun _ => ⟨hd, ?_⟩,
    fun a hout hcnt _ => hs.core_read_outside hc hout hcnt⟩
  · rw [ignAfter_none rfl]
    rcases hc.goes_on_or_ends with ⟨_, rfl⟩ | ⟨hfin, rfl⟩ | ⟨hi, hi', _⟩
    · exact hg
    · rw [finish_STATUS, hg, hfin]
      rfl
    · rw [ho.status_eq hi', hg, cleanStatus_running hi, cleanStatus_running hi']
  · cases ho <;> simp

/-- A turn of the host. -/
theorem TurnFrame.of_host {u : Turn} {s t : State} (hu : u ≠ .core) (hp : s.seq.PHASE ≠ .idle) (h : HostFrame u s t) :
    TurnFrame u s t where
  platform := h.platform
  turns := h.turns
  config := h.sameConfig
  ctrl := by rw [h.regs]
  status g hg := by
    rw [cleanStatus_running hp] at hg
    rw [h.status (by rw [hg]) (by rw [hg]) (by rw [hg]), hg, h.seq, cleanStatus_running hp]
  alone e := absurd e hu
  mem a _ _ := h.mem a

/-- The state `t` of a command launched from `s` with the turns `rest` listed, when the turns `taken` have been taken after
the START. -/
structure CommandRun (s : State) (rest taken : List Turn) (t : State) : Prop where
  inv : MachineInv t
  platform : t.platform = s.platform
  turns : t.turns = rest.drop taken.length
  config : t.regs.SameConfig s.regs
  ctrl : t.regs.CTRL = taken.foldl (ctrlAfter s.platform) s.regs.CTRL
  status : t.regs.STATUS = cleanStatus t.seq.PHASE (taken.foldl (ignAfter s.platform) s.regs.STATUS.IGN)
  alone : (∀ u ∈ taken, u = .core) → t.rdata = s.rdata ∧ t.draws = s.draws
  frame : ∀ a, ¬ (outputWindow s.regs).Contains a → ¬ (counterWindow s.regs).Contains a →
    (∀ u ∈ taken, u.stores s.platform a = false) → t.mem.read a = s.mem.read a

theorem Regs.SameConfig.trans {r₁ r₂ r₃ : Regs} (h : r₁.SameConfig r₂) (h' : r₂.SameConfig r₃) : r₁.SameConfig r₃ :=
  ⟨h.nblk.trans h'.nblk, h.stateAddr.trans h'.stateAddr, h.srcAddr.trans h'.srcAddr, h.dstAddr.trans h'.dstAddr,
    h.srcLen.trans h'.srcLen, h.dstLen.trans h'.dstLen⟩

/-- One more turn. -/
theorem CommandRun.snoc {s t t' : State} {rest taken : List Turn} {u : Turn} (h : CommandRun s rest taken t)
    (ht : step t = .next t') (hf : TurnFrame u { t with turns := t.turns.tail } t') :
    CommandRun s rest (taken ++ [u]) t' where
  inv := everyStepKeepsTheInvariant t t' h.inv ht
  platform := hf.platform.trans h.platform
  turns := by rw [hf.turns, h.turns, List.tail_drop, List.length_append, List.length_singleton]
  config := hf.config.trans h.config
  ctrl := by rw [hf.ctrl, h.ctrl, h.platform, List.foldl_append, List.foldl_cons, List.foldl_nil]
  status := by rw [hf.status _ h.status, h.platform, List.foldl_append, List.foldl_cons, List.foldl_nil]
  alone hall := by
    obtain ⟨h1, h2⟩ := h.alone fun v hv => hall v (List.mem_append_left _ hv)
    obtain ⟨h1', h2'⟩ := hf.alone (hall u (by simp))
    exact ⟨h1'.trans h1, h2'.trans h2⟩
  frame a hout hcnt hst := by
    have hu := hst u (by simp)
    rw [← h.platform] at hu
    rw [hf.mem a (by rwa [h.config.outputWindow_eq]) (by rwa [h.config.counterWindow_eq]) hu]
    exact h.frame a hout hcnt fun v hv => hst v (List.mem_append_left _ hv)

/-! ### Data: the snapshot, the block in flight, the output and the counter -/

/-- Byte `x` of the output: the input byte at the launch XOR the keystream of its block (R89, R122). -/
def cipherByte (s : State) (x : Nat) : Byte :=
  s.mem.read (s.regs.SRC_ADDR.toNat + x) ^^^ (keystream (snapshot s) (x / 64))[x % 64]'(Nat.mod_lt x (by decide))

/-- The counter after the command (R97). -/
def finalCounter (s : State) : Counter := counterOf (snapshot s) + BitVec.ofNat 64 (blockCount s.regs)

/-- How many bytes of the block in flight have been read, and written. -/
def inputDone (q : Sequencer) : Nat := if q.PHASE = .rd then q.IDX.val else if q.PHASE = .wr then 64 else 0

def outputDone (q : Sequencer) : Nat := if q.PHASE = .wr then q.IDX.val else 0

section
variable {q : Sequencer}

theorem inputDone_rd (h : q.PHASE = .rd) : inputDone q = q.IDX.val := if_pos h

theorem inputDone_wr (h : q.PHASE = .wr) : inputDone q = 64 := by simp [inputDone, h]

theorem inputDone_other (h : q.PHASE ≠ .rd) (h' : q.PHASE ≠ .wr) : inputDone q = 0 := by simp [inputDone, h, h']

theorem outputDone_wr (h : q.PHASE = .wr) : outputDone q = q.IDX.val := if_pos h

theorem outputDone_other (h : q.PHASE ≠ .wr) : outputDone q = 0 := if_neg h

end

/-- What a command launched from `s` holds of its data, when `k` blocks are done, `q` is the internal state and `m` is
memory. -/
structure CommandData (s : State) (k : Nat) (q : Sequencer) (m : Memory) : Prop where
  /-- The CipherState is as at the launch while it is read (R113). -/
  stateIntact : q.PHASE = .load → ∀ a, (stateWindow s.regs).Contains a → m.read a = s.mem.read a
  loading : q.PHASE = .load → ∀ j : Fin 16, j.val < q.IDX.val → q.S[j] = (snapshot s)[j]
  snapshotHeld : q.PHASE = .gen ∨ q.PHASE = .rd ∨ q.PHASE = .wr ∨ q.PHASE = .wb → q.S = snapshot s
  /-- Input not yet read is as at the launch (R104). -/
  inputIntact : ∀ x < bufferLength s.regs, 64 * k + inputDone q ≤ x →
    m.read (s.regs.SRC_ADDR.toNat + x) = s.mem.read (s.regs.SRC_ADDR.toNat + x)
  inputBlock : ∀ i : Fin 64, i.val < inputDone q → q.IN[i] = s.mem.read (s.regs.SRC_ADDR.toNat + (64 * k + i.val))
  output : ∀ x < 64 * k + outputDone q, m.read (s.regs.DST_ADDR.toNat + x) = cipherByte s x
  lowWord : q.PHASE = .wb → q.IDX ≠ 0 → m.word (s.regs.STATE_ADDR.toNat + 48) = counterLow (finalCounter s)
  complete : q.PHASE = .fin ∨ q.PHASE = .idle → k = blockCount s.regs ∧
    m.word (s.regs.STATE_ADDR.toNat + 48) = counterLow (finalCounter s) ∧
    m.word (s.regs.STATE_ADDR.toNat + 52) = counterHigh (finalCounter s)

section
variable {s : State} {k : Nat} {q : Sequencer} {m : Memory}

/-! #### What each phase asks for -/

theorem CommandData.of_load (hp : q.PHASE = .load)
    (hstate : ∀ a, (stateWindow s.regs).Contains a → m.read a = s.mem.read a)
    (hS : ∀ j : Fin 16, j.val < q.IDX.val → q.S[j] = (snapshot s)[j])
    (hin : ∀ x < bufferLength s.regs, 64 * k ≤ x →
      m.read (s.regs.SRC_ADDR.toNat + x) = s.mem.read (s.regs.SRC_ADDR.toNat + x))
    (hout : ∀ x < 64 * k, m.read (s.regs.DST_ADDR.toNat + x) = cipherByte s x) : CommandData s k q m := by
  have h0 : inputDone q = 0 := inputDone_other (by simp [hp]) (by simp [hp])
  have h1 : outputDone q = 0 := outputDone_other (by simp [hp])
  exact ⟨fun _ => hstate, fun _ => hS, by simp [hp], by rwa [h0], by simp [h0], by rwa [h1], by simp [hp], by simp [hp]⟩

theorem CommandData.of_gen (hp : q.PHASE = .gen) (hS : q.S = snapshot s)
    (hin : ∀ x < bufferLength s.regs, 64 * k ≤ x →
      m.read (s.regs.SRC_ADDR.toNat + x) = s.mem.read (s.regs.SRC_ADDR.toNat + x))
    (hout : ∀ x < 64 * k, m.read (s.regs.DST_ADDR.toNat + x) = cipherByte s x) : CommandData s k q m := by
  have h0 : inputDone q = 0 := inputDone_other (by simp [hp]) (by simp [hp])
  have h1 : outputDone q = 0 := outputDone_other (by simp [hp])
  exact ⟨by simp [hp], by simp [hp], fun _ => hS, by rwa [h0], by simp [h0], by rwa [h1], by simp [hp], by simp [hp]⟩

theorem CommandData.of_rd (hp : q.PHASE = .rd) (hS : q.S = snapshot s)
    (hin : ∀ x < bufferLength s.regs, 64 * k + q.IDX.val ≤ x →
      m.read (s.regs.SRC_ADDR.toNat + x) = s.mem.read (s.regs.SRC_ADDR.toNat + x))
    (hblock : ∀ i : Fin 64, i.val < q.IDX.val → q.IN[i] = s.mem.read (s.regs.SRC_ADDR.toNat + (64 * k + i.val)))
    (hout : ∀ x < 64 * k, m.read (s.regs.DST_ADDR.toNat + x) = cipherByte s x) : CommandData s k q m := by
  have h0 := inputDone_rd hp
  have h1 : outputDone q = 0 := outputDone_other (by simp [hp])
  exact ⟨by simp [hp], by simp [hp], fun _ => hS, by rwa [h0], by rwa [h0], by rwa [h1], by simp [hp], by simp [hp]⟩

theorem CommandData.of_wr (hp : q.PHASE = .wr) (hS : q.S = snapshot s)
    (hin : ∀ x < bufferLength s.regs, 64 * k + 64 ≤ x →
      m.read (s.regs.SRC_ADDR.toNat + x) = s.mem.read (s.regs.SRC_ADDR.toNat + x))
    (hblock : ∀ i : Fin 64, q.IN[i] = s.mem.read (s.regs.SRC_ADDR.toNat + (64 * k + i.val)))
    (hout : ∀ x < 64 * k + q.IDX.val, m.read (s.regs.DST_ADDR.toNat + x) = cipherByte s x) : CommandData s k q m := by
  have h0 := inputDone_wr hp
  have h1 := outputDone_wr hp
  exact ⟨by simp [hp], by simp [hp], fun _ => hS, by rwa [h0], fun i _ => hblock i, by rwa [h1], by simp [hp],
    by simp [hp]⟩

theorem CommandData.of_wb (hp : q.PHASE = .wb) (hS : q.S = snapshot s)
    (hin : ∀ x < bufferLength s.regs, 64 * k ≤ x →
      m.read (s.regs.SRC_ADDR.toNat + x) = s.mem.read (s.regs.SRC_ADDR.toNat + x))
    (hout : ∀ x < 64 * k, m.read (s.regs.DST_ADDR.toNat + x) = cipherByte s x)
    (hlow : q.IDX ≠ 0 → m.word (s.regs.STATE_ADDR.toNat + 48) = counterLow (finalCounter s)) : CommandData s k q m := by
  have h0 : inputDone q = 0 := inputDone_other (by simp [hp]) (by simp [hp])
  have h1 : outputDone q = 0 := outputDone_other (by simp [hp])
  exact ⟨by simp [hp], by simp [hp], fun _ => hS, by rwa [h0], by simp [h0], by rwa [h1], fun _ => hlow, by simp [hp]⟩

theorem CommandData.of_complete (hp : q.PHASE = .fin ∨ q.PHASE = .idle) (hk : k = blockCount s.regs)
    (hout : ∀ x < 64 * k, m.read (s.regs.DST_ADDR.toNat + x) = cipherByte s x)
    (hlow : m.word (s.regs.STATE_ADDR.toNat + 48) = counterLow (finalCounter s))
    (hhigh : m.word (s.regs.STATE_ADDR.toNat + 52) = counterHigh (finalCounter s)) : CommandData s k q m := by
  have hne {p : Phase} (h1 : .fin ≠ p) (h2 : .idle ≠ p) : q.PHASE ≠ p := by
    rcases hp with hp | hp <;> rwa [hp]
  have hload : q.PHASE ≠ .load := hne (by decide) (by decide)
  have hgen : q.PHASE ≠ .gen := hne (by decide) (by decide)
  have hrd : q.PHASE ≠ .rd := hne (by decide) (by decide)
  have hwr : q.PHASE ≠ .wr := hne (by decide) (by decide)
  have hwb : q.PHASE ≠ .wb := hne (by decide) (by decide)
  have hL : bufferLength s.regs = 64 * k := by rw [bufferLength_eq, hk]; rfl
  exact ⟨by simp [hload], by simp [hload], by simp [hgen, hrd, hwr, hwb], fun x hx hge => by omega,
    by simp [inputDone_other hrd hwr], by rwa [outputDone_other hwr], by simp [hwb], fun _ => ⟨hk, hlow, hhigh⟩⟩

/-! #### CORE's steps -/

/-- Word `j` of the snapshot as memory holds it (R47). -/
theorem getElem_snapshot (s : State) {j : Nat} (hj : j < 16) :
    (snapshot s)[j] = s.mem.word (s.regs.STATE_ADDR.toNat + 4 * j) := by
  simp [snapshot]

section
variable (h : CommandData s k q m)
include h

/-- The word LOAD reads is the snapshot's (R113). -/
theorem CommandData.load_word (hp : q.PHASE = .load) (hi : q.IDX.val < 16) :
    m.word (s.regs.STATE_ADDR.toNat + 4 * q.IDX.val) = (snapshot s)[q.IDX.val] := by
  rw [getElem_snapshot s hi]
  refine word_congr fun i hi' => h.stateIntact hp _ ?_
  simp only [Window.Contains, stateWindow, Config.stateBytes]
  omega

/-- The byte RD reads is the launch's (R115). -/
theorem CommandData.read_byte (hp : q.PHASE = .rd) (hlt : 64 * k + q.IDX.val < bufferLength s.regs) :
    m.read (s.regs.SRC_ADDR.toNat + (64 * k + q.IDX.val)) =
      s.mem.read (s.regs.SRC_ADDR.toNat + (64 * k + q.IDX.val)) :=
  h.inputIntact _ hlt (by rw [inputDone_rd hp])

/-- Every block done is written. -/
theorem CommandData.output_done {x : Nat} (hx : x < 64 * k) : m.read (s.regs.DST_ADDR.toNat + x) = cipherByte s x :=
  h.output x (by omega)

theorem CommandData.after_load (hp : q.PHASE = .load) (hi : q.IDX.val < 16) :
    CommandData s k (loaded (snapshot s)[q.IDX.val] q) m := by
  have hin := h.inputIntact
  rw [inputDone_other (by simp [hp]) (by simp [hp])] at hin
  have hset (j : Fin 16) (hj : j.val ≤ q.IDX.val) :
      (q.S.setIfInBounds q.IDX.val (snapshot s)[q.IDX.val])[j] = (snapshot s)[j] := by
    rw [Fin.getElem_fin, Fin.getElem_fin, Vector.getElem_setIfInBounds]
    split
    · next he => simp only [he]
    · next hne => exact h.loading hp j (by omega)
  by_cases hlast : q.IDX = 15
  · have h15 : q.IDX.val = 15 := congrArg Fin.val hlast
    rw [loaded_last hlast]
    refine .of_gen rfl (Vector.ext fun j hj => ?_) hin fun _ => h.output_done
    have := hset ⟨j, hj⟩ (by rw [h15]; exact Nat.lt_succ_iff.mp hj)
    simpa only [h15, Fin.getElem_fin] using this
  · have hnext := val_add_one_of_ne (i := q.IDX) fun e => by simp [e] at hi
    rw [loaded_more hlast]
    refine .of_load hp (h.stateIntact hp) (fun j hj => hset j ?_) hin fun _ => h.output_done
    rw [hnext] at hj
    omega

theorem CommandData.after_gen (hp : q.PHASE = .gen) : CommandData s k (generated q) m := by
  have hin := h.inputIntact
  rw [inputDone_other (by simp [hp]) (by simp [hp])] at hin
  exact .of_rd rfl (h.snapshotHeld (.inl hp)) hin (fun i hi => absurd hi (Nat.not_lt_zero _)) fun _ => h.output_done

theorem CommandData.after_rd (hp : q.PHASE = .rd) :
    CommandData s k (inputRead (s.mem.read (s.regs.SRC_ADDR.toNat + (64 * k + q.IDX.val))) q) m := by
  have hin := h.inputIntact
  have hblock := h.inputBlock
  rw [inputDone_rd hp] at hin hblock
  have hS := h.snapshotHeld (.inr (.inl hp))
  have hset (i : Fin 64) (hi : i.val ≤ q.IDX.val) :
      (q.IN.set q.IDX.val (s.mem.read (s.regs.SRC_ADDR.toNat + (64 * k + q.IDX.val))))[i] =
        s.mem.read (s.regs.SRC_ADDR.toNat + (64 * k + i.val)) := by
    rw [Fin.getElem_fin, Vector.getElem_set]
    split
    · next he => rw [he]
    · next hne => exact hblock i (by omega)
  by_cases hlast : q.IDX = 63
  · have h63 : q.IDX.val = 63 := congrArg Fin.val hlast
    rw [inputRead_last hlast]
    exact .of_wr rfl hS (fun x hx hge => hin x hx (by omega)) (fun i => hset i (by omega)) fun _ => h.output_done
  · have hnext := val_add_one_of_ne hlast
    rw [inputRead_more hlast]
    refine .of_rd hp hS (fun x hx hge => hin x hx ?_) (fun i hi => hset i ?_) fun _ => h.output_done
    · rw [hnext] at hge
      omega
    · rw [hnext] at hi
      omega

/-- A byte of input not yet read stays when byte IDX of the block is written: the output does not start inside the input
(R104). -/
theorem CommandData.input_after_write (hw : NoForwardOverlap s.regs) (hp : q.PHASE = .wr) {x : Nat}
    (hx : x < bufferLength s.regs) (hge : 64 * k + 64 ≤ x) (b : Byte) :
    (m.write (s.regs.DST_ADDR.toNat + (64 * k + q.IDX.val)) b).read (s.regs.SRC_ADDR.toNat + x) =
      s.mem.read (s.regs.SRC_ADDR.toNat + x) := by
  have hne : s.regs.DST_ADDR.toNat + (64 * k + q.IDX.val) ≠ s.regs.SRC_ADDR.toNat + x := by
    rcases hw with hw | hw <;> omega
  rw [Memory.read_write_other _ _ hne]
  exact h.inputIntact x hx (by rwa [inputDone_wr hp])

/-- The output with byte IDX of the block (R116). -/
theorem CommandData.output_after_write (hp : q.PHASE = .wr) {x : Nat} (hx : x < 64 * k + (q.IDX.val + 1)) :
    (m.write (s.regs.DST_ADDR.toNat + (64 * k + q.IDX.val)) (cipherByte s (64 * k + q.IDX.val))).read
      (s.regs.DST_ADDR.toNat + x) = cipherByte s x := by
  rw [Memory.read_write]
  split
  · next he => rw [Nat.add_left_cancel he]
  · next hne => exact h.output x (by rw [outputDone_wr hp]; omega)

theorem CommandData.after_wr (hw : NoForwardOverlap s.regs) (hp : q.PHASE = .wr) (hi : q.IDX ≠ 63) :
    CommandData s k { q with IDX := q.IDX + 1 }
      (m.write (s.regs.DST_ADDR.toNat + (64 * k + q.IDX.val)) (cipherByte s (64 * k + q.IDX.val))) := by
  have hblock := h.inputBlock
  rw [inputDone_wr hp] at hblock
  refine .of_wr hp (h.snapshotHeld (.inr (.inr (.inl hp)))) (fun x hx hge => h.input_after_write hw hp hx hge _)
    (fun i => hblock i i.isLt) fun x hx => h.output_after_write hp ?_
  rwa [val_add_one_of_ne hi] at hx

/-- BLOCKDONE (R117). -/
theorem CommandData.after_block (hw : NoForwardOverlap s.regs) (hp : q.PHASE = .wr) (hi : q.IDX = 63) :
    CommandData s (k + 1) (blockConsumed q)
      (m.write (s.regs.DST_ADDR.toNat + (64 * k + q.IDX.val)) (cipherByte s (64 * k + q.IDX.val))) := by
  have h63 : q.IDX.val = 63 := congrArg Fin.val hi
  obtain ⟨hS', _, _, _, _, hIDX, _⟩ := blockConsumed_fields q
  have hS := hS'.trans (h.snapshotHeld (.inr (.inr (.inl hp))))
  have h0 : (blockConsumed q).IDX.val = 0 := congrArg Fin.val hIDX
  have hin (x : Nat) (hx : x < bufferLength s.regs) (hge : 64 * (k + 1) ≤ x) :=
    h.input_after_write hw hp hx (by omega) (cipherByte s (64 * k + q.IDX.val))
  have hout (x : Nat) (hx : x < 64 * (k + 1)) := h.output_after_write hp (x := x) (by omega)
  rcases blockConsumed_cases q with ⟨_, hP, _⟩ | ⟨_, _, hP, _⟩ | ⟨_, _, hP, _⟩
  · exact .of_rd hP hS (by rwa [h0]) (fun i hi => by omega) hout
  · exact .of_gen hP hS hin hout
  · exact .of_wb hP hS hin hout fun hne => absurd hIDX hne

/-- The output stays when a counter word is stored: WO shares no byte with WS (R112). -/
theorem CommandData.output_after_counter (hc : check s.regs = .none) (hk : k = blockCount s.regs) {d : Nat}
    (hd : 48 ≤ d ∧ d + 4 ≤ 64) (v : Word) {x : Nat} (hx : x < 64 * k) :
    (m.writeBytes (s.regs.STATE_ADDR.toNat + d) (leBytes Width.word.bytes v)).read (s.regs.DST_ADDR.toNat + x) =
      cipherByte s x := by
  have hL : bufferLength s.regs = 64 * k := by rw [bufferLength_eq, hk]; rfl
  have hout : (outputWindow s.regs).Contains (s.regs.DST_ADDR.toNat + x) := by
    simp only [Window.Contains, outputWindow]
    omega
  have hne : ¬ (stateWindow s.regs).Contains (s.regs.DST_ADDR.toNat + x) :=
    fun hs => not_outputWindow_of_stateWindow hc hs hout
  simp only [Window.Contains, stateWindow, Config.stateBytes] at hne
  rw [Memory.read_writeBytes_outside _ _ _ _ (by simp only [length_leBytes, Width.bytes]; omega)]
  exact h.output_done hx

theorem CommandData.after_low (hc : check s.regs = .none) (hp : q.PHASE = .wb) (hk : k = blockCount s.regs) :
    CommandData s k { q with IDX := 1 } (m.writeBytes (s.regs.STATE_ADDR.toNat + 48)
      (leBytes Width.word.bytes (counterLow (finalCounter s)))) := by
  have hL : bufferLength s.regs = 64 * k := by rw [bufferLength_eq, hk]; rfl
  exact .of_wb hp (h.snapshotHeld (.inr (.inr (.inr hp)))) (fun x hx hge => by omega)
    (fun x hx => h.output_after_counter hc hk (by decide) _ hx) fun _ => word_writeBytes ..

theorem CommandData.after_high (hc : check s.regs = .none) (hp : q.PHASE = .wb) (hi : q.IDX ≠ 0)
    (hk : k = blockCount s.regs) :
    CommandData s k { q with IDX := 0, PHASE := .fin } (m.writeBytes (s.regs.STATE_ADDR.toNat + 52)
      (leBytes Width.word.bytes (counterHigh (finalCounter s)))) := by
  refine .of_complete (.inl rfl) hk (fun x hx => h.output_after_counter hc hk (by decide) _ hx) ?_ (word_writeBytes ..)
  rw [← h.lowWord hp hi]
  exact word_congr fun i hi' => Memory.read_writeBytes_outside _ _ _ _ (by omega)

theorem CommandData.after_fin (hp : q.PHASE = .fin) : CommandData s k Sequencer.reset m := by
  obtain ⟨hk, hlow, hhigh⟩ := h.complete (.inl hp)
  exact .of_complete (.inr rfl) hk (fun _ => h.output_done) hlow hhigh

end

end

/-- What has been written lies in the output buffer. -/
theorem CommandInv.output_le {t : State} (h : CommandInv t) :
    64 * t.regs.BLKDONE.toNat + outputDone t.seq ≤ bufferLength t.regs := by
  by_cases hp : t.seq.PHASE = .wr
  · have hlt := h.cursor_add_index_lt (.inr hp)
    rw [h.cursor] at hlt
    rw [outputDone_wr hp]
    exact hlt.le
  · have hr := h.remaining
    simp only [blockCount] at hr
    rw [outputDone_other hp, bufferLength_eq]
    omega

/-- The data of the state `t` of a command launched from `s`. -/
def HoldsData (s t : State) : Prop := CommandData s t.regs.BLKDONE.toNat t.seq t.mem

section
variable {s t t' : State} (h : HoldsData s t) (hr : t.regs.SameConfig s.regs) (hs : MachineInv t)
include h hs

/-- The byte WR writes is its byte of the output (R89, R116). -/
theorem HoldsData.outputByte_eq (hp : t.seq.PHASE = .wr) :
    outputByte t.seq = cipherByte s (64 * t.regs.BLKDONE.toNat + t.seq.IDX.val) := by
  obtain ⟨hl, _⟩ := (hs.command_of_phase (by simp [hp])).lanes (.inr hp)
  have hks := hs.keystream (.inr hp) t.seq.LI
  rw [if_pos ⟨le_refl _, hl⟩, Nat.sub_self, Nat.add_zero, h.snapshotHeld (.inr (.inr (.inl hp)))] at hks
  have hin := h.inputBlock t.seq.IDX (by rw [inputDone_wr hp]; exact t.seq.IDX.isLt)
  have hi := t.seq.IDX.isLt
  have hdiv : (64 * t.regs.BLKDONE.toNat + t.seq.IDX.val) / 64 = t.regs.BLKDONE.toNat := by omega
  have hmod : (64 * t.regs.BLKDONE.toNat + t.seq.IDX.val) % 64 = t.seq.IDX.val := by omega
  rw [Fin.getElem_fin] at hks hin
  simp only [outputByte, cipherByte, xorByte, hks, hin, hdiv, hmod]

include hr

/-- In WB every block is done and CTR is the final counter (R97, R118). -/
theorem HoldsData.counter_eq (hp : t.seq.PHASE = .wb) :
    t.seq.CTR = finalCounter s ∧ t.regs.BLKDONE.toNat = blockCount s.regs := by
  have hc := hs.command_of_phase (by simp [hp])
  obtain ⟨_, hrem⟩ := hc.writingBack hp
  have hdone := hc.remaining
  rw [hrem, BitVec.ofNat_eq_ofNat, BitVec.toNat_zero, Nat.zero_add, hr.blockCount_eq] at hdone
  refine ⟨?_, hdone⟩
  rw [hc.counter (.inr (.inr (.inr hp))), h.snapshotHeld (.inr (.inr (.inr hp))), hdone]
  rfl

/-- CORE's turns on ordinary memory (R122). -/
theorem HoldsData.after_core (hw : NoForwardOverlap s.regs) (hc : OrdinaryCase t t') : HoldsData s t' := by
  have command (hp : t.seq.PHASE ≠ .idle) := hs.command_of_phase hp
  have offset (hp : t.seq.PHASE = .rd ∨ t.seq.PHASE = .wr) :
      t.seq.CUR.toNat = 64 * t.regs.BLKDONE.toNat ∧ 64 * t.regs.BLKDONE.toNat + t.seq.IDX.val < bufferLength s.regs := by
    have hcmd := command (by rcases hp with hp | hp <;> simp [hp])
    have hlt := hcmd.cursor_add_index_lt hp
    rw [hcmd.cursor, hr.bufferLength_eq] at hlt
    exact ⟨hcmd.cursor, hlt⟩
  cases hc with
  | load hp =>
    obtain ⟨hi, _⟩ := (command (by simp [hp])).loading hp
    have hword := h.load_word hp hi
    rw [← hr.stateAddr] at hword
    have := h.after_load hp hi
    rwa [← hword] at this
  | gen hp => exact h.after_gen hp
  | rd hp =>
    obtain ⟨hcur, hlt⟩ := offset (.inl hp)
    have hbyte := h.read_byte hp hlt
    have := h.after_rd hp
    rwa [← hbyte, ← hr.srcAddr, ← hcur, ← Nat.add_assoc] at this
  | wr hp =>
    obtain ⟨hcur, hlt⟩ := offset (.inr hp)
    have haddr : writeAddr t = s.regs.DST_ADDR.toNat + (64 * t.regs.BLKDONE.toNat + t.seq.IDX.val) := by
      rw [writeAddr, hr.dstAddr, hcur, Nat.add_assoc]
    rw [haddr, h.outputByte_eq hs hp]
    by_cases hlast : t.seq.IDX = 63
    · have hpos := (command (by simp [hp])).lanes (.inr hp)
      obtain ⟨_, _, hk, _⟩ := (command (by simp [hp])).blockDone_toNat fun e => by simp [e] at hpos; omega
      rw [outputWritten_last, HoldsData, blockDone_BLKDONE, hk]
      · exact h.after_block hw hp hlast
      · exact hlast
    · rw [outputWritten_more]
      · exact h.after_wr hw hp hlast
      · exact hlast
  | wb hp =>
    obtain ⟨hctr, hk⟩ := h.counter_eq hr hs hp
    have hcheck : check s.regs = .none := hr.check_eq ▸ (command (by simp [hp])).checked
    by_cases hlow : t.seq.IDX = 0
    · rw [writeBackAddr, writeBackWord, if_pos hlow, if_pos hlow, hctr, hr.stateAddr, counterWritten_low]
      · exact h.after_low hcheck hp hk
      · exact hlow
    · rw [writeBackAddr, writeBackWord, if_neg hlow, if_neg hlow, hctr, hr.stateAddr, counterWritten_high]
      · exact h.after_high hcheck hp hlow hk
      · exact hlow
  | fin hp => exact h.after_fin hp

/-- The host's turns, which store nothing to the windows (R162 premise 4). -/
theorem HoldsData.after_host (hp : t.seq.PHASE ≠ .idle) {u : Turn} (hf : HostFrame u t t')
    (hst : ∀ a, InWindows s.regs a → u.stores t.platform a = false) : HoldsData s t' := by
  have hk : t'.regs.BLKDONE = t.regs.BLKDONE := by rw [hf.regs]
  have hm {a : Nat} (ha : InWindows s.regs a) : t'.mem.read a = t.mem.read a := hf.mem a (hst a ha)
  have hword {d : Nat} (hd : d + 4 ≤ 64) :
      t'.mem.word (s.regs.STATE_ADDR.toNat + d) = t.mem.word (s.regs.STATE_ADDR.toNat + d) :=
    word_congr fun i hi => hm (.inl (by simp only [Window.Contains, stateWindow, Config.stateBytes]; omega))
  have hle := (hs.command_of_phase hp).output_le
  rw [hr.bufferLength_eq] at hle
  rw [HoldsData, hf.seq, hk]
  refine ⟨fun hp a ha => (hm (.inl ha)).trans (h.stateIntact hp a ha), h.loading, h.snapshotHeld,
    fun x hx hge => (hm (.inr (.inl ?_))).trans (h.inputIntact x hx hge), h.inputBlock,
    fun x hx => (hm (.inr (.inr ?_))).trans (h.output x hx), ?_, ?_⟩
  · simp only [Window.Contains, inputWindow]
    omega
  · simp only [Window.Contains, outputWindow]
    omega
  · rw [hword (by decide)]
    exact h.lowWord
  · rw [hword (by decide), hword (by decide)]
    exact h.complete

end

end Sys2Proof.Machine
end

section
/-! SUPPORT. Proofs of the statements about whole commands: from the START through every turn taken (spec/44_dispatcher.md
R122, R123). -/

namespace Sys2Proof.Machine

/-! ### The induction over the turns taken -/

/-- A property of the turns taken and the state that every step of a running command keeps, where CORE's step leaves one step
fewer and the host's leaves as many, holds along the whole command. -/
theorem run_taken {P : List Turn → State → Prop} {Q : Turn → Prop}
    (keep : ∀ taken s, P taken s → stepsLeft s.seq ≠ 0 → Q (dueTurn s.turns) → ∃ t, step s = .next t ∧
      P (taken ++ [dueTurn s.turns]) t ∧ t.turns = s.turns.tail ∧
      stepsLeft s.seq = if dueTurn s.turns = .core then stepsLeft t.seq + 1 else stepsLeft t.seq)
    {n : Nat} {L taken : List Turn} {s : State} (hP : P taken s) (hL : commandTurns s.turns (stepsLeft s.seq) = L)
    (hQ : ∀ u ∈ L, Q u) (hn : n ≤ L.length) :
    ∃ t, Host.Core.run Sys2Proof.core n s = .next t ∧ P (taken ++ L.take n) t ∧
      commandTurns t.turns (stepsLeft t.seq) = L.drop n := by
  induction n generalizing L taken s with
  | zero => exact ⟨s, rfl, by simpa using hP, hL⟩
  | succ n ih =>
    have hne : stepsLeft s.seq ≠ 0 := by
      intro h0
      rw [(commandTurns_eq_nil_iff _ _).mpr h0] at hL
      simp [← hL] at hn
    obtain ⟨k, hk⟩ := Nat.exists_eq_succ_of_ne_zero hne
    rw [hk, commandTurns_succ] at hL
    subst hL
    obtain ⟨t, ht, hPt, hturns, hleft⟩ := keep taken s hP hne (hQ _ List.mem_cons_self)
    have hrest : (if dueTurn s.turns = .core then k else k + 1) = stepsLeft t.seq := by
      rw [hk] at hleft
      split at hleft
      · next hu => rw [if_pos hu, Nat.succ.inj hleft]
      · next hu => rw [if_neg hu]; exact hleft
    obtain ⟨t', hrun, hP', hdrop⟩ := ih hPt (by rw [hturns, ← hrest]) (fun u hu => hQ u (List.mem_cons_of_mem _ hu))
      (Nat.le_of_succ_le_succ hn)
    exact ⟨t', by rw [run_next n ht, hrun], by simpa using hP', by simpa using hdrop⟩

/-! ### From the START -/

section
variable {s : State} {rest : List Turn} (hl : Launch s rest)
include hl

theorem Launch.not_busy : s.regs.STATUS.BUSY = false := by
  simpa [hl.idle] using hl.inv.status.busy_iff

/-- The START launches the sequencer (R111). -/
theorem Launch.step_start : step s = .next (launch (startClear { s with turns := rest })) := by
  have hdecode : decode (encode .wrCmdStart) = .ok .wrCmdStart := by decide
  have hstart := startCommand_launches (s := { s with turns := rest }) hl.checked hl.blocks
  rw [step_turn hl.start, takeTurn, hostAccess_ok _ hdecode, exec_start_idle (s := { s with turns := rest }) hl.not_busy,
    hstart]

theorem Launch.commandRun : CommandRun s rest [] (launch (startClear { s with turns := rest })) where
  inv := everyStepKeepsTheInvariant s _ hl.inv hl.step_start
  platform := rfl
  turns := rfl
  config := ⟨rfl, rfl, rfl, rfl, rfl, rfl⟩
  ctrl := rfl
  status := rfl
  alone _ := ⟨rfl, rfl⟩
  frame _ _ _ _ := rfl

omit hl in
theorem holdsData_launch (s : State) (rest : List Turn) : HoldsData s (launch (startClear { s with turns := rest })) :=
  .of_load rfl (fun _ _ => rfl) (fun _ hj => absurd hj (Nat.not_lt_zero _)) (fun _ _ _ => rfl)
    fun _ hx => absurd hx (Nat.not_lt_zero _)

omit hl in
theorem stepsLeft_launch (s : State) (rest : List Turn) :
    stepsLeft (launch (startClear { s with turns := rest })).seq = commandSteps (blockCount s.regs) := by
  simp only [stepsLeft, launch, startClear, commandSteps, blockCount, mapStatus, clearBlkdone, Fin.val_zero]
  omega

/-- One turn of the command. -/
theorem Launch.keep {taken : List Turn} {t : State} (h : CommandRun s rest taken t) (hne : stepsLeft t.seq ≠ 0)
    (hc : (dueTurn t.turns).completes s.platform = true)
    (hst : ∀ a, InWindows s.regs a → (dueTurn t.turns).stores s.platform a = false) :
    ∃ t', step t = .next t' ∧ CommandRun s rest (taken ++ [dueTurn t.turns]) t' ∧
      (NoForwardOverlap s.regs → HoldsData s t → HoldsData s t') ∧ t'.turns = t.turns.tail ∧
      stepsLeft t.seq = if dueTurn t.turns = .core then stepsLeft t'.seq + 1 else stepsLeft t'.seq := by
  have hp : t.seq.PHASE ≠ .idle := mt h.inv.stepsLeft_eq_zero_iff.mpr hne
  have hinv := h.inv.withTurns t.turns.tail
  obtain ⟨t', ht, hcase⟩ := h.inv.step_running hp (hl.ordinary.congr h.config h.platform) (by rwa [h.platform])
  have hff : FaultFree { t with turns := t.turns.tail } := hl.faultFree.congr h.config h.platform
  obtain ⟨_, _, hturns⟩ := hcase.frame
  rcases hcase.of_faultFree hinv hff with ⟨hu, hcore, hord⟩ | ⟨hu, hf⟩
  · refine ⟨t', ht, h.snoc ht ?_, fun hw hd => ?_, hturns, ?_⟩
    · rw [hu]
      exact .of_core hinv hcore hord
    · exact HoldsData.after_core (t := { t with turns := t.turns.tail }) hd h.config hinv hw hord
    · rw [if_pos hu]
      exact (hord.stepsLeft_succ hinv).symm
  · refine ⟨t', ht, h.snoc ht (.of_host hu hp hf), fun hw hd => ?_, hturns, ?_⟩
    · exact HoldsData.after_host (t := { t with turns := t.turns.tail }) hd h.config hinv hp hf (by rwa [h.platform])
    · rw [if_neg hu, hf.seq]

/-- The state after `n` turns that follow the START. -/
theorem Launch.run {n : Nat} (hn : n ≤ (commandTurns rest (commandSteps (blockCount s.regs))).length) :
    ∃ t, Host.Core.run Sys2Proof.core (1 + n) s = .next t ∧
      CommandRun s rest ((commandTurns rest (commandSteps (blockCount s.regs))).take n) t ∧
      (NoForwardOverlap s.regs → HoldsData s t) ∧
      (stepsLeft t.seq = 0 ↔ n = (commandTurns rest (commandSteps (blockCount s.regs))).length) := by
  obtain ⟨t, hrun, ⟨hctl, hdata⟩, hdrop⟩ := run_taken
    (P := fun taken t => CommandRun s rest taken t ∧ (NoForwardOverlap s.regs → HoldsData s t))
    (Q := fun u => u.completes s.platform = true ∧ ∀ a, InWindows s.regs a → u.stores s.platform a = false)
    (fun taken t ⟨hctl, hdata⟩ hne ⟨hc, hst⟩ => by
      obtain ⟨t', ht, hctl', hdata', hturns, hleft⟩ := hl.keep hctl hne hc hst
      exact ⟨t', ht, ⟨hctl', fun hw => hdata' hw (hdata hw)⟩, hturns, hleft⟩)
    ⟨hl.commandRun, fun _ => holdsData_launch s rest⟩ (by rw [stepsLeft_launch]; rfl)
    (fun u hu => ⟨hl.completes u hu, hl.handsOff u hu⟩) hn
  refine ⟨t, by rw [Nat.add_comm, run_next n hl.step_start, hrun], hctl, hdata, ?_⟩
  rw [← commandTurns_eq_nil_iff t.turns, hdrop, List.drop_eq_nil_iff]
  exact ⟨fun h => Nat.le_antisymm hn h, fun h => h.ge⟩

/-- The state at the end of the command. -/
theorem Launch.run_to_end : ∃ t,
    Host.Core.run Sys2Proof.core (1 + (commandTurns rest (commandSteps (blockCount s.regs))).length) s = .next t ∧
      CommandRun s rest (commandTurns rest (commandSteps (blockCount s.regs))) t ∧
      (NoForwardOverlap s.regs → HoldsData s t) ∧ t.seq = Sequencer.reset := by
  obtain ⟨t, hrun, hctl, hdata, hend⟩ := hl.run (Nat.le_refl _)
  rw [List.take_length] at hctl
  exact ⟨t, hrun, hctl, hdata, hctl.inv.hygiene.idle (hctl.inv.stepsLeft_eq_zero_iff.mp (hend.mpr rfl))⟩

end

/-! ### The statements about whole commands -/

/-- Settles O57: the steps left count down from the whole command's to none, where PHASE is IDLE. -/
theorem commandTakesExactlyItsSteps : Obligations.CommandTakesExactlyItsSteps := by
  unfold Obligations.CommandTakesExactlyItsSteps
  intro s rest hl
  refine ⟨count_commandTurns _ _, fun n h1 hn => ?_, ?_⟩
  · obtain ⟨k, rfl⟩ := Nat.exists_eq_add_of_le h1
    obtain ⟨t, hrun, hctl, _, hend⟩ := hl.run (n := k) (by omega)
    have hp : t.seq.PHASE ≠ .idle := fun hi => by
      have := hend.mp (hctl.inv.stepsLeft_eq_zero_iff.mpr hi)
      omega
    refine ⟨t, hrun, ?_⟩
    rw [hctl.status, cleanStatus_running hp]
    exact ⟨rfl, rfl⟩
  · obtain ⟨t, hrun, hctl, _, hseq⟩ := hl.run_to_end
    refine ⟨t, hrun, ?_⟩
    rw [hctl.status, hseq]
    exact ⟨rfl, rfl, rfl⟩

/-- Register windows of the same configuration differ in CTRL, STATUS and BLKDONE alone. -/
theorem Regs.SameConfig.eq_withFlags {r r' : Regs} (h : r.SameConfig r') :
    r = { r' with CTRL := r.CTRL, STATUS := r.STATUS, BLKDONE := r.BLKDONE } := by
  obtain ⟨h1, h2, h3, h4, h5, h6⟩ := h
  rw [← h1, ← h2, ← h3, ← h4, ← h5, ← h6]

/-- The registers at the end of a command (R119, R122). -/
theorem CommandRun.regs_at_end {s t : State} {rest taken : List Turn} (h : CommandRun s rest taken t)
    (hd : HoldsData s t) (hq : t.seq = Sequencer.reset) : t.regs = { s.regs with
      CTRL := taken.foldl (ctrlAfter s.platform) s.regs.CTRL
      STATUS := ⟨false, true, false, taken.foldl (ignAfter s.platform) s.regs.STATUS.IGN, .none⟩
      BLKDONE := s.regs.NBLK } := by
  obtain ⟨hk, _⟩ := hd.complete (.inr (by rw [hq]; rfl))
  have hdone : t.regs.BLKDONE = s.regs.NBLK := BitVec.eq_of_toNat_eq hk
  have hst := h.status
  rw [hq] at hst
  refine h.config.eq_withFlags.trans ?_
  rw [h.ctrl, hst, hdone]
  rfl

/-- Byte `i` of block `j` of the output (R122). -/
theorem cipherByte_block (s : State) (j : Nat) (i : Fin 64) : cipherByte s (64 * j + i.val) =
    s.mem.read (s.regs.SRC_ADDR.toNat + (64 * j + i.val)) ^^^ (keystream (snapshot s) j)[i] := by
  have hdiv : (64 * j + i.val) / 64 = j := by omega
  have hmod : (64 * j + i.val) % 64 = i.val := by omega
  simp only [cipherByte, hdiv, hmod]
  rfl

/-- The output at the end of a command (R122). -/
theorem HoldsData.output_at_end {s t : State} (h : HoldsData s t) (hp : t.seq.PHASE = .idle) {j : Nat}
    (hj : j < blockCount s.regs) (i : Fin 64) : t.mem.read (s.regs.DST_ADDR.toNat + (64 * j + i.val)) =
      s.mem.read (s.regs.SRC_ADDR.toNat + (64 * j + i.val)) ^^^ (keystream (snapshot s) j)[i] := by
  obtain ⟨hk, _⟩ := h.complete (.inr hp)
  rw [← cipherByte_block]
  exact h.output_done (by omega)

/-- Settles O59: control and data at the end of the command. -/
theorem commandEncryptsBesideTheHost : Obligations.CommandEncryptsBesideTheHost := by
  unfold Obligations.CommandEncryptsBesideTheHost
  intro s rest hl hw
  obtain ⟨t, hrun, hctl, hdata, hseq⟩ := hl.run_to_end
  have hd := hdata hw
  have hp : t.seq.PHASE = .idle := by rw [hseq]; rfl
  obtain ⟨_, hlow, hhigh⟩ := hd.complete (.inr hp)
  exact ⟨t, hrun, hctl.regs_at_end hd hseq, hseq, hctl.platform, hctl.turns, fun j hj i => hd.output_at_end hp hj i, hlow,
    hhigh, hctl.frame⟩

/-- CORE's turns alone leave CTRL and IGN as they are. -/
theorem foldl_ctrlAfter_core (p : Platform) (c : Ctrl) (n : Nat) :
    (List.replicate n Turn.core).foldl (ctrlAfter p) c = c := by
  induction n with
  | zero => rfl
  | succ n ih => rw [List.replicate_succ, List.foldl_cons, ctrlAfter_none rfl, ih]

theorem foldl_ignAfter_core (p : Platform) (g : Bool) (n : Nat) :
    (List.replicate n Turn.core).foldl (ignAfter p) g = g := by
  induction n with
  | zero => rfl
  | succ n ih => rw [List.replicate_succ, List.foldl_cons, ignAfter_none rfl, ih]

/-- States that agree but for registers, memory and turns. -/
theorem State.eq_withRegsMemTurns {s t : State} (hq : t.seq = s.seq) (hp : t.platform = s.platform)
    (hv : t.rdata = s.rdata) (hd : t.draws = s.draws) : t = { s with regs := t.regs, mem := t.mem, turns := t.turns } := by
  rw [← hq, ← hp, ← hv, ← hd]

/-- Settles O58: without turns of the host the value last read and the draws stay too. -/
theorem commandEncryptsTheBuffer : Obligations.CommandEncryptsTheBuffer := by
  unfold Obligations.CommandEncryptsTheBuffer
  intro s hl hw
  obtain ⟨t, hrun, hctl, hdata, hseq⟩ := hl.run_to_end
  rw [commandTurns_nil] at hrun hctl
  rw [List.length_replicate] at hrun
  have hd := hdata hw
  have hp : t.seq.PHASE = .idle := by rw [hseq]; rfl
  obtain ⟨_, hlow, hhigh⟩ := hd.complete (.inr hp)
  have hcore : ∀ u ∈ List.replicate (commandSteps (blockCount s.regs)) Turn.core, u = .core :=
    fun _ hu => List.eq_of_mem_replicate hu
  obtain ⟨hread, hdraws⟩ := hctl.alone hcore
  have hregs := hctl.regs_at_end hd hseq
  rw [foldl_ctrlAfter_core, foldl_ignAfter_core] at hregs
  have hturns : t.turns = [] := hctl.turns.trans List.drop_nil
  have hsame := State.eq_withRegsMemTurns (hseq.trans (hl.inv.hygiene.idle hl.idle).symm) hctl.platform hread hdraws
  rw [hregs, hturns] at hsame
  refine ⟨t.mem, hrun.trans (congrArg _ hsame), fun j hj i => hd.output_at_end hp hj i, hlow, hhigh,
    fun a hout hcnt => hctl.frame a hout hcnt fun u hu => ?_⟩
  rw [hcore u hu]
  rfl

end Sys2Proof.Machine
end

section
/-! CORE always has its step (spec/70_reset_and_hazards.md R159). -/

namespace Sys2Proof.Machine

/-- Settles O48: in IDLE the step is the model's waiting step (R30; assumption log, entry 2); in every other phase CORE is
BUSY, and `MachineInv.coreStep_ordinary` answers the step, whether its access is done or faults. -/
theorem coreAlwaysHasItsStep : Obligations.CoreAlwaysHasItsStep := by
  intro s hs hord
  by_cases hp : s.seq.PHASE = .idle
  · exact ⟨s, coreStep_idle hp⟩
  · obtain ⟨t, ht, _⟩ := hs.coreStep_ordinary hp (hord (hs.status.busy_iff.mpr hp))
    exact ⟨t, ht⟩

end Sys2Proof.Machine
end

section
/-! SUPPORT. Proofs that decode and encode agree, in both directions (spec/30_encoding.md R63 to R67). -/

namespace Sys2Proof.Laws.WordLayout

/-- The layout of every instruction's word, put together from the constructors' lemmas. -/
theorem statement (i : Instr) : Statement i := by
  cases i
  exacts [rdCtrl, rdCmd, rdStatus, rdBlkdone, rdNblk, rdStateAddr, rdSrcAddr, rdDstAddr, rdSrcLen, rdDstLen,
    wrCtrl _, wrCmdNop, wrCmdStart, wrCmdIllegal _, wrStatus _, wrBlkdone _, wrNblk _, wrStateAddr _, wrSrcAddr _,
    wrDstAddr _, wrSrcLen _, wrDstLen _, rsvd28To2C _ _ _, rsvd30To3C _ _ _]

end Sys2Proof.Laws.WordLayout

namespace Sys2Proof

/-- The word of an instruction is decoded by its W, OFF and DATA (R64). -/
theorem decode_encode_fields (i : Instr) :
    decode (encode i) = .ok (if i.isWrite then decodeWrite i.offset i.data else decodeRead i.offset) := by
  obtain ⟨_, _, _, haligned, hwindow⟩ := Laws.WordLayout.statement i
  exact decode_haWord _ _ _ haligned hwindow

/-! ### The reserved offsets (R14) -/

theorem decodeRead_rsvd28To2C (slot : BitVec 1) :
    decodeRead (0b00101#5 ++ slot ++ 0b00#2) = .rsvd28To2C false slot 0 := by
  revert slot; decide

theorem decodeRead_rsvd30To3C (slot : BitVec 2) :
    decodeRead (0b0011#4 ++ slot ++ 0b00#2) = .rsvd30To3C false slot 0 := by
  revert slot; decide

theorem decodeWrite_rsvd28To2C (slot : BitVec 1) (v : Word) :
    decodeWrite (0b00101#5 ++ slot ++ 0b00#2) v = .rsvd28To2C true slot v := by
  have hslot : ∀ slot : BitVec 1, slot = 0 ∨ slot = 1 := by decide
  obtain rfl | rfl := hslot slot <;> rfl

theorem decodeWrite_rsvd30To3C (slot : BitVec 2) (v : Word) :
    decodeWrite (0b0011#4 ++ slot ++ 0b00#2) v = .rsvd30To3C true slot v := by
  have hslot : ∀ slot : BitVec 2, slot = 0 ∨ slot = 1 ∨ slot = 2 ∨ slot = 3 := by decide
  obtain rfl | rfl | rfl | rfl := hslot slot <;> rfl

/-! ### Decoding an encoded instruction -/

theorem wellFormed_wrCmdIllegal {v : Word} : (Instr.wrCmdIllegal v).wellFormed = true ↔ v ≠ 0 ∧ v ≠ 1 := by
  simp only [Instr.wellFormed, Bool.and_eq_true, bne_iff_ne]

/-- The fields of a well-formed instruction decode to it. Only three rows need more than their offset: an illegal command
must not be 0 or 1 (R67), a reserved access has its slot in OFF, and a reserved read has DATA 0 (R63). -/
theorem decode_fields_of_wellFormed {i : Instr} (h : i.wellFormed = true) :
    (if i.isWrite then decodeWrite i.offset i.data else decodeRead i.offset) = i := by
  cases i with
  | wrCmdIllegal v =>
    obtain ⟨h0, h1⟩ := wellFormed_wrCmdIllegal.mp h
    exact decodeCommand_illegal h0 h1
  | rsvd28To2C write slot v =>
    cases write with
    | true => exact decodeWrite_rsvd28To2C slot v
    | false =>
      obtain rfl : v = 0 := by simpa [Instr.wellFormed] using h
      exact decodeRead_rsvd28To2C slot
  | rsvd30To3C write slot v =>
    cases write with
    | true => exact decodeWrite_rsvd30To3C slot v
    | false =>
      obtain rfl : v = 0 := by simpa [Instr.wellFormed] using h
      exact decodeRead_rsvd30To3C slot
  | _ => rfl

/-- Settles O4: an instruction's word is decoded by its fields, and the fields of a well-formed one give it back. -/
theorem decodeReadsEncodedInstruction : Obligations.DecodeReadsEncodedInstruction :=
  fun i h => (decode_encode_fields i).trans (congrArg _ (decode_fields_of_wellFormed h))

/-! ### Encoding a decoded word -/

/-- The instruction is well formed and its word has these fields. -/
structure Instr.HasFields (i : Instr) (write : Bool) (off : BitVec 8) (v : Word) : Prop where
  wellFormed : i.wellFormed = true
  isWrite : i.isWrite = write
  offset : i.offset = off
  data : i.data = v

/-- The word of an instruction is determined by its fields. -/
theorem Instr.HasFields.encode_eq {i : Instr} {write : Bool} {off : BitVec 8} {v : Word} (h : i.HasFields write off v) :
    encode i = haWord write off v := by
  rw [encode, h.isWrite, h.offset, h.data]

/-- The aligned offsets of the window: the reserved ones, CMD, and the nine other registers (R14). -/
theorem offset_cases {off : BitVec 8} (haligned : off.extractLsb' 0 2 = 0) (hwindow : off < 0x40) :
    (∃ slot : BitVec 1, off = 0b00101#5 ++ slot ++ 0b00#2) ∨ (∃ slot : BitVec 2, off = 0b0011#4 ++ slot ++ 0b00#2) ∨
      off = 0x04 ∨ off = 0x00 ∨ off = 0x08 ∨ off = 0x0C ∨ off = 0x10 ∨ off = 0x14 ∨ off = 0x18 ∨ off = 0x1C ∨
      off = 0x20 ∨ off = 0x24 := by
  revert off; decide

/-- A CMD write carries its DATA whole, whichever of the three commands it is (R65 to R67). -/
theorem decodeCommand_hasFields (v : Word) : (decodeCommand v).HasFields true 0x04 v := by
  by_cases h0 : v = 0
  · subst h0; exact ⟨rfl, rfl, rfl, rfl⟩
  · by_cases h1 : v = 1
    · subst h1; exact ⟨rfl, rfl, rfl, rfl⟩
    · rw [decodeCommand_illegal h0 h1]
      exact ⟨wellFormed_wrCmdIllegal.mpr ⟨h0, h1⟩, rfl, rfl, rfl⟩

section
variable {off : BitVec 8} (haligned : off.extractLsb' 0 2 = 0) (hwindow : off < 0x40)
include haligned hwindow

theorem decodeWrite_hasFields (v : Word) : (decodeWrite off v).HasFields true off v := by
  obtain ⟨slot, rfl⟩ | ⟨slot, rfl⟩ | rfl | rfl | rfl | rfl | rfl | rfl | rfl | rfl | rfl | rfl :=
    offset_cases haligned hwindow
  · rw [decodeWrite_rsvd28To2C]; exact ⟨rfl, rfl, rfl, rfl⟩
  · rw [decodeWrite_rsvd30To3C]; exact ⟨rfl, rfl, rfl, rfl⟩
  · exact decodeCommand_hasFields v
  all_goals exact ⟨rfl, rfl, rfl, rfl⟩

/-- The DATA of a decoded read is 0 (R63; assumption log, entry 10). -/
theorem decodeRead_hasFields : (decodeRead off).HasFields false off 0 := by
  obtain ⟨slot, rfl⟩ | ⟨slot, rfl⟩ | rfl | rfl | rfl | rfl | rfl | rfl | rfl | rfl | rfl | rfl :=
    offset_cases haligned hwindow
  · rw [decodeRead_rsvd28To2C]; exact ⟨rfl, rfl, rfl, rfl⟩
  · rw [decodeRead_rsvd30To3C]; exact ⟨rfl, rfl, rfl, rfl⟩
  all_goals exact ⟨rfl, rfl, rfl, rfl⟩

end

/-- A word that decodes has an aligned offset inside the window (R63). -/
theorem offset_of_decode_ok {w : HaWord} {i : Instr} (h : decode w = .ok i) :
    (haOffset w).extractLsb' 0 2 = 0 ∧ haOffset w < 0x40 := by
  unfold decode at h
  split at h
  · cases h
  next haligned =>
    split at h
    · cases h
    next hwindow => exact ⟨not_not.mp haligned, BitVec.not_le.mp hwindow⟩

/-- A decoded instruction has the word's W and OFF, and the DATA of a write. -/
theorem decode_hasFields {w : HaWord} {i : Instr} (h : decode w = .ok i) :
    i.HasFields (haWrite w) (haOffset w) (if haWrite w then haData w else 0) := by
  obtain ⟨haligned, hwindow⟩ := offset_of_decode_ok h
  rw [← haWord_fields w, decode_haWord _ _ _ haligned hwindow] at h
  obtain rfl := Except.ok.inj h
  cases haWrite w with
  | true => exact decodeWrite_hasFields haligned hwindow _
  | false => exact decodeRead_hasFields haligned hwindow

/-- Settles O5: a write's word has no other bits than the fields its instruction carries. -/
theorem decodedWordIsTheInstructions : Obligations.DecodedWordIsTheInstructions := by
  intro w i h
  have hfields := decode_hasFields h
  refine ⟨hfields.wellFormed, hfields.isWrite.symm, hfields.offset.symm, fun hwrite => ?_⟩
  calc encode i
    _ = haWord (haWrite w) (haOffset w) (haData w) := by rw [hfields.encode_eq, if_pos hwrite]
    _ = w := haWord_fields w

/-! ### Words of the spec -/

/-- Settles O3: each word is the encoded instruction, field by field. -/
theorem specWordsDecode : Obligations.SpecWordsDecode :=
  have decodes := decodeReadsEncodedInstruction
  ⟨decodes .rdStatus rfl, decodes .wrCmdNop rfl, decodes .wrCmdStart rfl, decodes (.wrCmdIllegal 0x80000001) rfl,
    decodes (.wrBlkdone 0x1234) rfl, decodes (.wrStateAddr 0xFFFFFFC4) rfl, decodes (.rsvd28To2C true 0 5) rfl,
    decodes (.rsvd30To3C false 3 0) rfl⟩

end Sys2Proof
end

section
/-! SUPPORT. Proofs about the turn that lists an HA word (assumption log, entries 3 and 23), and of the published vectors
(spec/95_test_vectors.md). -/

namespace Sys2Proof.Machine

/-- A word that does not decode is refused by name. -/
theorem hostAccess_error {ha : HaWord} {e : DecodeError} (s : State) (h : decode ha = .error e) :
    hostAccess ha s = .refused (decodeRefusal e) := by
  rw [hostAccess, h]

/-- Settles O1: the step is the host access of the word. -/
theorem stepRunsDecodedInstruction : Obligations.StepRunsDecodedInstruction := by
  intro s ha rest hturns
  have hstep : step s = hostAccess ha { s with turns := rest } := step_turn hturns
  rw [hstep]
  exact ⟨fun _ => hostAccess_ok _, hostAccess_error _, hostAccess_error _⟩

/-- Settles O27, by evaluation: the four lines of the quarter-round, and a whole block. -/
theorem knownVectors : Obligations.KnownVectors := by
  unfold Obligations.KnownVectors
  constructor
  · decide
  · decide +kernel

end Sys2Proof.Machine
end
